-- ==== Sys2Proof/Word.lean ====
section
/-! DEFINITION. The word types of the command set TMP-CMD64 revision 1 (R9, R80). -/

namespace Sys2Proof

/-- A command word: 64 bits (R80). -/
abbrev Word := BitVec 64

/-- One byte of the transport (R61). -/
abbrev Byte := BitVec 8

/-- An operand field, a register value or a response's DATA: 32 bits (R9). -/
abbrev Data := BitVec 32

end Sys2Proof
end

