-- ==== Sys2Proof/Syntax.lean ====
section
/-! DEFINITION. The commands (R18, R85), the names they mention (channels R3, microstep modes R113, registers R29 and
R30), and the assembler's source lines (R90 to R94). -/

namespace Sys2Proof

/-- The two channels, m = 0 and m = 1 (R3). -/
inductive Chan where
  | m0
  | m1
  deriving DecidableEq, Repr, Inhabited

/-- The five supported microstep resolutions (R10, R113). -/
inductive StepMode where
  | full
  | half
  | quarter
  | eighth
  | sixteenth
  deriving DecidableEq, Repr, Inhabited

/-- The thirteen mnemonics of the opcode map (R85). -/
inductive Op where
  | nop
  | setacc
  | setspd
  | move
  | stop
  | dirfwd
  | dirbwd
  | busy
  | enable
  | setmode
  | setspr
  | rdreg
  | tick
  deriving DecidableEq, Repr

/-- A command with its operands, each as wide as its field of the command word (R81, R84). -/
inductive Instr where
  /-- NOP (R204). -/
  | nop
  /-- SETACC m, a (R151). -/
  | setacc (m : Chan) (a : Data)
  /-- SETSPD m, v (R152). -/
  | setspd (m : Chan) (v : Data)
  /-- MOVE m, n with n the two's complement step count (R153). -/
  | move (m : Chan) (n : Data)
  /-- STOP m (R154). -/
  | stop (m : Chan)
  /-- DIRFWD m (R183). -/
  | dirfwd (m : Chan)
  /-- DIRBWD m (R184). -/
  | dirbwd (m : Chan)
  /-- BUSY m (R155). -/
  | busy (m : Chan)
  /-- ENABLE e (R111). -/
  | enable (e : Bool)
  /-- SETMODE k, any 32-bit k: the command's rule checks it, not the decoder (R88, R115). -/
  | setmode (k : Data)
  /-- SETSPR s (R117). -/
  | setspr (s : Data)
  /-- RDREG r (R205). -/
  | rdreg (r : Byte)
  /-- TICK k with k the channel mask (R206). -/
  | tick (k : BitVec 2)
  deriving DecidableEq, Repr

/-- The registers each channel has, in the order of their offsets 0x0 to 0xA (R29). -/
inductive ChanReg where
  | mstat
  | accel
  | tspeed
  | aAct
  | vAct
  | remain
  | speedLo
  | speedHi
  | phaccLo
  | phaccHi
  | pulseCnt
  deriving DecidableEq, Repr

/-- Every register that has a number (R24 to R30). -/
inductive Reg where
  | drvcfg
  | spr
  | params
  | ftick
  | chan (m : Chan) (r : ChanReg)
  deriving DecidableEq, Repr

/-- How an RDREG source line names its register: by name (R92) or by number (R91). -/
inductive RegRef where
  | name (r : Reg)
  | number (n : Nat)
  deriving DecidableEq, Repr

/-- One assembler source statement: the instructions of R91 and the pseudo-instructions of R93. The operands are
unbounded here. R91's ranges are the checks of `WellFormed.lean`. -/
inductive AsmLine where
  | nop
  | setacc (m : Chan) (a : Int)
  | setspd (m : Chan) (v : Int)
  | move (m : Chan) (n : Int)
  | stop (m : Chan)
  | dirfwd (m : Chan)
  | dirbwd (m : Chan)
  | busy (m : Chan)
  | enable (e : Int)
  | setmode (k : Int)
  | setspr (s : Int)
  | rdreg (r : RegRef)
  | tick (k : Int)
  /-- `tick` with no operand: both channels (R93). -/
  | tickBoth
  /-- `tick mN`: channel N alone (R93). -/
  | tickOne (m : Chan)
  /-- `enable` with no operand (R93). -/
  | enableOn
  | disable
  | estop
  | stopall
  | profile (m : Chan) (a v : Int)
  | moveboth (n : Int)
  | rdreg64 (lo hi : RegRef)
  deriving DecidableEq, Repr

/-- One item of a program as the vectors write it: a line k times, or a tick strobe, which is an event and not a
command word (R94). -/
inductive AsmItem where
  | line (l : AsmLine) (times : Nat)
  | strobe (k : Int)
  deriving DecidableEq, Repr

end Sys2Proof
end

