-- ==== Sys2Proof/WellFormed.lean ====
section
/-! DEFINITION. Which assembler lines are well formed: the operand ranges of R91 ("The assembler refuses an operand
outside the stated range. It never truncates an operand."). The operands of `Instr` are as wide as their fields of the
command word, so every `Instr` is well formed by its type and nothing is left to check there. -/

namespace Sys2Proof

/-- 0 to 2^32 - 1: the U32 operands (R84, R91). -/
def u32Range (x : Int) : Bool := decide (0 ≤ x) && decide (x < 2 ^ 32)

/-- -2^31 to 2^31 - 1: the S32 operand of MOVE (R84, R91). -/
def s32Range (x : Int) : Bool := decide (-(2 ^ 31) ≤ x) && decide (x < 2 ^ 31)

/-- 0 or 1: ENABLE's operand (R84, R91). -/
def b1Range (x : Int) : Bool := decide (0 ≤ x) && decide (x ≤ 1)

/-- 0 to 3: TICK's channel mask (R84, R91). -/
def m2Range (x : Int) : Bool := decide (0 ≤ x) && decide (x ≤ 3)

/-- A register name, or a number 0 to 255 (R91). -/
def RegRef.inRange : RegRef → Bool
  | .name _ => true
  | .number n => decide (n ≤ 255)

/-- R91's operand ranges, and for a pseudo-instruction those of the lines it expands to (R93). -/
def AsmLine.wellFormed : AsmLine → Bool
  | .nop | .stop _ | .dirfwd _ | .dirbwd _ | .busy _ => true
  | .setacc _ a => u32Range a
  | .setspd _ v => u32Range v
  | .move _ n => s32Range n
  | .enable e => b1Range e
  | .setmode k => u32Range k
  | .setspr s => u32Range s
  | .rdreg r => r.inRange
  | .tick k => m2Range k
  | .tickBoth | .tickOne _ | .enableOn | .disable | .estop | .stopall => true
  | .profile _ a v => u32Range a && u32Range v
  | .moveboth n => s32Range n
  | .rdreg64 lo hi => lo.inRange && hi.inRange

/-- A program item: its line's ranges, or a strobe's 2-bit mask (R94, R201). -/
def AsmItem.wellFormed : AsmItem → Bool
  | .line l _ => l.wellFormed
  | .strobe k => m2Range k

end Sys2Proof
end

