-- ==== Sys2Proof/Decode.lean ====
section
/-! DEFINITION. The command encoding of `30_encoding.md`: the opcode map (R85), the decoder in both of the forms R86 gives
it, the byte order of the transport (R61), the encoder, and the two spellings the host asks for. -/

namespace Sys2Proof

/-- The two classes of command (R83). -/
inductive CmdClass where
  /-- Class P: acts on channel M, SELR must be 0. -/
  | perChannel
  /-- Class G: the whole SEL byte must be 0. -/
  | global
  deriving DecidableEq, Repr

/-- The operand forms of IMM (R84). -/
inductive ImmForm where
  | u32
  | s32
  | b1
  | r8
  | m2
  | z
  deriving DecidableEq, Repr

/-- Why a word is illegal (R87). The block's answer is the same for all of them (R86), the name is the model's. -/
inductive Illegal where
  | unassignedOpcode
  | reservedNonZero
  | selrNonZero
  | selNonZero
  | immNonZero
  deriving DecidableEq, Repr

/-- The result of decoding: a command, or an illegal word (R86). -/
inductive Decoded where
  | instr (i : Instr)
  | illegal (why : Illegal)
  deriving DecidableEq, Repr

/-- One row of the opcode map (R85): `w` selects it exactly when `w AND mask = matchWord`. -/
structure OpcodeRow where
  op : Op
  mask : Word
  matchWord : Word
  deriving DecidableEq, Repr

/-! ### Channel and mode numbers -/

/-- The M bit that selects a channel (R81, R83). -/
def Chan.bit : Chan → Bool
  | .m0 => false
  | .m1 => true

/-- The channel that an M bit selects (R83). -/
def Chan.ofBit (b : Bool) : Chan := if b then .m1 else .m0

/-- The mode code of a resolution, as MODE and MODE_NEXT hold it (R113). -/
def StepMode.code : StepMode → BitVec 3
  | .full => 0
  | .half => 1
  | .quarter => 2
  | .eighth => 3
  | .sixteenth => 4

/-- The resolution of a mode value, none for an unsupported value, 5 to 2^32 - 1 (R113). -/
def StepMode.ofCode (k : Nat) : Option StepMode :=
  match k with
  | 0 => some .full
  | 1 => some .half
  | 2 => some .quarter
  | 3 => some .eighth
  | 4 => some .sixteenth
  | _ => none

/-! ### The opcode map -/

/-- All mnemonics, in the order of R85. -/
def allOps : List Op :=
  [.nop, .setacc, .setspd, .move, .stop, .dirfwd, .dirbwd, .busy, .enable, .setmode, .setspr, .rdreg, .tick]

/-- The OPC byte of each mnemonic (R85). -/
def Op.opc : Op → Byte
  | .nop => 0x00
  | .setacc => 0x01
  | .setspd => 0x02
  | .move => 0x03
  | .stop => 0x04
  | .dirfwd => 0x05
  | .dirbwd => 0x06
  | .busy => 0x07
  | .enable => 0x10
  | .setmode => 0x11
  | .setspr => 0x12
  | .rdreg => 0x20
  | .tick => 0x30

/-- The class of each mnemonic (R83, R85). -/
def Op.cmdClass : Op → CmdClass
  | .setacc | .setspd | .move | .stop | .dirfwd | .dirbwd | .busy => .perChannel
  | .nop | .enable | .setmode | .setspr | .rdreg | .tick => .global

/-- The operand form of each mnemonic (R85). -/
def Op.immForm : Op → ImmForm
  | .setacc | .setspd | .setmode | .setspr => .u32
  | .move => .s32
  | .enable => .b1
  | .rdreg => .r8
  | .tick => .m2
  | .nop | .stop | .dirfwd | .dirbwd | .busy => .z

/-- The opcode map with its masks, as R85 prints it. -/
def opcodeMap : List OpcodeRow :=
  [ ⟨.nop, 0xFFFFFFFFFFFFFFFF, 0x0000000000000000⟩,
    ⟨.setacc, 0xFFFEFFFF00000000, 0x0100000000000000⟩,
    ⟨.setspd, 0xFFFEFFFF00000000, 0x0200000000000000⟩,
    ⟨.move, 0xFFFEFFFF00000000, 0x0300000000000000⟩,
    ⟨.stop, 0xFFFEFFFFFFFFFFFF, 0x0400000000000000⟩,
    ⟨.dirfwd, 0xFFFEFFFFFFFFFFFF, 0x0500000000000000⟩,
    ⟨.dirbwd, 0xFFFEFFFFFFFFFFFF, 0x0600000000000000⟩,
    ⟨.busy, 0xFFFEFFFFFFFFFFFF, 0x0700000000000000⟩,
    ⟨.enable, 0xFFFFFFFFFFFFFFFE, 0x1000000000000000⟩,
    ⟨.setmode, 0xFFFFFFFF00000000, 0x1100000000000000⟩,
    ⟨.setspr, 0xFFFFFFFF00000000, 0x1200000000000000⟩,
    ⟨.rdreg, 0xFFFFFFFFFFFFFF00, 0x2000000000000000⟩,
    ⟨.tick, 0xFFFFFFFFFFFFFFFC, 0x3000000000000000⟩ ]

/-! ### The fields of a command word (R81) -/

/-- OPC, bits 63:56. -/
def opcField (w : Word) : Byte := w.extractLsb' 56 8

/-- SEL, bits 55:48. -/
def selField (w : Word) : Byte := w.extractLsb' 48 8

/-- SELR, bits 55:49. -/
def selrField (w : Word) : BitVec 7 := w.extractLsb' 49 7

/-- M, bit 48. -/
def mField (w : Word) : Bool := w.getLsbD 48

/-- RSV, bits 47:32. -/
def rsvField (w : Word) : BitVec 16 := w.extractLsb' 32 16

/-- IMM, bits 31:0. -/
def immField (w : Word) : Data := w.extractLsb' 0 32

/-! ### Decoding -/

/-- Whether the must-be-zero bits of IMM are all 0 for an operand form (R84). -/
def ImmForm.zeroBitsOk (form : ImmForm) (imm : Data) : Bool :=
  match form with
  | .u32 | .s32 => true
  | .b1 => imm.extractLsb' 1 31 == 0
  | .r8 => imm.extractLsb' 8 24 == 0
  | .m2 => imm.extractLsb' 2 30 == 0
  | .z => imm == 0

/-- The command of a mnemonic with its channel and its IMM field (R83, R84). -/
def Op.build (op : Op) (m : Chan) (imm : Data) : Instr :=
  match op with
  | .nop => .nop
  | .setacc => .setacc m imm
  | .setspd => .setspd m imm
  | .move => .move m imm
  | .stop => .stop m
  | .dirfwd => .dirfwd m
  | .dirbwd => .dirbwd m
  | .busy => .busy m
  | .enable => .enable (imm.getLsbD 0)
  | .setmode => .setmode imm
  | .setspr => .setspr imm
  | .rdreg => .rdreg (imm.extractLsb' 0 8)
  | .tick => .tick (imm.extractLsb' 0 2)

/-- The mnemonic of an OPC byte, none for an unassigned opcode (R85, R87). -/
def Op.ofOpc (opc : Byte) : Option Op := allOps.find? (fun op => op.opc == opc)

/-- The decoder, step by step as R86 writes it the second time. -/
def decode (w : Word) : Decoded :=
  match Op.ofOpc (opcField w) with
  | none => .illegal .unassignedOpcode
  | some op =>
    if rsvField w ≠ 0 then .illegal .reservedNonZero
    else if op.cmdClass = .perChannel ∧ selrField w ≠ 0 then .illegal .selrNonZero
    else if op.cmdClass = .global ∧ selField w ≠ 0 then .illegal .selNonZero
    else if op.immForm.zeroBitsOk (immField w) = false then .illegal .immNonZero
    else .instr (op.build (Chan.ofBit (mField w)) (immField w))

/-- The rows of the opcode map that a word selects (R86, the first form). -/
def selectedRows (w : Word) : List OpcodeRow := opcodeMap.filter (fun r => w &&& r.mask == r.matchWord)

/-- The decoder as R86 writes it the first time: the one selected row, or illegal (none). -/
def decodeByMap (w : Word) : Option Instr :=
  match selectedRows w with
  | [r] => some (r.op.build (Chan.ofBit (mField w)) (immField w))
  | _ => none

/-- The command a word decodes to, none where it is illegal. -/
def Decoded.toOption : Decoded → Option Instr
  | .instr i => some i
  | .illegal _ => none

/-- The reserved fields of a word are legal for a class and an operand form: RSV = 0, SELR = 0 in class P, SEL = 0 in
class G, and the must-be-zero bits of IMM 0 (R83, R84, R86). -/
def fieldsLegal (cls : CmdClass) (form : ImmForm) (w : Word) : Prop :=
  rsvField w = 0 ∧ (cls = .perChannel → selrField w = 0) ∧ (cls = .global → selField w = 0) ∧
    form.zeroBitsOk (immField w) = true

/-- What a command rule's heading says of its encoding ("opcode 0x01, class P, form U32"): a word with this OPC is the
command built from its M and IMM fields when its reserved fields are legal, and an illegal word otherwise. -/
def WordMeans (opc : Byte) (cls : CmdClass) (form : ImmForm) (build : Chan → Data → Instr) : Prop :=
  ∀ w, opcField w = opc →
    (fieldsLegal cls form w → decode w = .instr (build (Chan.ofBit (mField w)) (immField w))) ∧
      (¬ fieldsLegal cls form w → ∃ why, decode w = .illegal why)

/-! ### Encoding -/

/-- The mnemonic of a command (R18). -/
def Instr.op : Instr → Op
  | .nop => .nop
  | .setacc _ _ => .setacc
  | .setspd _ _ => .setspd
  | .move _ _ => .move
  | .stop _ => .stop
  | .dirfwd _ => .dirfwd
  | .dirbwd _ => .dirbwd
  | .busy _ => .busy
  | .enable _ => .enable
  | .setmode _ => .setmode
  | .setspr _ => .setspr
  | .rdreg _ => .rdreg
  | .tick _ => .tick

/-- The M bit of a command's word: the channel of a class P command, 0 for class G (R83). -/
def Instr.mBit : Instr → Bool
  | .setacc m _ | .setspd m _ | .move m _ | .stop m | .dirfwd m | .dirbwd m | .busy m => m.bit
  | .nop | .enable _ | .setmode _ | .setspr _ | .rdreg _ | .tick _ => false

/-- The IMM field of a command's word (R84, R91). -/
def Instr.imm : Instr → Data
  | .setacc _ a => a
  | .setspd _ v => v
  | .move _ n => n
  | .enable e => 0#31 ++ BitVec.ofBool e
  | .setmode k => k
  | .setspr s => s
  | .rdreg r => 0#24 ++ r
  | .tick k => 0#30 ++ k
  | .nop | .stop _ | .dirfwd _ | .dirbwd _ | .busy _ => 0

/-- The command word of a command: OPC, SELR = 0, M, RSV = 0, IMM (R81, R91). -/
def encode (i : Instr) : Word := i.op.opc ++ 0#7 ++ BitVec.ofBool i.mBit ++ 0#16 ++ i.imm

/-! ### The byte order of the transport (R61) -/

/-- The number whose bytes are given, least significant byte first (R61). -/
def natOfBytes : List Byte → Nat
  | [] => 0
  | b :: bs => b.toNat + 256 * natOfBytes bs

/-- The command word that eight transport bytes carry, bits 7:0 first (R61). -/
def wordOfBytes (bs : List Byte) : Word := BitVec.ofNat 64 (natOfBytes bs)

/-- The first n bytes of a number, least significant byte first (R61). -/
def bytesOfNat : Nat → Nat → List Byte
  | 0, _ => []
  | n + 1, v => BitVec.ofNat 8 v :: bytesOfNat n (v / 256)

/-- The eight transport bytes of a command word (R61). -/
def bytesOfWord (w : Word) : List Byte := bytesOfNat 8 w.toNat

/-- The instruction the decoder reads from a word whose low `nbits` bits are `w` and whose other bits are 0. The block
takes whole 64-bit words (R61, R80), so no byte order enters. -/
def decodeTableWord (nbits w : Nat) : Option Instr := (decode (BitVec.ofNat 64 (w % 2 ^ nbits))).toOption

end Sys2Proof
end

