-- ==== Sys2Proof/Config.lean ====
section
/-! DEFINITION. The instantiation parameters (R5 to R8, R23), which the spec leaves OPEN. -/

namespace Sys2Proof

/-- MS_PIN_MAP (R8): for each supported mode the level vector, bit 0 = MS1, bit 1 = MS2, bit 2 = MS3 (R24). -/
structure PinMap where
  full : BitVec 3
  half : BitVec 3
  quarter : BitVec 3
  eighth : BitVec 3
  sixteenth : BitVec 3
  deriving DecidableEq, Repr, Inhabited

/-- The parameters of one block, fixed for its life (R23). -/
structure Params where
  /-- F_TICK - 1, so that the type holds exactly R5's range 1 <= F_TICK <= 2^32 - 1. -/
  rate : Fin 4294967295
  /-- INVERT_0 (R6). -/
  invert0 : Bool
  /-- INVERT_1 (R6). -/
  invert1 : Bool
  /-- EN_ACTIVE_LOW (R7). -/
  enActiveLow : Bool
  /-- MS_PIN_MAP (R8). -/
  pinMap : PinMap
  deriving DecidableEq, Repr, Inhabited

/-- The tick rate F_TICK in ticks per second (R5). -/
def Params.fTick (c : Params) : Nat := c.rate.val + 1

/-- INVERT_m (R6). -/
def Params.invert (c : Params) : Chan → Bool
  | .m0 => c.invert0
  | .m1 => c.invert1

/-- The levels of a mode: MS_PIN_MAP(mode) (R8). -/
def PinMap.levels (p : PinMap) : StepMode → BitVec 3
  | .full => p.full
  | .half => p.half
  | .quarter => p.quarter
  | .eighth => p.eighth
  | .sixteenth => p.sixteenth

/-- The default of MS_PIN_MAP (R114). PRESUMED: the spec marks it general knowledge (I19). Only vectors use it. -/
def PinMap.default114 : PinMap := ⟨0b000, 0b001, 0b010, 0b011, 0b111⟩

/-- The parameters of the test vectors (`95_test_vectors.md` section 0). No meaning reads them. -/
def Params.vectors : Params := ⟨9, false, true, true, PinMap.default114⟩

/-- The parameters of the block that `State.reset` describes. DESIGN CHOICE: R5 to R8 leave them OPEN, so this is an
uninterpreted constant: nothing can be proved of its value beyond its type. -/
opaque Config.params : Params

end Sys2Proof
end

