-- ==== Sys2Proof/Machine/State.lean ====
section
/-! DEFINITION. The state of the block (R22), the model's own fields beside it, the ways a step can stop, and reset (R39). -/

namespace Sys2Proof.Machine

open Sys2Proof

/-- The profile phases with the codes 0 to 4 (R28). `stopped` is written only inside a completing tick (R147). -/
inductive Phase where
  | idle
  | accelerating
  | cruising
  | decelerating
  | stopped
  deriving DecidableEq, Repr, Inhabited

/-- The driver configuration, shared by both channels (R22, R110). -/
structure DriverConfig where
  /-- EN: logical enable state. -/
  en : Bool
  /-- MODE: the applied microstep mode. -/
  mode : StepMode
  /-- MODE_PEND: a mode write waits to be applied (R116). -/
  modePend : Bool
  /-- MODE_NEXT: the mode waiting to be applied (R116). -/
  modeNext : StepMode
  /-- SPR: steps per revolution, informational. -/
  spr : Data
  deriving DecidableEq, Repr

/-- The state of one channel (R22). -/
structure Channel where
  /-- PHASE[m]. -/
  phase : Phase
  /-- ACCEL[m], the shadow acceleration (R150). -/
  accel : Data
  /-- TSPEED[m], the shadow target speed (R150). -/
  tspeed : Data
  /-- A_ACT[m], the latched acceleration (R150). -/
  aAct : Data
  /-- V_ACT[m], the latched effective target speed (R135). -/
  vAct : Data
  /-- REMAIN[m], the magnitude of the remaining step count. -/
  remain : Data
  /-- U[m], the scaled speed (R134). -/
  u : BitVec 64
  /-- P[m], the phase accumulator (R134). -/
  p : BitVec 64
  /-- DIRLOG[m], 1 = backwards (R181). -/
  dirLog : Bool
  /-- DIRPIN[m], the level on DIR[m] (R181). -/
  dirPin : Bool
  /-- DEFECT[m], sticky (R146). -/
  defect : Bool
  /-- CLAMPED[m] (R135). -/
  clamped : Bool
  /-- PULSECNT[m], wraps mod 2^32 (R141). -/
  pulseCnt : Data
  deriving DecidableEq, Repr

/-- The status codes of a response (R220). -/
inductive Status where
  | ok
  | invalidConfiguration
  | motionAlreadyInProgress
  | illegalCommand
  deriving DecidableEq, Repr

/-- A response (STATUS, DATA) (R82). -/
structure Response where
  status : Status
  data : Data
  deriving DecidableEq, Repr

/-- What arrives at the block's inputs (R201). `cmdByte` is one byte of the transport that carries command words
(R61, R62). The three others are the events. -/
inductive Input where
  | cmd (w : Word)
  | cmdByte (b : Byte)
  | strobe (k : BitVec 2)
  | reset
  deriving DecidableEq, Repr

/-- The event outputs of the latest event (R203): what it put on RSP_OUT, and whether it pulsed STEP[0] and STEP[1]. -/
structure EventOut where
  rsp : Option Response
  step0 : Bool
  step1 : Bool
  deriving DecidableEq, Repr

/-- The whole machine: R22's state (`drv`, `ch0`, `ch1`), the parameters (`cfg`, R23: no step changes them), and the
model's own fields: the inputs still to come (R40), the transport's partial word (R62) and the latest event's outputs. -/
structure State where
  drv : DriverConfig
  ch0 : Channel
  ch1 : Channel
  cfg : Params
  inputs : List Input
  rx : List Byte
  out : EventOut
  deriving DecidableEq, Repr

/-- There is no fault: "The block never halts" (R210) and an error is a response (R228). -/
inductive Fault where
  deriving DecidableEq, Repr

/-- The ways a step can have no meaning. -/
inductive Refusal where
  /-- Raised by an arm of `exec` whose instruction has no meaning yet. Safe. No arm raises it: every row is modelled. -/
  | notModelled (mnemonic : String)
  deriving DecidableEq, Repr

/-- The outputs of an event that neither answers nor pulses (R250, R251). -/
def EventOut.none : EventOut := ⟨Option.none, false, false⟩

/-- The driver configuration after reset (R39). -/
def DriverConfig.reset : DriverConfig := ⟨false, .full, false, .full, 0⟩

/-- A channel after reset, for its INVERT_m (R39). -/
def Channel.reset (invert : Bool) : Channel :=
  { phase := .idle, accel := 0, tspeed := 0, aAct := 0, vAct := 0, remain := 0, u := 0, p := 0,
    dirLog := false, dirPin := invert, defect := false, clamped := false, pulseCnt := 0 }

/-- The block with parameters `c` right after reset, with the inputs `pending` still to come (R39, R250). -/
def State.resetWith (c : Params) (pending : List Input) : State :=
  { drv := .reset, ch0 := .reset (c.invert .m0), ch1 := .reset (c.invert .m1), cfg := c,
    inputs := pending, rx := [], out := .none }

/-- The machine right after reset (R39), for parameters that the spec leaves open, with nothing at its inputs. -/
def State.reset : State := State.resetWith Config.params []

end Sys2Proof.Machine
end

