-- ==== Sys2Proof/Machine/Operands.lean ====
section
/-! DEFINITION. How a command's rule reads its operand (R12, R84). The forms B1, R8 and Z leave nothing to compute after
decoding: their value is the field itself. -/

namespace Sys2Proof.Machine

open Sys2Proof

/-- Form U32: zext_32(IMM), 0 to 2^32 - 1 (R84). -/
def operandU32 (imm : Data) : Nat := imm.toNat

/-- Form S32: n = sext_32(IMM), -2^31 to 2^31 - 1 (R12, R84). -/
def operandS32 (imm : Data) : Int := imm.toInt

/-- Form M2: whether mask k selects channel m (R84: "bit m set = tick channel m"). -/
def maskSelects (k : BitVec 2) : Chan → Bool
  | .m0 => k.getLsbD 0
  | .m1 => k.getLsbD 1

/-- |n| as REMAIN holds it: |-2^31| = 2^31 fits in 32 bits (R12, R153). -/
def magnitude (n : Int) : Data := BitVec.ofNat 32 n.natAbs

end Sys2Proof.Machine
end

