-- ==== Sys2Proof/Machine/Ops.lean ====
section
/-! DEFINITION. The operations that all meanings share: a channel of the state, the response (R14, R82), raising an error
(R14, R225), emitting a pulse (R14), writing the direction (R181), the start of an event, and the deferred mode
application at its end (R116). The block has no exception entry and no return from one (R228, R229): `raise` is all
that an error does. -/

namespace Sys2Proof.Machine

open Sys2Proof

/-- The state of channel m (R13). -/
def State.ch (s : State) : Chan → Channel
  | .m0 => s.ch0
  | .m1 => s.ch1

/-- Writes channel m. -/
def State.setCh (s : State) (m : Chan) (c : Channel) : State :=
  match m with
  | .m0 => { s with ch0 := c }
  | .m1 => { s with ch1 := c }

/-- The other channel. -/
def otherChan : Chan → Chan
  | .m0 => .m1
  | .m1 => .m0

/-- BUSY[m] of a channel's state: PHASE[m] is not Idle (R132). -/
def Channel.busy (c : Channel) : Bool := c.phase != .idle

/-- BUSY[m] (R132). -/
def State.busy (s : State) (m : Chan) : Bool := (s.ch m).busy

/-- Both channels are Idle (R115, R116). -/
def State.bothIdle (s : State) : Bool := !s.busy .m0 && !s.busy .m1

/-- `respond(status, data)` (R14): the command's one response on RSP_OUT. -/
def State.respond (s : State) (status : Status) (data : Data) : State :=
  { s with out := { s.out with rsp := some ⟨status, data⟩ } }

/-- `raise E` (R14, R225): the response (E, 0), and no state written. -/
def State.raise (s : State) (e : Status) : State := s.respond e 0

/-- `emit STEP[m]` (R14): one pulse on channel m's step output during this event. -/
def State.emit (s : State) : Chan → State
  | .m0 => { s with out := { s.out with step0 := true } }
  | .m1 => { s with out := { s.out with step1 := true } }

/-- The start of an event: nothing is on RSP_OUT and no pulse is out yet (R14, R203). -/
def State.beginEvent (s : State) : State := { s with out := .none }

/-- Writes the logical direction and with it the pin, DIRPIN = DIRLOG XOR INVERT_m (R181). -/
def Channel.setDirection (c : Channel) (invert backwards : Bool) : Channel :=
  { c with dirLog := backwards, dirPin := backwards ^^ invert }

/-- Leaves the move: PHASE Idle, and U, P and REMAIN cleared (R147, R154). -/
def Channel.clearMove (c : Channel) : Channel :=
  { c with phase := .idle, u := 0, p := 0, remain := 0 }

/-- `post_event()`, the deferred mode application at the end of every event (R116, R209). -/
def State.postEvent (s : State) : State :=
  if s.drv.modePend && s.bothIdle then
    { s with drv := { s.drv with mode := s.drv.modeNext, modePend := false } }
  else s

/-- The end of a command's event: post_event follows the command's own effects (R209). -/
def finishEvent (r : Host.Outcome State Fault Refusal) : Host.Outcome State Fault Refusal :=
  match r with
  | .next s => .next s.postEvent
  | .fault f => .fault f
  | .refused e => .refused e

end Sys2Proof.Machine
end

