-- ==== Sys2Proof/Machine/Flags.lean ====
section
/-! DEFINITION. The tests, codes and output levels that are computed from the state and not stored: the deceleration test
(R143), the phase and status codes (R28, R220), the levels on the output ports (R33 to R35, R203, R212). The block has no
condition codes (R37). -/

namespace Sys2Proof.Machine

open Sys2Proof

/-- The scaled target speed Ut = V_ACT[m] * F (R135). -/
def Channel.target (f : Nat) (c : Channel) : Nat := c.vAct.toNat * f

/-- DecelNeeded(m) := A_ACT > 0 and U^2 >= 2 * A_ACT * F^2 * REMAIN, exact (R16, R143). -/
def Channel.decelNeeded (f : Nat) (c : Channel) : Bool :=
  decide (0 < c.aAct.toNat) && decide (2 * c.aAct.toNat * (f * f) * c.remain.toNat ≤ c.u.toNat * c.u.toNat)

/-- The PHASE code (R28). -/
def Phase.code : Phase → BitVec 3
  | .idle => 0
  | .accelerating => 1
  | .cruising => 2
  | .decelerating => 3
  | .stopped => 4

/-- The STATUS byte (R220). -/
def Status.code : Status → Byte
  | .ok => 0x00
  | .invalidConfiguration => 0x01
  | .motionAlreadyInProgress => 0x02
  | .illegalCommand => 0x03

/-- The source's signed remaining count: DIRLOG = 1 ? -REMAIN : REMAIN (R22). -/
def Channel.signedRemain (c : Channel) : Int :=
  if c.dirLog then -(c.remain.toNat : Int) else c.remain.toNat

/-- ENPIN = EN XOR EN_ACTIVE_LOW, the level on EN_OUT (R33, R34). -/
def State.enOut (s : State) : Bool := s.drv.en ^^ s.cfg.enActiveLow

/-- MS_PIN_MAP(MODE), the levels on MS[2:0]: bit 0 is MS1, bit 1 is MS2, bit 2 is MS3 (R24, R33, R35). -/
def State.msOut (s : State) : BitVec 3 := s.cfg.pinMap.levels s.drv.mode

/-- DIRPIN[m], the level on DIR[m] (R33). -/
def State.dirOut (s : State) (m : Chan) : Bool := (s.ch m).dirPin

/-- The level on BUSY_OUT[m] (R33, R212). -/
def State.busyOut (s : State) (m : Chan) : Bool := s.busy m

/-- Whether the latest event pulsed STEP[m] (R14, R33). -/
def State.stepOut (s : State) : Chan → Bool
  | .m0 => s.out.step0
  | .m1 => s.out.step1

/-- The block is quiescent: both channels Idle and no mode pending (R210). -/
def State.quiescent (s : State) : Bool := s.bothIdle && !s.drv.modePend

/-- The transport bytes of a response: the status byte, then DATA least significant byte first (R61). -/
def Response.bytes (r : Response) : List Byte := r.status.code :: bytesOfNat 4 r.data.toNat

end Sys2Proof.Machine
end

