-- ==== Sys2Proof/Machine/Direction.lean ====
section
/-! DEFINITION. The direction commands DIRFWD and DIRBWD (R180 to R188). -/

namespace Sys2Proof.Machine

open Sys2Proof

/-- Sets the direction of channel m, refused while the channel is busy (R183, R184, R185). -/
def State.steer (s : State) (m : Chan) (backwards : Bool) : State :=
  if s.busy m then s.raise .motionAlreadyInProgress
  else (s.setCh m ((s.ch m).setDirection (s.cfg.invert m) backwards)).respond .ok 0

/-- DIRFWD m (R183). -/
def execDirfwd (m : Chan) (s : State) : Host.Outcome State Fault Refusal := .next (s.steer m false)

/-- DIRBWD m (R184). -/
def execDirbwd (m : Chan) (s : State) : Host.Outcome State Fault Refusal := .next (s.steer m true)

end Sys2Proof.Machine
end

