-- ==== Sys2Proof/Machine/Driver.lean ====
section
/-! DEFINITION. The commands of the driver configuration layer: ENABLE, SETMODE, SETSPR (R110 to R119). -/

namespace Sys2Proof.Machine

open Sys2Proof

/-- ENABLE e, legal in every state (R111). EN reaches nothing but the enable output (R112). -/
def execEnable (e : Bool) (s : State) : Host.Outcome State Fault Refusal :=
  .next ({ s with drv := { s.drv with en := e } }.respond .ok 0)

/-- Selects a supported mode: at once while both channels are Idle, else pending (R115). -/
def State.selectMode (s : State) (md : StepMode) : State :=
  if s.bothIdle then { s with drv := { s.drv with mode := md } }
  else { s with drv := { s.drv with modeNext := md, modePend := true } }

/-- SETMODE k (R115). -/
def execSetmode (k : Data) (s : State) : Host.Outcome State Fault Refusal :=
  match StepMode.ofCode (operandU32 k) with
  | none => .next (s.raise .invalidConfiguration)
  | some md => .next ((s.selectMode md).respond .ok 0)

/-- SETSPR s, legal while busy (R117). -/
def execSetspr (spr : Data) (s : State) : Host.Outcome State Fault Refusal :=
  if operandU32 spr = 0 then .next (s.raise .invalidConfiguration)
  else .next ({ s with drv := { s.drv with spr := spr } }.respond .ok 0)

end Sys2Proof.Machine
end

