-- ==== Sys2Proof/Machine/Generator.lean ====
section
/-! DEFINITION. The generator commands of a channel: SETACC, SETSPD, MOVE, STOP, BUSY (R150 to R157). -/

namespace Sys2Proof.Machine

open Sys2Proof

/-- SETACC m, a: writes the shadow acceleration in any phase (R150, R151). -/
def execSetacc (m : Chan) (a : Data) (s : State) : Host.Outcome State Fault Refusal :=
  .next ((s.setCh m { s.ch m with accel := a }).respond .ok 0)

/-- SETSPD m, v: writes the shadow target speed in any phase (R150, R152). -/
def execSetspd (m : Chan) (v : Data) (s : State) : Host.Outcome State Fault Refusal :=
  .next ((s.setCh m { s.ch m with tspeed := v }).respond .ok 0)

/-- What MOVE m, n with n != 0 writes to an Idle channel, for F = F_TICK and its INVERT_m (R135, R153, R182). -/
def Channel.startMove (f : Nat) (invert : Bool) (n : Int) (c : Channel) : Channel :=
  { c.setDirection invert (decide (n < 0)) with
    aAct := c.accel
    vAct := BitVec.ofNat 32 (min c.tspeed.toNat f)
    clamped := decide (f < c.tspeed.toNat)
    remain := magnitude n
    u := 0
    p := 0
    phase := .accelerating }

/-- MOVE m, n (R153). The busy check comes first, then n = 0, which changes nothing. -/
def execMove (m : Chan) (n : Data) (s : State) : Host.Outcome State Fault Refusal :=
  if s.busy m then .next (s.raise .motionAlreadyInProgress)
  else if operandS32 n = 0 then .next (s.respond .ok 0)
  else
    .next ((s.setCh m ((s.ch m).startMove s.cfg.fTick (s.cfg.invert m) (operandS32 n))).respond .ok 0)

/-- STOP m: an abrupt halt, and OK also on an Idle channel (R154). -/
def execStop (m : Chan) (s : State) : Host.Outcome State Fault Refusal :=
  if s.busy m then .next ((s.setCh m (s.ch m).clearMove).respond .ok 0) else .next (s.respond .ok 0)

/-- BUSY m: DATA is BUSY[m] (R155). -/
def execBusy (m : Chan) (s : State) : Host.Outcome State Fault Refusal :=
  .next (s.respond .ok (if s.busy m then 1 else 0))

end Sys2Proof.Machine
end

