-- ==== Sys2Proof/Machine/Profile.lean ====
section
/-! DEFINITION. The profile engine: what one tick does to one channel (R136 to R147), and the TICK data word (R208).
Every sum, product and comparison is on natural numbers, and only the stored result is narrowed to its register (R16):
P + U may pass 2^64 before F^2 is taken off. -/

namespace Sys2Proof.Machine

open Sys2Proof

/-- The three bits that GenTick returns (R137). -/
structure TickBits where
  pulse : Bool
  done : Bool
  defect : Bool
  deriving DecidableEq, Repr

/-- The bits of a channel that is Idle or not selected (R136, R208). -/
def TickBits.zero : TickBits := ⟨false, false, false⟩

/-- Speed first in Accelerating: U <- min(U + A, Ut) (R138). -/
def Channel.rampUp (f : Nat) (c : Channel) : Channel :=
  if c.phase = .accelerating then
    { c with u := BitVec.ofNat 64 (min (c.u.toNat + c.aAct.toNat) (c.target f)) }
  else c

/-- One step period is crossed: P + U >= F^2 (R141). -/
def Channel.crosses (f : Nat) (c : Channel) : Bool := decide (f * f ≤ c.p.toNat + c.u.toNat)

/-- The position update with its pulse: P, REMAIN and PULSECNT (R141). -/
def Channel.advance (f : Nat) (c : Channel) : Channel :=
  if c.crosses f then
    { c with
      p := BitVec.ofNat 64 (c.p.toNat + c.u.toNat - f * f)
      remain := c.remain - 1
      pulseCnt := c.pulseCnt + 1 }
  else { c with p := BitVec.ofNat 64 (c.p.toNat + c.u.toNat) }

/-- Position first in Decelerating: U <- U -sat A after the position update (R140). -/
def Channel.rampDown (c : Channel) : Channel :=
  if c.phase = .decelerating then { c with u := BitVec.ofNat 64 (c.u.toNat - c.aAct.toNat) } else c

/-- finish(m): through Stopped to Idle, inside the tick (R133, R147). -/
def Channel.finish (c : Channel) : Channel := Channel.clearMove { c with phase := .stopped }

/-- The end of a tick after the updates (R142 to R146): completion first, then the phase transitions. `pulse` is passed
through to the returned bits. -/
def Channel.settle (f : Nat) (c : Channel) (pulse : Bool) : Channel × TickBits :=
  if c.remain = 0 then (c.finish, ⟨pulse, true, false⟩)
  else
    match c.phase with
    | .accelerating =>
      if c.decelNeeded f then ({ c with phase := .decelerating }, ⟨pulse, false, false⟩)
      else if c.u.toNat = c.target f then ({ c with phase := .cruising }, ⟨pulse, false, false⟩)
      else (c, ⟨pulse, false, false⟩)
    | .cruising =>
      if c.decelNeeded f then ({ c with phase := .decelerating }, ⟨pulse, false, false⟩)
      else (c, ⟨pulse, false, false⟩)
    | .decelerating =>
      if c.u = 0 then ({ c.finish with defect := true }, ⟨pulse, true, true⟩)
      else (c, ⟨pulse, false, false⟩)
    | .idle => (c, ⟨pulse, false, false⟩)
    | .stopped => (c, ⟨pulse, false, false⟩)

/-- GenTick(m) on the state of channel m, with F = F_TICK (R137). -/
def genTick (f : Nat) (c : Channel) : Channel × TickBits :=
  if c.phase = .idle then (c, .zero)
  else
    let c1 := c.rampUp f
    Channel.settle f (c1.advance f).rampDown (c1.crosses f)

/-- A tick of channel m in the machine: GenTick(m), and the pulse on STEP[m] (R137). -/
def State.tickChan (s : State) (m : Chan) : State :=
  let r := genTick s.cfg.fTick (s.ch m)
  if r.2.pulse then (s.setCh m r.1).emit m else s.setCh m r.1

/-- The bits that a tick of channel m returns (R137). -/
def State.tickBits (s : State) (m : Chan) : TickBits := (genTick s.cfg.fTick (s.ch m)).2

/-- Ticks channel m where the mask selects it (R206). -/
def State.tickIf (s : State) (k : BitVec 2) (m : Chan) : State :=
  if maskSelects k m then s.tickChan m else s

/-- The bits of channel m under mask k: 0 where it is not selected (R206, R208). -/
def State.bitsIf (s : State) (k : BitVec 2) (m : Chan) : TickBits :=
  if maskSelects k m then s.tickBits m else .zero

/-- The state change of TICK k and of Strobe(k): channel 0 first, then channel 1 (R206, R207). -/
def State.tickMask (s : State) (k : BitVec 2) : State := (s.tickIf k .m0).tickIf k .m1

/-- The DATA word of a TICK response (R208). -/
def tickData (b0 b1 : TickBits) : Data :=
  0#26 ++ BitVec.ofBool b1.defect ++ BitVec.ofBool b0.defect ++ BitVec.ofBool b1.done ++ BitVec.ofBool b0.done ++
    BitVec.ofBool b1.pulse ++ BitVec.ofBool b0.pulse

/-- The DATA word that TICK k answers in state s (R206). -/
def State.tickWord (s : State) (k : BitVec 2) : Data := tickData (s.bitsIf k .m0) ((s.tickIf k .m0).bitsIf k .m1)

end Sys2Proof.Machine
end

