-- ==== Sys2Proof/Machine/Registers.lean ====
section
/-! DEFINITION. The register-number space and RegRead (R24 to R31). -/

namespace Sys2Proof.Machine

open Sys2Proof

/-- DRVCFG: EN, MODE, MODE_PEND, MODE_NEXT, MS1 to MS3, ENPIN, from bit 0 up (R24). -/
def State.drvcfg (s : State) : Data :=
  0#20 ++ BitVec.ofBool s.enOut ++ s.msOut ++ s.drv.modeNext.code ++ BitVec.ofBool s.drv.modePend ++ s.drv.mode.code ++
    BitVec.ofBool s.drv.en

/-- PARAMS: INVERT_0, INVERT_1, EN_ACTIVE_LOW, from bit 0 up (R26). -/
def State.paramsReg (s : State) : Data :=
  0#29 ++ BitVec.ofBool s.cfg.enActiveLow ++ BitVec.ofBool s.cfg.invert1 ++ BitVec.ofBool s.cfg.invert0

/-- FTICK: F_TICK (R26). -/
def State.ftickReg (s : State) : Data := BitVec.ofNat 32 s.cfg.fTick

/-- MSTAT[m]: PHASE, BUSY, DIRLOG, DIRPIN, DEFECT, CLAMPED, from bit 0 up (R27). -/
def Channel.mstat (c : Channel) : Data :=
  0#24 ++ BitVec.ofBool c.clamped ++ BitVec.ofBool c.defect ++ BitVec.ofBool c.dirPin ++ BitVec.ofBool c.dirLog ++
    BitVec.ofBool c.busy ++ c.phase.code

/-- The data registers of a channel (R29). -/
def Channel.readReg (c : Channel) : ChanReg → Data
  | .mstat => c.mstat
  | .accel => c.accel
  | .tspeed => c.tspeed
  | .aAct => c.aAct
  | .vAct => c.vAct
  | .remain => c.remain
  | .speedLo => c.u.extractLsb' 0 32
  | .speedHi => c.u.extractLsb' 32 32
  | .phaccLo => c.p.extractLsb' 0 32
  | .phaccHi => c.p.extractLsb' 32 32
  | .pulseCnt => c.pulseCnt

/-- The content of a register (R24 to R29). -/
def State.readReg (s : State) : Reg → Data
  | .drvcfg => s.drvcfg
  | .spr => s.drv.spr
  | .params => s.paramsReg
  | .ftick => s.ftickReg
  | .chan m r => (s.ch m).readReg r

/-- The offset of a channel register (R29). -/
def chanRegOffset : ChanReg → Nat
  | .mstat => 0x0
  | .accel => 0x1
  | .tspeed => 0x2
  | .aAct => 0x3
  | .vAct => 0x4
  | .remain => 0x5
  | .speedLo => 0x6
  | .speedHi => 0x7
  | .phaccLo => 0x8
  | .phaccHi => 0x9
  | .pulseCnt => 0xA

/-- The first register number of a channel: 0x10 + 0x10*m (R29). -/
def chanBase : Chan → Nat
  | .m0 => 0x10
  | .m1 => 0x20

/-- The number of a register (R29, R30). -/
def regNumber : Reg → Byte
  | .drvcfg => 0x00
  | .spr => 0x01
  | .params => 0x02
  | .ftick => 0x03
  | .chan m r => BitVec.ofNat 8 (chanBase m + chanRegOffset r)

/-- The registers of a channel, in the order of R29. -/
def allChanRegs : List ChanReg :=
  [.mstat, .accel, .tspeed, .aAct, .vAct, .remain, .speedLo, .speedHi, .phaccLo, .phaccHi, .pulseCnt]

/-- Every register (R30). -/
def allRegs : List Reg :=
  [.drvcfg, .spr, .params, .ftick] ++ allChanRegs.map (.chan .m0) ++ allChanRegs.map (.chan .m1)

/-- The register of a number, none outside 0x00 to 0x03, 0x10 to 0x1A and 0x20 to 0x2A (R30). -/
def regOfNumber (r : Byte) : Option Reg := allRegs.find? (fun x => regNumber x == r)

/-- RegRead(r), none where it is undefined. It has no side effect (R30). -/
def State.regRead (s : State) (r : Byte) : Option Data := (regOfNumber r).map s.readReg

end Sys2Proof.Machine
end

