-- ==== Sys2Proof/Machine/HostCommands.lean ====
section
/-! DEFINITION. The commands that belong to no sub-block: NOP, RDREG, TICK (R204 to R208). -/

namespace Sys2Proof.Machine

open Sys2Proof

/-- NOP (R204). -/
def execNop (s : State) : Host.Outcome State Fault Refusal := .next (s.respond .ok 0)

/-- RDREG r: reads one register, ILLEGAL_COMMAND for a number with no register (R205). -/
def execRdreg (r : Byte) (s : State) : Host.Outcome State Fault Refusal :=
  match s.regRead r with
  | none => .next (s.raise .illegalCommand)
  | some v => .next (s.respond .ok v)

/-- TICK k: one tick of each selected channel, answered with the data word of R208 (R206). -/
def execTick (k : BitVec 2) (s : State) : Host.Outcome State Fault Refusal :=
  .next ((s.tickMask k).respond .ok (s.tickWord k))

end Sys2Proof.Machine
end

