-- ==== Sys2Proof/Machine/Dispatch.lean ====
section
/-! DEFINITION. The meaning of each command, before post_event: one arm per row of the opcode map (R85). -/

namespace Sys2Proof.Machine

open Sys2Proof

def exec (i : Instr) (s : State) : Host.Outcome State Fault Refusal :=
  match i with
  | .nop => Sys2Proof.Machine.execNop s
  | .setacc m a => Sys2Proof.Machine.execSetacc m a s
  | .setspd m v => Sys2Proof.Machine.execSetspd m v s
  | .move m n => Sys2Proof.Machine.execMove m n s
  | .stop m => Sys2Proof.Machine.execStop m s
  | .dirfwd m => Sys2Proof.Machine.execDirfwd m s
  | .dirbwd m => Sys2Proof.Machine.execDirbwd m s
  | .busy m => Sys2Proof.Machine.execBusy m s
  | .enable e => Sys2Proof.Machine.execEnable e s
  | .setmode k => Sys2Proof.Machine.execSetmode k s
  | .setspr spr => Sys2Proof.Machine.execSetspr spr s
  | .rdreg r => Sys2Proof.Machine.execRdreg r s
  | .tick k => Sys2Proof.Machine.execTick k s

end Sys2Proof.Machine
end

