-- ==== Sys2Proof/Machine/Events.lean ====
section
/-! DEFINITION. The events (R201): a command word, a tick strobe, reset, and the transport byte that completes a command
word or does not (R61, R62). Each event runs to its end, post_event included (R67, R209). -/

namespace Sys2Proof.Machine

open Sys2Proof

/-- `Cmd(w)`: decode, execute or answer ILLEGAL_COMMAND, then post_event (R86, R201, R209). -/
def State.runCmd (s : State) (w : Word) : Host.Outcome State Fault Refusal :=
  match decode w with
  | .instr i => finishEvent (exec i s.beginEvent)
  | .illegal _ => .next (s.beginEvent.raise .illegalCommand).postEvent

/-- `Strobe(k)`: the effect of TICK k without a response, then post_event (R207). -/
def State.runStrobe (s : State) (k : BitVec 2) : Host.Outcome State Fault Refusal :=
  .next (s.beginEvent.tickMask k).postEvent

/-- `Reset` (R250): the reset state with the block's own parameters and an empty transport. What the agents send later
is not changed by it. post_event runs and changes nothing. -/
def State.runReset (s : State) : Host.Outcome State Fault Refusal :=
  .next (State.resetWith s.cfg s.inputs).postEvent

/-- One byte of the transport: the eighth completes a command word, and before that there is no event (R61, R62). -/
def State.runByte (s : State) (b : Byte) : Host.Outcome State Fault Refusal :=
  if s.rx.length < 7 then .next { s with rx := s.rx ++ [b] }
  else { s with rx := [] }.runCmd (wordOfBytes (s.rx ++ [b]))

/-- Takes one input (R201). -/
def State.runInput (s : State) : Input → Host.Outcome State Fault Refusal
  | .cmd w => s.runCmd w
  | .cmdByte b => s.runByte b
  | .strobe k => s.runStrobe k
  | .reset => s.runReset

/-- Takes the next input, in the order in which the inputs are serialised (R67, R202). With no input the block waits
and nothing changes (R210, R213). -/
def State.takeNext (s : State) : Host.Outcome State Fault Refusal :=
  match s.inputs with
  | [] => .next s
  | e :: rest => { s with inputs := rest }.runInput e

/-- Puts a command word first among the inputs. -/
def State.withCommand (s : State) (w : Word) : State := { s with inputs := .cmd w :: s.inputs }

end Sys2Proof.Machine
end

