-- ==== Sys2Proof/Machine/Asm.lean ====
section
/-! DEFINITION. The assembler (R90 to R94): the text of a line, its command words, and a program's inputs. It is no part of
the block: it says which events a written program stands for. -/

namespace Sys2Proof.Machine

open Sys2Proof

/-! ### From a line to its command words -/

/-- The register number that an RDREG line names (R91, R92). -/
def RegRef.byte : RegRef → Byte
  | .name r => regNumber r
  | .number n => BitVec.ofNat 8 n

/-- The commands of a well-formed line: R91's one, or the expansion of a pseudo-instruction in order (R93). -/
def AsmLine.expand : AsmLine → List Instr
  | .nop => [.nop]
  | .setacc m a => [.setacc m (BitVec.ofInt 32 a)]
  | .setspd m v => [.setspd m (BitVec.ofInt 32 v)]
  | .move m n => [.move m (BitVec.ofInt 32 n)]
  | .stop m => [.stop m]
  | .dirfwd m => [.dirfwd m]
  | .dirbwd m => [.dirbwd m]
  | .busy m => [.busy m]
  | .enable e => [.enable (decide (e = 1))]
  | .setmode k => [.setmode (BitVec.ofInt 32 k)]
  | .setspr s => [.setspr (BitVec.ofInt 32 s)]
  | .rdreg r => [.rdreg (RegRef.byte r)]
  | .tick k => [.tick (BitVec.ofInt 2 k)]
  | .tickBoth => [.tick 3]
  | .tickOne .m0 => [.tick 1]
  | .tickOne .m1 => [.tick 2]
  | .enableOn => [.enable true]
  | .disable => [.enable false]
  | .estop => [.enable false]
  | .stopall => [.stop .m0, .stop .m1]
  | .profile m a v => [.setacc m (BitVec.ofInt 32 a), .setspd m (BitVec.ofInt 32 v)]
  | .moveboth n => [.move .m0 (BitVec.ofInt 32 n), .move .m1 (BitVec.ofInt 32 n)]
  | .rdreg64 lo hi => [.rdreg (RegRef.byte lo), .rdreg (RegRef.byte hi)]

/-- The command words of a line. An operand out of range is refused, never truncated (R91). -/
def assembleLine (l : AsmLine) : Option (List Word) :=
  if l.wellFormed then some ((AsmLine.expand l).map encode) else none

/-- The inputs of a program item: `X ×k` is k copies of X, and a strobe is an event, not a command word (R94). -/
def assembleItem : AsmItem → Option (List Input)
  | .line l times => (assembleLine l).map (fun ws => (List.replicate times (ws.map Input.cmd)).flatten)
  | .strobe k => if m2Range k then some [.strobe (BitVec.ofInt 2 k)] else none

/-- The inputs of a program, in order (R94, R201). -/
def assembleProgram : List AsmItem → Option (List Input)
  | [] => some []
  | x :: xs =>
    match assembleItem x, assembleProgram xs with
    | some a, some b => some (a ++ b)
    | _, _ => none

/-! ### The text of a line (R90) -/

/-- Splits a text at every occurrence of a character. -/
def splitAtChar (sep : Char) : List Char → List (List Char)
  | [] => [[]]
  | x :: xs =>
    if x = sep then [] :: splitAtChar sep xs
    else
      match splitAtChar sep xs with
      | [] => [[x]]
      | y :: ys => (x :: y) :: ys

/-- The text without the white space at its ends. DESIGN CHOICE (log 10): white space is `Char.isWhitespace`, tabs included. -/
def trimText (t : List Char) : List Char :=
  ((t.dropWhile Char.isWhitespace).reverse.dropWhile Char.isWhitespace).reverse

/-- The value of a digit in base 16, none for another character. DESIGN CHOICE (log 10): R90 says only `0x...`. The model
takes the digits a to f in both cases, and refuses the `_` that R11's notation puts between digit groups. -/
def digitValue (c : Char) : Option Nat :=
  if '0' ≤ c ∧ c ≤ '9' then some (c.toNat - '0'.toNat)
  else if 'a' ≤ c ∧ c ≤ 'f' then some (c.toNat - 'a'.toNat + 10)
  else if 'A' ≤ c ∧ c ≤ 'F' then some (c.toNat - 'A'.toNat + 10)
  else none

/-- Reads digits of a base onto a number already read, none at any other character, `_` included (log 10). -/
def readDigits (base : Nat) : Nat → List Char → Option Nat
  | acc, [] => some acc
  | acc, c :: cs =>
    match digitValue c with
    | some d => if d < base then readDigits base (acc * base + d) cs else none
    | none => none

/-- A natural number, decimal or hexadecimal with `0x` (R90). DESIGN CHOICE (log 10): leading zeros are taken and change
nothing, so `010` is 10. The prefix has a small x and a digit after it. A hexadecimal number is its unsigned value. -/
def readNat : List Char → Option Nat
  | [] => none
  | '0' :: 'x' :: ds => if ds = [] then none else readDigits 16 0 ds
  | ds => readDigits 10 0 ds

/-- An integer operand (R90). DESIGN CHOICE (log 10): its one sign is a `-` right before the number, also before `0x`, and
`-0` is 0. A leading `+`, a second sign and a space after the sign are refused. -/
def readInt : List Char → Option Int
  | '-' :: ds => (readNat ds).map (fun n => -(n : Int))
  | ds => (readNat ds).map (fun n => (n : Int))

/-- A channel operand, `m0` or `m1` (R90), in lower case: DESIGN CHOICE (log 10). -/
def readChan : List Char → Option Chan
  | ['m', '0'] => some .m0
  | ['m', '1'] => some .m1
  | _ => none

/-- A mode operand: a name of R91, in lower case (DESIGN CHOICE, log 10), or an integer. -/
def readMode (t : List Char) : Option Int :=
  if t = "full".toList then some 0
  else if t = "half".toList then some 1
  else if t = "quarter".toList then some 2
  else if t = "eighth".toList then some 3
  else if t = "sixteenth".toList then some 4
  else readInt t

/-- The name of a channel register without its channel digit (R92). -/
def chanRegName : ChanReg → String
  | .mstat => "mstat"
  | .accel => "accel"
  | .tspeed => "tspeed"
  | .aAct => "aact"
  | .vAct => "vact"
  | .remain => "remain"
  | .speedLo => "speedlo"
  | .speedHi => "speedhi"
  | .phaccLo => "phacclo"
  | .phaccHi => "phacchi"
  | .pulseCnt => "pulsecnt"

/-- The name of a register (R92). -/
def regName : Reg → List Char
  | .drvcfg => "drvcfg".toList
  | .spr => "spr".toList
  | .params => "params".toList
  | .ftick => "ftick".toList
  | .chan .m0 r => (chanRegName r).toList ++ ['0']
  | .chan .m1 r => (chanRegName r).toList ++ ['1']

/-- A register operand: a name of R92, in lower case, or a natural number without a sign (DESIGN CHOICE, log 10). -/
def readReg (t : List Char) : Option RegRef :=
  match allRegs.find? (fun r => regName r = t) with
  | some r => some (.name r)
  | none => (readNat t).map .number

/-- A statement from its mnemonic, in lower case, and its operands (R91, R93). -/
def readStatement (mnemonic : List Char) (args : List (List Char)) : Option AsmLine :=
  if mnemonic = "nop".toList then
    match args with
    | [] => some .nop
    | _ => none
  else if mnemonic = "setacc".toList then
    match args with
    | [m, a] => (readChan m).bind fun m => (readInt a).map (.setacc m)
    | _ => none
  else if mnemonic = "setspd".toList then
    match args with
    | [m, v] => (readChan m).bind fun m => (readInt v).map (.setspd m)
    | _ => none
  else if mnemonic = "move".toList then
    match args with
    | [m, n] => (readChan m).bind fun m => (readInt n).map (.move m)
    | _ => none
  else if mnemonic = "stop".toList then
    match args with
    | [m] => (readChan m).map .stop
    | _ => none
  else if mnemonic = "dirfwd".toList then
    match args with
    | [m] => (readChan m).map .dirfwd
    | _ => none
  else if mnemonic = "dirbwd".toList then
    match args with
    | [m] => (readChan m).map .dirbwd
    | _ => none
  else if mnemonic = "busy".toList then
    match args with
    | [m] => (readChan m).map .busy
    | _ => none
  else if mnemonic = "enable".toList then
    match args with
    | [] => some .enableOn
    | [e] => (readInt e).map .enable
    | _ => none
  else if mnemonic = "setmode".toList then
    match args with
    | [k] => (readMode k).map .setmode
    | _ => none
  else if mnemonic = "setspr".toList then
    match args with
    | [s] => (readInt s).map .setspr
    | _ => none
  else if mnemonic = "rdreg".toList then
    match args with
    | [r] => (readReg r).map .rdreg
    | _ => none
  else if mnemonic = "tick".toList then
    match args with
    | [] => some .tickBoth
    | [k] =>
      match readChan k with
      | some m => some (.tickOne m)
      | none => (readInt k).map .tick
    | _ => none
  else if mnemonic = "disable".toList then
    match args with
    | [] => some .disable
    | _ => none
  else if mnemonic = "estop".toList then
    match args with
    | [] => some .estop
    | _ => none
  else if mnemonic = "stopall".toList then
    match args with
    | [] => some .stopall
    | _ => none
  else if mnemonic = "profile".toList then
    match args with
    | [m, a, v] =>
      (readChan m).bind fun m => (readInt a).bind fun a => (readInt v).map (.profile m a)
    | _ => none
  else if mnemonic = "moveboth".toList then
    match args with
    | [n] => (readInt n).map .moveboth
    | _ => none
  else if mnemonic = "rdreg64".toList then
    match args with
    | [lo, hi] => (readReg lo).bind fun lo => (readReg hi).map (.rdreg64 lo)
    | _ => none
  else none

/-- Whether a text may be a label: not empty, and with no white space or comma. DESIGN CHOICE (log 10): R90 does not say what
a label is. -/
def labelOk (t : List Char) : Bool := !t.isEmpty && t.all (fun c => !c.isWhitespace && c != ',')

/-- Drops a leading `label:`, none where what stands before the colon is no label or a second colon follows (R90).
That a line has one label at most, and that a colon stands nowhere else, is a DESIGN CHOICE (log 10). -/
def dropLabel (t : List Char) : Option (List Char) :=
  match splitAtChar ':' t with
  | [s] => some s
  | [l, s] => if labelOk (trimText l) then some s else none
  | _ => none

/-- `mnemonic [operand {, operand}]`. The mnemonic's letters may be of either case (R90).
DESIGN CHOICE (log 10): white space separates the mnemonic from its operands and may stand around each. An operand left
empty by a comma is refused. -/
def readInstruction (t : List Char) : Option AsmLine :=
  let mnemonic := t.takeWhile (fun c => !c.isWhitespace)
  let rest := trimText (t.dropWhile (fun c => !c.isWhitespace))
  let args := if rest = [] then [] else (splitAtChar ',' rest).map trimText
  readStatement (mnemonic.map Char.toLower) args

/-- A line of assembly: `[label:] mnemonic [operand {, operand}] [; comment]` (R90). DESIGN CHOICE (log 10): the
first `;` begins the comment, wherever it stands, and a line without a mnemonic is refused. -/
def readLine (t : List Char) : Option AsmLine :=
  (dropLabel (t.takeWhile (fun c => c != ';'))).bind fun s => readInstruction (trimText s)

/-- The command words of a line of text (R90, R91). -/
def assembleText (t : List Char) : Option (List Word) := (readLine t).bind assembleLine

end Sys2Proof.Machine
end

