-- ==== Sys2Proof/Safety.lean ====
section
/-! DEFINITION. What counts as a safe run: the invariants of the spec (R36, R139, R148), the host's duties as hazards of a
command in a state (R211, R224, R254 to R263), and runs of ticks of one channel. -/

namespace Sys2Proof.Machine

open Sys2Proof

/-- The invariants of one channel (R36), with R133 (Stopped is never held) and R181 (the pin follows the direction), for
F = F_TICK and its INVERT_m. -/
structure ChannelInv (f : Nat) (invert : Bool) (c : Channel) : Prop where
  /-- "No event ends with PHASE[m] = Stopped" (R133). -/
  notStopped : c.phase ≠ .stopped
  /-- An Idle channel holds REMAIN = 0, U = 0 and P = 0 (R36). -/
  idleClear : c.phase = .idle → c.remain = 0 ∧ c.u = 0 ∧ c.p = 0
  /-- A busy channel holds REMAIN >= 1, U <= V_ACT*F and P < F^2 (R36). -/
  busyBounds : c.phase ≠ .idle → 1 ≤ c.remain.toNat ∧ c.u.toNat ≤ c.target f ∧ c.p.toNat < f * f
  /-- V_ACT <= F_TICK (R36). -/
  speedCap : c.vAct.toNat ≤ f
  /-- DIRPIN = DIRLOG XOR INVERT_m (R181). -/
  pinFollows : c.dirPin = (c.dirLog ^^ invert)

/-- The invariants of the block between events (R36), and of the transport: a partial word has at most 7 bytes (R62). -/
structure Inv (s : State) : Prop where
  channel : ∀ m, ChannelInv s.cfg.fTick (s.cfg.invert m) (s.ch m)
  /-- MODE_PEND = 1 implies a busy channel (R36). -/
  pendBusy : s.drv.modePend = true → s.bothIdle = false
  rxPartial : s.rx.length ≤ 7

/-- What the rules derive about one channel's profile (R135, R139, R148 d, R153). -/
structure ProfileInv (f : Nat) (c : Channel) : Prop where
  /-- In Cruising U equals Ut (R139). -/
  cruiseSpeed : c.phase = .cruising → c.u.toNat = c.target f
  /-- CLAMPED records that V_ACT was reduced to F_TICK (R135). -/
  clampedCap : c.clamped = true → c.vAct.toNat = f
  /-- REMAIN starts at |n| <= 2^31 and never rises (R148 e, R153). -/
  moveSize : c.remain.toNat ≤ 2 ^ 31
  /-- A deceleration that has begun covers the steps left (R148 d). -/
  decelCovers : c.phase = .decelerating →
    0 < c.aAct.toNat ∧ 0 < c.u.toNat ∧
      2 * c.aAct.toNat * (f * f) * c.remain.toNat ≤ 2 * c.aAct.toNat * c.p.toNat + c.u.toNat * c.u.toNat
  /-- The zero-speed ending has not happened (R146, R148 d). -/
  noDefect : c.defect = false

/-- Both sets of invariants for every channel. -/
structure FullInv (s : State) : Prop where
  inv : Inv s
  profile : ∀ m, ProfileInv s.cfg.fTick (s.ch m)

/-- A channel after n ticks and nothing else. -/
def Channel.afterTicks (f : Nat) : Nat → Channel → Channel
  | 0, c => c
  | n + 1, c => Channel.afterTicks f n (genTick f c).1

/-- The pulses that n ticks of a channel and nothing else emit. -/
def Channel.pulsesIn (f : Nat) : Nat → Channel → Nat
  | 0, _ => 0
  | n + 1, c => (if (genTick f c).2.pulse then 1 else 0) + Channel.pulsesIn f n (genTick f c).1

/-- The mask that selects one channel (R84). -/
def maskOf : Chan → BitVec 2
  | .m0 => 1
  | .m1 => 2

/-- The state with n strobes of channel m first among the inputs. -/
def State.withStrobes (s : State) (m : Chan) (n : Nat) : State :=
  { s with inputs := List.replicate n (.strobe (maskOf m)) ++ s.inputs }

/-- Everything around the block is as before: the parameters, the inputs still to come and the transport. -/
def KeepsSurroundings (s t : State) : Prop := t.cfg = s.cfg ∧ t.inputs = s.inputs ∧ t.rx = s.rx

/-- The one change at the event outputs is the response (e, d): no pulse is added or lost. -/
def Answers (s t : State) (e : Status) (d : Data) : Prop := t.out = { s.out with rsp := some ⟨e, d⟩ }

/-- The command that an input is, none for a strobe, a reset, an illegal word or a transport byte. -/
def inputCommand : Input → Option Instr
  | .cmd w => (decode w).toOption
  | .cmdByte _ => none
  | .strobe _ => none
  | .reset => none

/-- Whether an input ticks channel m: a strobe or a TICK command whose mask selects it (R206, R207). -/
def inputTicks (x : Input) (m : Chan) : Prop :=
  (∃ k, x = .strobe k ∧ maskSelects k m = true) ∨ (∃ k, inputCommand x = some (.tick k) ∧ maskSelects k m = true)

/-- The register numbers that have a register: 0x00 to 0x03, 0x10 to 0x1A, 0x20 to 0x2A (R30). -/
def definedNumber (r : Byte) : Prop :=
  r.toNat ≤ 0x03 ∨ (0x10 ≤ r.toNat ∧ r.toNat ≤ 0x1A) ∨ (0x20 ≤ r.toNat ∧ r.toNat ≤ 0x2A)

/-- The command words of two lines in order, none where either is refused (R93). -/
def both (a b : Option (List Word)) : Option (List Word) :=
  match a, b with
  | some x, some y => some (x ++ y)
  | _, _ => none

/-- The word {opc, 0b0000000, n, 0x0000, imm} of R91's column "encodes". -/
def fieldsWord (opc : Byte) (n : Bool) (imm : Data) : Word := opc ++ 0#7 ++ BitVec.ofBool n ++ 0#16 ++ imm

/-- A line with one integer operand assembles to the one word whose operand field holds the operand, exactly where the
operand lies in the range lo to hi, and is refused everywhere else (R91). `value` says how the field is read. -/
def AssemblesExactly (line : Int → AsmLine) (value : Data → Int) (lo hi : Int) (word : Data → Word) : Prop :=
  ∀ a : Int, (lo ≤ a ∧ a ≤ hi → ∃ x : Data, value x = a ∧ assembleLine (line a) = some [word x]) ∧
    (¬ (lo ≤ a ∧ a ≤ hi) → assembleLine (line a) = none)

/-- Two channels are in the same profile state: all that GenTick reads agrees (R69, R137). -/
def SameProfile (c d : Channel) : Prop :=
  c.phase = d.phase ∧ c.aAct = d.aAct ∧ c.vAct = d.vAct ∧ c.remain = d.remain ∧ c.u = d.u ∧ c.p = d.p

/-- Deceleration is needed, on exact numbers: A > 0 and U^2 >= 2*A*F^2*REMAIN (R143). -/
def DecelDue (f : Nat) (c : Channel) : Prop :=
  0 < c.aAct.toNat ∧ 2 * c.aAct.toNat * (f * f) * c.remain.toNat ≤ c.u.toNat * c.u.toNat

/-- The conditions the spec documents as hazards: host duties that the block does not check by trapping (R211, R224). -/
inductive Hazard where
  /-- ENABLE while a channel is busy (R254), `enable 0` included: DESIGN CHOICE (log 13), because no command shows whether
  a disable is the emergency stop that R211 and R254 except. -/
  | enableWhileBusy
  /-- A supported SETMODE while a channel is busy (R255). -/
  | setmodeWhileBusy
  /-- SETSPR while a channel is busy (R118). -/
  | setsprWhileBusy
  /-- SETACC or SETSPD of a busy channel (R258). -/
  | profileWriteWhileBusy
  /-- MOVE of a busy channel (R256). -/
  | moveWhileBusy
  /-- MOVE with a zero acceleration or target speed (R257). -/
  | zeroProfile
  /-- MOVE with a target speed above the tick rate (R259). -/
  | speedAboveTickRate
  /-- STOP of a busy channel: an abrupt halt (R262). -/
  | abruptStop
  /-- DIRFWD or DIRBWD of a busy channel (R263). -/
  | steerWhileBusy
  deriving DecidableEq, Repr

/-- The hazards that the block answers with an error (R223). The others are accepted (R224). -/
def Hazard.refused : Hazard → Bool
  | .moveWhileBusy | .steerWhileBusy => true
  | .enableWhileBusy | .setmodeWhileBusy | .setsprWhileBusy | .profileWriteWhileBusy | .zeroProfile
  | .speedAboveTickRate | .abruptStop => false

/-- The hazard in a list of one when its condition holds. -/
def hazardIf (p : Bool) (h : Hazard) : List Hazard := if p then [h] else []

/-- The hazards of a MOVE of channel m by n. -/
def moveHazards (s : State) (m : Chan) (n : Data) : List Hazard :=
  if s.busy m then [.moveWhileBusy]
  else if n = 0 then []
  else
    hazardIf ((s.ch m).accel = 0 || (s.ch m).tspeed = 0) .zeroProfile ++
      hazardIf (s.cfg.fTick < (s.ch m).tspeed.toNat) .speedAboveTickRate

/-- The hazards of issuing a command in a state (R224, R254 to R263). DESIGN CHOICE (log 13): every ENABLE while a channel
is busy counts, also an `enable 0` that the host means as an emergency stop. -/
def hazards (i : Instr) (s : State) : List Hazard :=
  match i with
  | .setacc m _ | .setspd m _ => hazardIf (s.busy m) .profileWriteWhileBusy
  | .move m n => moveHazards s m n
  | .stop m => hazardIf (s.busy m) .abruptStop
  | .dirfwd m | .dirbwd m => hazardIf (s.busy m) .steerWhileBusy
  | .enable _ => hazardIf (!s.bothIdle) .enableWhileBusy
  | .setmode k => hazardIf (!s.bothIdle && decide (k.toNat ≤ 4)) .setmodeWhileBusy
  | .setspr _ => hazardIf (!s.bothIdle) .setsprWhileBusy
  | .nop | .busy _ | .rdreg _ | .tick _ => []

/-- A command that breaks no duty of the host in this state (R211). DESIGN CHOICE (log 13): the emergency stop that R211
excepts is not told apart from other disables, so an `enable 0` while a channel is busy is not dutiful here. -/
def dutiful (i : Instr) (s : State) : Bool := (hazards i s).isEmpty

end Sys2Proof.Machine
end

