-- ==== Sys2Proof/Certificates/Slice0/Obligations.lean ====
section
/-! DEFINITION. The statements for the provers. Each docstring names the rules of `spec/` that the statement formalises.
Every statement quantifies over the parameters (through `State.cfg` or a `Params`), so none rests on the value that
`State.reset` has for them (log 2). R40 takes the event sequence as the step's input: it reaches a step as the list
`State.inputs` (log 1), and an event's outputs stand in `State.out` (log 4). These two forms are the model's choice. -/

open Sys2Proof Sys2Proof.Machine

/-! ### Encoding (`30_encoding.md`) -/

/-- Words written out from the opcode map (R85) decode to the commands they stand for. -/
def Obligations.TableWordsDecode : Prop :=
  decode 0x0000000000000000 = .instr .nop ∧
  decode 0x01000000FFFFFFFF = .instr (.setacc .m0 0xFFFFFFFF) ∧
  decode 0x0201000000000320 = .instr (.setspd .m1 800) ∧
  decode 0x0300000080000000 = .instr (.move .m0 0x80000000) ∧
  decode 0x0401000000000000 = .instr (.stop .m1) ∧
  decode 0x0500000000000000 = .instr (.dirfwd .m0) ∧
  decode 0x0601000000000000 = .instr (.dirbwd .m1) ∧
  decode 0x0701000000000000 = .instr (.busy .m1) ∧
  decode 0x1000000000000001 = .instr (.enable true) ∧
  decode 0x1100000000000005 = .instr (.setmode 5) ∧
  decode 0x12000000000000C8 = .instr (.setspr 200) ∧
  decode 0x20000000000000FF = .instr (.rdreg 0xFF) ∧
  decode 0x3000000000000002 = .instr (.tick 2)

/-- Decode and encode agree: the word of every command decodes to that command, with every operand (R85, R91). -/
def Obligations.DecodeOfEncode : Prop := ∀ i : Instr, decode (encode i) = .instr i

/-- No word but a command's own decodes to it: the encoder gives back every bit of a legal word (R81, R86). -/
def Obligations.EncodeOfDecode : Prop := ∀ (w : Word) (i : Instr), decode w = .instr i → encode i = w

/-- The two forms of the decoder that R86 gives agree on every word: the one row of the opcode map whose mask and match
select the word, and the field-by-field tests. And at most one row selects a word. -/
def Obligations.DecoderFormsAgree : Prop :=
  ∀ w : Word, (decode w).toOption = decodeByMap w ∧ (selectedRows w).length ≤ 1

/-- R87's list of the illegal encodings is exact: a word is illegal exactly when its opcode is unassigned, its RSV is not
0, its SELR (class P) or its SEL (class G) is not 0, or a must-be-zero bit of its IMM is set. Each illegal word is answered
ILLEGAL_COMMAND. -/
def Obligations.IllegalWordsExactly : Prop :=
  (∀ (w : Word) (why : Illegal) (s : State) (rest : List Input), decode w = .illegal why → s.inputs = .cmd w :: rest →
    ∃ t, step s = .next t ∧ t.out.rsp = some ⟨.illegalCommand, 0⟩) ∧
  ∀ w : Word, (∃ why, decode w = .illegal why) ↔
    ((0x08 ≤ (opcField w).toNat ∧ (opcField w).toNat ≤ 0x0F) ∨ (0x13 ≤ (opcField w).toNat ∧ (opcField w).toNat ≤ 0x1F) ∨
      (0x21 ≤ (opcField w).toNat ∧ (opcField w).toNat ≤ 0x2F) ∨ 0x31 ≤ (opcField w).toNat) ∨
    rsvField w ≠ 0 ∨
    ((0x01 ≤ (opcField w).toNat ∧ (opcField w).toNat ≤ 0x07) ∧ selrField w ≠ 0) ∨
    (¬ (0x01 ≤ (opcField w).toNat ∧ (opcField w).toNat ≤ 0x07) ∧ selField w ≠ 0) ∨
    (((opcField w).toNat = 0x00 ∨ (0x04 ≤ (opcField w).toNat ∧ (opcField w).toNat ≤ 0x07)) ∧ immField w ≠ 0) ∨
    ((opcField w).toNat = 0x10 ∧ 1 < (immField w).toNat) ∨
    ((opcField w).toNat = 0x20 ∧ 255 < (immField w).toNat) ∨
    ((opcField w).toNat = 0x30 ∧ 3 < (immField w).toNat)

/-- The assembler refuses exactly the operands outside R91's ranges and truncates none. For each operand of R91's table: in
the range, the line gives the one word of the table's column "encodes", whose operand field holds the written number, and
outside it the line is refused. A line with no operand gives its word. A mode name stands for its number. And whatever a
line gives are the words of its commands. -/
def Obligations.AssemblerNeverTruncates : Prop :=
  (∀ m : Chan, AssemblesExactly (.setacc m) (fun x => x.toNat) 0 (2 ^ 32 - 1) (fieldsWord 0x01 (decide (m = .m1)))) ∧
  (∀ m : Chan, AssemblesExactly (.setspd m) (fun x => x.toNat) 0 (2 ^ 32 - 1) (fieldsWord 0x02 (decide (m = .m1)))) ∧
  (∀ m : Chan,
    AssemblesExactly (.move m) (fun x => x.toInt) (-(2 ^ 31)) (2 ^ 31 - 1) (fieldsWord 0x03 (decide (m = .m1)))) ∧
  AssemblesExactly .enable (fun x => x.toNat) 0 1 (fieldsWord 0x10 false) ∧
  AssemblesExactly .setmode (fun x => x.toNat) 0 (2 ^ 32 - 1) (fieldsWord 0x11 false) ∧
  AssemblesExactly .setspr (fun x => x.toNat) 0 (2 ^ 32 - 1) (fieldsWord 0x12 false) ∧
  AssemblesExactly .tick (fun x => x.toNat) 0 3 (fieldsWord 0x30 false) ∧
  (∀ n : Nat,
    (n ≤ 255 → ∃ x : Data, x.toNat = n ∧ assembleLine (.rdreg (.number n)) = some [fieldsWord 0x20 false x]) ∧
    (255 < n → assembleLine (.rdreg (.number n)) = none)) ∧
  assembleLine .nop = some [fieldsWord 0x00 false 0] ∧
  (∀ m : Chan, assembleLine (.stop m) = some [fieldsWord 0x04 (decide (m = .m1)) 0] ∧
    assembleLine (.dirfwd m) = some [fieldsWord 0x05 (decide (m = .m1)) 0] ∧
    assembleLine (.dirbwd m) = some [fieldsWord 0x06 (decide (m = .m1)) 0] ∧
    assembleLine (.busy m) = some [fieldsWord 0x07 (decide (m = .m1)) 0]) ∧
  (∀ (name : String) (k : Data),
    (name, k) ∈ [("full", 0), ("half", 1), ("quarter", 2), ("eighth", 3), ("sixteenth", 4)] →
    assembleText ("setmode ".toList ++ name.toList) = some [fieldsWord 0x11 false k]) ∧
  (∀ (l : AsmLine) (ws : List Word), assembleLine l = some ws → ws.map decode = (AsmLine.expand l).map Decoded.instr)

/-- The pseudo-instructions (R93): each stands for the words of the lines it expands to, in order, and is refused exactly
when one of them is. -/
def Obligations.PseudoInstructionsExpand : Prop :=
  assembleLine .tickBoth = assembleLine (.tick 3) ∧ assembleLine (.tickOne .m0) = assembleLine (.tick 1) ∧
  assembleLine (.tickOne .m1) = assembleLine (.tick 2) ∧ assembleLine .enableOn = assembleLine (.enable 1) ∧
  assembleLine .disable = assembleLine (.enable 0) ∧ assembleLine .estop = assembleLine (.enable 0) ∧
  assembleLine .stopall = both (assembleLine (.stop .m0)) (assembleLine (.stop .m1)) ∧
  (∀ (m : Chan) (a v : Int),
    assembleLine (.profile m a v) = both (assembleLine (.setacc m a)) (assembleLine (.setspd m v))) ∧
  (∀ n : Int, assembleLine (.moveboth n) = both (assembleLine (.move .m0 n)) (assembleLine (.move .m1 n))) ∧
  (∀ lo hi : RegRef, assembleLine (.rdreg64 lo hi) = both (assembleLine (.rdreg lo)) (assembleLine (.rdreg hi)))

/-- The register names (R92): a line `rdreg` with a name assembles to the RDREG of the number that R92 gives the name. -/
def Obligations.RegisterNamesStandForNumbers : Prop :=
  (∀ (name : String) (n : Byte), (name, n) ∈ [("drvcfg", 0x00), ("spr", 0x01), ("params", 0x02), ("ftick", 0x03)] →
    assembleText ("rdreg ".toList ++ name.toList) = some [encode (.rdreg n)]) ∧
  (∀ (name : String) (n : Byte),
    (name, n) ∈ [("mstat", 0x10), ("accel", 0x11), ("tspeed", 0x12), ("aact", 0x13), ("vact", 0x14), ("remain", 0x15),
      ("speedlo", 0x16), ("speedhi", 0x17), ("phacclo", 0x18), ("phacchi", 0x19), ("pulsecnt", 0x1A)] →
    assembleText ("rdreg ".toList ++ name.toList ++ ['0']) = some [encode (.rdreg n)] ∧
    assembleText ("rdreg ".toList ++ name.toList ++ ['1']) = some [encode (.rdreg (n + 0x10))])

/-- The transport's byte order (R61): eight bytes, bits 7:0 first, carry a command word, and reading them back gives the
word. A response goes as its status byte, with R220's code, and then DATA, least significant byte first. -/
def Obligations.WordBytesLittleEndian : Prop :=
  (∀ w : Word, wordOfBytes (bytesOfWord w) = w ∧ (bytesOfWord w).length = 8 ∧
    ∀ i : Nat, (h : i < (bytesOfWord w).length) → (bytesOfWord w)[i] = w.extractLsb' (8 * i) 8) ∧
  (∀ r : Response, Response.bytes r =
    [match r.status with
      | .ok => 0x00 | .invalidConfiguration => 0x01 | .motionAlreadyInProgress => 0x02 | .illegalCommand => 0x03,
      r.data.extractLsb' 0 8, r.data.extractLsb' 8 8, r.data.extractLsb' 16 8, r.data.extractLsb' 24 8])

/-- A partial word is not a command (R62): a transport byte that does not complete a word changes only the partial word,
and the eighth byte is the event of the whole command word. That a byte is a step of its own, which may stand among whole
words and strobes, is the model's choice (log 5). -/
def Obligations.LastByteDeliversTheCommand : Prop :=
  ∀ (s : State) (b : Byte) (rest : List Input), s.inputs = .cmdByte b :: rest →
    (s.rx.length < 7 → step s = .next { s with inputs := rest, rx := s.rx ++ [b] }) ∧
    (s.rx.length = 7 →
      step s = step { s with rx := [], inputs := .cmd (wordOfBytes (s.rx ++ [b])) :: rest })

/-! ### Events (`20_memory.md`, `43_host_interface.md`) -/

/-- A step runs the decoded command: when the next input is a word that decodes to i, the step is the meaning of i at the
state with that input taken and the event outputs cleared, followed by post_event (R201, R209). -/
def Obligations.StepRunsDecodedCommand : Prop :=
  ∀ (s : State) (w : Word) (rest : List Input) (i : Instr), s.inputs = .cmd w :: rest → decode w = .instr i →
    step s = finishEvent (exec i { s with inputs := rest, out := ⟨none, false, false⟩ })

/-- The block never halts (R210): every step answers a next state, and an input is consumed when there is one. That a step
with no input waits and changes nothing is the model's choice (log 1). -/
def Obligations.EveryStepCompletes : Prop :=
  ∀ s : State, ∃ t, step s = .next t ∧ t.inputs = s.inputs.tail ∧ (s.inputs = [] → t = s)

/-- Every command produces exactly one response and a strobe or reset none. STATUS holds a code of R220. DATA is 0 when
STATUS is not OK, and 0 for every command other than BUSY, RDREG and TICK (R82). -/
def Obligations.EveryCommandAnswersOnce : Prop :=
  ∀ (s t : State) (x : Input) (rest : List Input), s.inputs = x :: rest → step s = .next t →
    (∀ w, x = .cmd w → ∃ r, t.out.rsp = some r ∧
      r.status.code = (match r.status with
        | .ok => 0x00 | .invalidConfiguration => 0x01 | .motionAlreadyInProgress => 0x02 | .illegalCommand => 0x03) ∧
      (r.status ≠ .ok → r.data = 0) ∧
      (r.data ≠ 0 → ∃ i, decode w = .instr i ∧ ((∃ m, i = .busy m) ∨ (∃ n, i = .rdreg n) ∨ (∃ k, i = .tick k)))) ∧
    (∀ k, x = .strobe k → t.out.rsp = none) ∧ (x = .reset → t.out.rsp = none)

/-- No event changes the instantiation parameters (R23, R186). -/
def Obligations.ParametersNeverChange : Prop := ∀ s t : State, step s = .next t → t.cfg = s.cfg

/-- A strobe is TICK without the response (R207): the same state and the same pulses. -/
def Obligations.StrobeIsTickWithoutResponse : Prop :=
  ∀ (s t1 t2 : State) (k : BitVec 2) (rest : List Input),
    step { s with inputs := .cmd (encode (.tick k)) :: rest } = .next t1 →
    step { s with inputs := .strobe k :: rest } = .next t2 →
    t2 = { t1 with out := { t1.out with rsp := none } }

/-- Reset (R250, R39, R251): every piece of state gets its reset value, also of a busy channel. There is no response and
no pulse, a partial command word is discarded, and the parameters and later inputs are kept. The levels are those of R251,
and DRVCFG shows the mode codes 0. -/
def Obligations.ResetEventGivesResetState : Prop :=
  ∀ (s : State) (rest : List Input), s.inputs = .reset :: rest → ∃ t, step s = .next t ∧
    (∀ m, (t.ch m).phase = .idle ∧ (t.ch m).remain = 0 ∧ (t.ch m).u = 0 ∧ (t.ch m).p = 0 ∧ (t.ch m).accel = 0 ∧
      (t.ch m).tspeed = 0 ∧ (t.ch m).aAct = 0 ∧ (t.ch m).vAct = 0 ∧ (t.ch m).dirLog = false ∧
      (t.ch m).dirPin = s.cfg.invert m ∧ (t.ch m).defect = false ∧ (t.ch m).clamped = false ∧ (t.ch m).pulseCnt = 0) ∧
    t.drv.en = false ∧ t.drv.mode = .full ∧ t.drv.modePend = false ∧ t.drv.modeNext = .full ∧ t.drv.spr = 0 ∧
    t.out.rsp = none ∧ (∀ m, t.stepOut m = false) ∧ (∀ m, t.dirOut m = s.cfg.invert m) ∧
    t.enOut = s.cfg.enActiveLow ∧ t.msOut = s.cfg.pinMap.levels .full ∧ (∀ m, t.busyOut m = false) ∧
    (∃ v, t.regRead 0x00 = some v ∧ v.extractLsb' 1 3 = 0 ∧ v.extractLsb' 5 3 = 0) ∧
    t.rx = [] ∧ t.cfg = s.cfg ∧ t.inputs = rest

/-- Deferred mode application (R116) at the end of every event. After any event a pending mode means a busy channel. And
while a mode is pending, an event other than SETMODE and reset applies it exactly when it leaves both channels Idle, and
otherwise leaves MODE, MODE_PEND and MODE_NEXT alone. With no mode pending such an event leaves all three alone. -/
def Obligations.PendingModeAppliedWhenBothIdle : Prop :=
  ∀ (s t : State) (x : Input) (rest : List Input), s.inputs = x :: rest → (∀ b, x ≠ .cmdByte b) → step s = .next t →
    (t.drv.modePend = true → t.bothIdle = false) ∧
    (s.drv.modePend = true → x ≠ .reset → (∀ k, inputCommand x ≠ some (.setmode k)) →
      t.drv.modeNext = s.drv.modeNext ∧
      (t.bothIdle = true → t.drv.mode = s.drv.modeNext ∧ t.drv.modePend = false) ∧
      (t.bothIdle = false → t.drv.mode = s.drv.mode ∧ t.drv.modePend = true)) ∧
    (s.drv.modePend = false → x ≠ .reset → (∀ k, inputCommand x ≠ some (.setmode k)) →
      t.drv.mode = s.drv.mode ∧ t.drv.modePend = false ∧ t.drv.modeNext = s.drv.modeNext)

/-- "Only these commands and events write state" (R32): the writers of each piece of state, for every event but reset,
which writes all of it. -/
def Obligations.OnlyTheListedWritersWrite : Prop :=
  ∀ (s t : State) (x : Input) (rest : List Input), s.inputs = x :: rest → (∀ b, x ≠ .cmdByte b) → x ≠ .reset →
    step s = .next t →
    (t.drv.en ≠ s.drv.en → ∃ e, inputCommand x = some (.enable e)) ∧
    (t.drv.spr ≠ s.drv.spr → ∃ n, inputCommand x = some (.setspr n)) ∧
    (t.drv.mode ≠ s.drv.mode →
      (∃ k, inputCommand x = some (.setmode k)) ∨
        (s.drv.modePend = true ∧ t.bothIdle = true ∧ t.drv.mode = s.drv.modeNext)) ∧
    (t.drv.modeNext ≠ s.drv.modeNext → ∃ k, inputCommand x = some (.setmode k)) ∧
    (t.drv.modePend ≠ s.drv.modePend →
      (∃ k, inputCommand x = some (.setmode k)) ∨
        (s.drv.modePend = true ∧ t.bothIdle = true ∧ t.drv.modePend = false)) ∧
    (∀ m, (t.ch m).accel ≠ (s.ch m).accel → ∃ a, inputCommand x = some (.setacc m a)) ∧
    (∀ m, (t.ch m).tspeed ≠ (s.ch m).tspeed → ∃ v, inputCommand x = some (.setspd m v)) ∧
    (∀ m, (t.ch m).aAct ≠ (s.ch m).aAct ∨ (t.ch m).vAct ≠ (s.ch m).vAct ∨ (t.ch m).clamped ≠ (s.ch m).clamped →
      ∃ n, inputCommand x = some (.move m n) ∧ n ≠ 0) ∧
    (∀ m, (t.ch m).phase ≠ (s.ch m).phase ∨ (t.ch m).remain ≠ (s.ch m).remain ∨ (t.ch m).u ≠ (s.ch m).u ∨
        (t.ch m).p ≠ (s.ch m).p →
      (∃ n, inputCommand x = some (.move m n)) ∨ inputTicks x m ∨ inputCommand x = some (.stop m)) ∧
    (∀ m, (t.ch m).dirLog ≠ (s.ch m).dirLog ∨ (t.ch m).dirPin ≠ (s.ch m).dirPin →
      (∃ n, inputCommand x = some (.move m n)) ∨ inputCommand x = some (.dirfwd m) ∨
        inputCommand x = some (.dirbwd m)) ∧
    (∀ m, (t.ch m).defect ≠ (s.ch m).defect → inputTicks x m) ∧
    (∀ m, (t.ch m).pulseCnt ≠ (s.ch m).pulseCnt → inputTicks x m)

/-- The channels do not see each other (R130, R69): two states that agree on channel m, on the parameters and on the next
inputs agree on channel m and on the pulses of STEP[m] after the next event, whatever the other channel and the driver
configuration hold. -/
def Obligations.ChannelsAreIndependent : Prop :=
  ∀ (s1 s2 t1 t2 : State) (m : Chan) (x : Input) (rest1 rest2 : List Input),
    s1.inputs = x :: rest1 → s2.inputs = x :: rest2 → s1.rx = s2.rx → s1.cfg = s2.cfg → s1.ch m = s2.ch m →
    s1.stepOut m = s2.stepOut m →
    step s1 = .next t1 → step s2 = .next t2 → t1.ch m = t2.ch m ∧ t1.stepOut m = t2.stepOut m

/-- The enable state has no effect on anything but the enable output (R112): changing EN before an event other than
ENABLE and reset changes EN after it and nothing else, but for the response of an RDREG of DRVCFG, which shows EN. -/
def Obligations.EnableOnlyReachesItsOutput : Prop :=
  ∀ (s t : State) (x : Input) (rest : List Input) (b : Bool), s.inputs = x :: rest → (∀ y, x ≠ .cmdByte y) →
    x ≠ .reset → (∀ e, inputCommand x ≠ some (.enable e)) → inputCommand x ≠ some (.rdreg 0) → step s = .next t →
    step { s with drv := { s.drv with en := b } } = .next { t with drv := { t.drv with en := b } }

/-- A command repeated with no event in between leaves the same state and response as issuing it once, except MOVE with a
non-zero count and TICK with a non-zero mask (R63). The pending mode's invariant (R36) is a premise. -/
def Obligations.RepeatedCommandChangesNothing : Prop :=
  ∀ (s t t2 : State) (w : Word) (rest : List Input), (s.drv.modePend = true → s.bothIdle = false) →
    (∀ m n, decode w = .instr (.move m n) → n = 0) → (∀ k, decode w = .instr (.tick k) → k = 0) →
    step { s with inputs := .cmd w :: .cmd w :: rest } = .next t → step t = .next t2 →
    t2 = { t with inputs := rest }

/-- The block is quiescent when both channels are Idle and no mode is pending: then no tick changes any state (R210). -/
def Obligations.NoTickChangesAQuiescentBlock : Prop :=
  ∀ (s : State) (k : BitVec 2) (rest : List Input), s.quiescent = true → s.inputs = .strobe k :: rest →
    step s = .next { s with inputs := rest, out := ⟨none, false, false⟩ }

/-! ### Errors (`60_exceptions.md`) -/

/-- ILLEGAL_COMMAND has exactly two causes (R221): the word decodes to no row, or it is an RDREG of a number with no
register. -/
def Obligations.IllegalCommandExactly : Prop :=
  ∀ (s t : State) (w : Word) (rest : List Input), s.inputs = .cmd w :: rest → step s = .next t →
    ((∃ d, t.out.rsp = some ⟨.illegalCommand, d⟩) ↔
      (∃ why, decode w = .illegal why) ∨ (∃ r, decode w = .instr (.rdreg r) ∧ ¬ definedNumber r))

/-- INVALID_CONFIGURATION has exactly two causes (R222): SETMODE with k > 4, and SETSPR with s = 0. -/
def Obligations.InvalidConfigurationExactly : Prop :=
  ∀ (s t : State) (w : Word) (rest : List Input), s.inputs = .cmd w :: rest → step s = .next t →
    ((∃ d, t.out.rsp = some ⟨.invalidConfiguration, d⟩) ↔
      (∃ k, decode w = .instr (.setmode k) ∧ 4 < k.toNat) ∨ decode w = .instr (.setspr 0))

/-- MOTION_ALREADY_IN_PROGRESS has exactly these causes (R223): MOVE, also by 0, DIRFWD or DIRBWD while the channel is
busy. -/
def Obligations.MotionInProgressExactly : Prop :=
  ∀ (s t : State) (w : Word) (rest : List Input), s.inputs = .cmd w :: rest → step s = .next t →
    ((∃ d, t.out.rsp = some ⟨.motionAlreadyInProgress, d⟩) ↔
      ∃ m, s.busy m = true ∧ ((∃ n, decode w = .instr (.move m n)) ∨ decode w = .instr (.dirfwd m) ∨
        decode w = .instr (.dirbwd m)))

/-- Every error is precise (R225): a command that answers with a status other than OK has written no state and emitted no
pulse, and its DATA is 0. A tick never produces an error status. The pending mode's invariant (R36) is a premise: without
it post_event could act. -/
def Obligations.ErrorsWriteNothing : Prop :=
  ∀ (s t : State) (w : Word) (rest : List Input), (s.drv.modePend = true → s.bothIdle = false) →
    s.inputs = .cmd w :: rest → step s = .next t →
    (∀ e d, t.out.rsp = some ⟨e, d⟩ → e ≠ .ok →
      t = { s with inputs := rest, out := ⟨some ⟨e, 0⟩, false, false⟩ }) ∧
    (∀ k, decode w = .instr (.tick k) → ∃ d, t.out.rsp = some ⟨.ok, d⟩)

/-- R224's hazards raise no error: a command whose hazards are all of the accepted kind, and whose operand its own rule
accepts, answers OK (R222 and R205 give the operands). -/
def Obligations.AcceptedHazardsRaiseNoError : Prop :=
  ∀ (i : Instr) (s : State), (∀ h ∈ hazards i s, h.refused = false) → (∀ k, i = .setmode k → k.toNat ≤ 4) →
    i ≠ .setspr 0 → (∀ r, i = .rdreg r → definedNumber r) →
    ∃ t d, exec i s = .next t ∧ t.out.rsp = some ⟨.ok, d⟩

/-! ### Registers (`10_state.md`) -/

/-- The bits of DRVCFG (R24), with the mode codes of R113, ENPIN = EN XOR EN_ACTIVE_LOW (R34) and the mode-select levels
MS_PIN_MAP(MODE) (R35). -/
def Obligations.DrvcfgBits : Prop :=
  ∀ s : State, ∃ v, s.regRead 0x00 = some v ∧ v.getLsbD 0 = s.drv.en ∧
    (v.extractLsb' 1 3).toNat = (match s.drv.mode with | .full => 0 | .half => 1 | .quarter => 2 | .eighth => 3 | .sixteenth => 4) ∧
    v.getLsbD 4 = s.drv.modePend ∧
    (v.extractLsb' 5 3).toNat =
      (match s.drv.modeNext with | .full => 0 | .half => 1 | .quarter => 2 | .eighth => 3 | .sixteenth => 4) ∧
    v.extractLsb' 8 3 = s.cfg.pinMap.levels s.drv.mode ∧ v.getLsbD 11 = (s.drv.en ^^ s.cfg.enActiveLow) ∧
    v.extractLsb' 12 20 = 0

/-- SPR (R25), PARAMS and FTICK (R26). -/
def Obligations.SprParamsFtickRead : Prop :=
  ∀ s : State, s.regRead 0x01 = some s.drv.spr ∧
    (∃ v, s.regRead 0x02 = some v ∧ v.getLsbD 0 = s.cfg.invert .m0 ∧ v.getLsbD 1 = s.cfg.invert .m1 ∧
      v.getLsbD 2 = s.cfg.enActiveLow ∧ v.extractLsb' 3 29 = 0) ∧
    (∃ v, s.regRead 0x03 = some v ∧ v.toNat = s.cfg.fTick)

/-- The bits of MSTAT[m] (R27) with the phase codes of R28. -/
def Obligations.MstatBits : Prop :=
  ∀ (s : State) (m : Chan), ∃ v, s.regRead (match m with | .m0 => 0x10 | .m1 => 0x20) = some v ∧
    (v.extractLsb' 0 3).toNat = (match (s.ch m).phase with
      | .idle => 0 | .accelerating => 1 | .cruising => 2 | .decelerating => 3 | .stopped => 4) ∧
    (v.getLsbD 3 = true ↔ (s.ch m).phase ≠ .idle) ∧ v.getLsbD 4 = (s.ch m).dirLog ∧ v.getLsbD 5 = (s.ch m).dirPin ∧
    v.getLsbD 6 = (s.ch m).defect ∧ v.getLsbD 7 = (s.ch m).clamped ∧ v.extractLsb' 8 24 = 0

/-- The data registers of a channel (R29): number 0x10 + 0x10*m + offset. The 64-bit quantities are read as LO and HI. -/
def Obligations.ChannelRegistersRead : Prop :=
  ∀ (s : State) (m : Chan) (base : Byte), base = (match m with | .m0 => 0x10 | .m1 => 0x20) →
    s.regRead (base + 0x1) = some (s.ch m).accel ∧ s.regRead (base + 0x2) = some (s.ch m).tspeed ∧
    s.regRead (base + 0x3) = some (s.ch m).aAct ∧ s.regRead (base + 0x4) = some (s.ch m).vAct ∧
    s.regRead (base + 0x5) = some (s.ch m).remain ∧
    (∃ lo hi, s.regRead (base + 0x6) = some lo ∧ s.regRead (base + 0x7) = some hi ∧ hi ++ lo = (s.ch m).u) ∧
    (∃ lo hi, s.regRead (base + 0x8) = some lo ∧ s.regRead (base + 0x9) = some hi ∧ hi ++ lo = (s.ch m).p) ∧
    s.regRead (base + 0xA) = some (s.ch m).pulseCnt

/-- RegRead is defined exactly for 0x00 to 0x03, 0x10 to 0x1A and 0x20 to 0x2A (R30). -/
def Obligations.RegisterNumbersExactly : Prop :=
  ∀ (s : State) (r : Byte), (∃ v, s.regRead r = some v) ↔
    r.toNat ≤ 0x03 ∨ (0x10 ≤ r.toNat ∧ r.toNat ≤ 0x1A) ∨ (0x20 ≤ r.toNat ∧ r.toNat ≤ 0x2A)

/-! ### The commands -/

/-- NOP (R204): opcode 0x00, class G, form Z, answers (OK, 0) and changes nothing. post_event after it changes nothing. -/
def Obligations.NopOnlyAnswers : Prop :=
  WordMeans 0x00 .global .z (fun _ _ => .nop) ∧
  (∀ s : State, exec .nop s = .next { s with out := { s.out with rsp := some ⟨.ok, 0⟩ } }) ∧
  (∀ (s : State) (rest : List Input), Inv s → s.inputs = .cmd 0 :: rest →
    step s = .next { s with inputs := rest, out := ⟨some ⟨.ok, 0⟩, false, false⟩ })

/-- SETACC (R151): opcode 0x01, class P, form U32. In every state it writes the shadow acceleration, and nothing else but
the response. -/
def Obligations.SetaccWritesTheShadow : Prop :=
  WordMeans 0x01 .perChannel .u32 .setacc ∧
  ∀ (m : Chan) (a : Data) (s : State), ∃ t, exec (.setacc m a) s = .next t ∧ (t.ch m).accel = a ∧
    t.ch m = { s.ch m with accel := a } ∧ t.ch (otherChan m) = s.ch (otherChan m) ∧ t.drv = s.drv ∧
    Answers s t .ok 0 ∧ KeepsSurroundings s t

/-- SETSPD (R152): opcode 0x02, class P, form U32. In every state it writes the shadow target speed, and nothing else but
the response. CLAMPED is not written. -/
def Obligations.SetspdWritesTheShadow : Prop :=
  WordMeans 0x02 .perChannel .u32 .setspd ∧
  ∀ (m : Chan) (v : Data) (s : State), ∃ t, exec (.setspd m v) s = .next t ∧ (t.ch m).tspeed = v ∧
    t.ch m = { s.ch m with tspeed := v } ∧ t.ch (otherChan m) = s.ch (otherChan m) ∧ t.drv = s.drv ∧
    Answers s t .ok 0 ∧ KeepsSurroundings s t

/-- MOVE (R153): opcode 0x03, class P, form S32. On an Idle channel a non-zero count starts the move: the direction and
its pin, the latched profile, the clamp, REMAIN = |n|, U = P = 0 and Accelerating, with the shadow registers, DEFECT,
PULSECNT, the other channel and the driver configuration as before. While the channel is busy MOVE is refused, also by 0,
and on an Idle channel a count of 0 answers OK. Neither changes any state. -/
def Obligations.MoveStartsAProfile : Prop :=
  WordMeans 0x03 .perChannel .s32 .move ∧
  ∀ (m : Chan) (n : Data) (s : State),
    ((s.ch m).phase ≠ .idle →
      exec (.move m n) s = .next { s with out := { s.out with rsp := some ⟨.motionAlreadyInProgress, 0⟩ } }) ∧
    ((s.ch m).phase = .idle → n.toInt = 0 →
      exec (.move m n) s = .next { s with out := { s.out with rsp := some ⟨.ok, 0⟩ } }) ∧
    ((s.ch m).phase = .idle → n.toInt ≠ 0 → ∃ t, exec (.move m n) s = .next t ∧
      (t.ch m).phase = .accelerating ∧ (t.ch m).dirLog = decide (n.toInt < 0) ∧
      (t.ch m).dirPin = ((t.ch m).dirLog ^^ s.cfg.invert m) ∧ (t.ch m).aAct = (s.ch m).accel ∧
      (t.ch m).vAct.toNat = min (s.ch m).tspeed.toNat s.cfg.fTick ∧
      ((t.ch m).clamped = true ↔ s.cfg.fTick < (s.ch m).tspeed.toNat) ∧
      (t.ch m).remain.toNat = n.toInt.natAbs ∧ 1 ≤ (t.ch m).remain.toNat ∧ (t.ch m).remain.toNat ≤ 2 ^ 31 ∧
      (t.ch m).u = 0 ∧ (t.ch m).p = 0 ∧
      (t.ch m).accel = (s.ch m).accel ∧ (t.ch m).tspeed = (s.ch m).tspeed ∧ (t.ch m).defect = (s.ch m).defect ∧
      (t.ch m).pulseCnt = (s.ch m).pulseCnt ∧
      t.ch (otherChan m) = s.ch (otherChan m) ∧ t.drv = s.drv ∧ Answers s t .ok 0 ∧ KeepsSurroundings s t)

/-- STOP (R154): opcode 0x04, class P, form Z. A busy channel goes Idle with U, P and REMAIN 0 and everything else as
before. On an Idle channel nothing changes. Both answer OK. A mode that is pending is applied at the end of a STOP that
leaves both channels Idle. -/
def Obligations.StopHaltsAbruptly : Prop :=
  WordMeans 0x04 .perChannel .z (fun m _ => .stop m) ∧
  (∀ (m : Chan) (s : State),
    ((s.ch m).phase ≠ .idle → ∃ t, exec (.stop m) s = .next t ∧
      t.ch m = { s.ch m with phase := .idle, u := 0, p := 0, remain := 0 } ∧
      t.ch (otherChan m) = s.ch (otherChan m) ∧ t.drv = s.drv ∧ Answers s t .ok 0 ∧ KeepsSurroundings s t) ∧
    ((s.ch m).phase = .idle → exec (.stop m) s = .next { s with out := { s.out with rsp := some ⟨.ok, 0⟩ } })) ∧
  (∀ (m : Chan) (s : State) (rest : List Input), s.inputs = .cmd (encode (.stop m)) :: rest → s.drv.modePend = true →
    (s.ch (otherChan m)).phase = .idle →
    ∃ t, step s = .next t ∧ t.drv = { s.drv with mode := s.drv.modeNext, modePend := false })

/-- BUSY (R155, R132): opcode 0x07, class P, form Z. DATA is 1 exactly when the phase is not Idle, and no state changes. -/
def Obligations.BusyReportsThePhase : Prop :=
  WordMeans 0x07 .perChannel .z (fun m _ => .busy m) ∧
  ∀ (m : Chan) (s : State), ∃ d : Data, (d = 1 ↔ (s.ch m).phase ≠ .idle) ∧ (d = 0 ↔ (s.ch m).phase = .idle) ∧
    exec (.busy m) s = .next { s with out := { s.out with rsp := some ⟨.ok, d⟩ } }

/-- DIRFWD (R183): opcode 0x05, class P, form Z. On an Idle channel the direction becomes forwards, and the pin INVERT_m.
On a busy channel it is refused and nothing changes. -/
def Obligations.DirfwdSetsForwards : Prop :=
  WordMeans 0x05 .perChannel .z (fun m _ => .dirfwd m) ∧
  ∀ (m : Chan) (s : State),
    ((s.ch m).phase = .idle → ∃ t, exec (.dirfwd m) s = .next t ∧
      t.ch m = { s.ch m with dirLog := false, dirPin := s.cfg.invert m } ∧
      t.ch (otherChan m) = s.ch (otherChan m) ∧ t.drv = s.drv ∧ Answers s t .ok 0 ∧ KeepsSurroundings s t) ∧
    ((s.ch m).phase ≠ .idle →
      exec (.dirfwd m) s = .next { s with out := { s.out with rsp := some ⟨.motionAlreadyInProgress, 0⟩ } })

/-- DIRBWD (R184): opcode 0x06, class P, form Z. On an Idle channel the direction becomes backwards, and the pin NOT
INVERT_m. On a busy channel it is refused and nothing changes. -/
def Obligations.DirbwdSetsBackwards : Prop :=
  WordMeans 0x06 .perChannel .z (fun m _ => .dirbwd m) ∧
  ∀ (m : Chan) (s : State),
    ((s.ch m).phase = .idle → ∃ t, exec (.dirbwd m) s = .next t ∧
      t.ch m = { s.ch m with dirLog := true, dirPin := !s.cfg.invert m } ∧
      t.ch (otherChan m) = s.ch (otherChan m) ∧ t.drv = s.drv ∧ Answers s t .ok 0 ∧ KeepsSurroundings s t) ∧
    ((s.ch m).phase ≠ .idle →
      exec (.dirbwd m) s = .next { s with out := { s.out with rsp := some ⟨.motionAlreadyInProgress, 0⟩ } })

/-- ENABLE (R111): opcode 0x10, class G, form B1. In every state it writes EN, and ENPIN becomes e XOR EN_ACTIVE_LOW.
Nothing else changes but the response. -/
def Obligations.EnableDrivesTheEnableLine : Prop :=
  WordMeans 0x10 .global .b1 (fun _ imm => .enable (imm.getLsbD 0)) ∧
  ∀ (e : Bool) (s : State), ∃ t, exec (.enable e) s = .next t ∧ t.drv = { s.drv with en := e } ∧
    t.enOut = (e ^^ s.cfg.enActiveLow) ∧ (∀ m, t.ch m = s.ch m) ∧ Answers s t .ok 0 ∧ KeepsSurroundings s t

/-- SETMODE (R115): opcode 0x11, class G, form U32. An unsupported value is refused and changes nothing. A supported one
becomes MODE at once while both channels are Idle, and else becomes the pending mode. No channel changes. -/
def Obligations.SetmodeAppliesOrDefers : Prop :=
  WordMeans 0x11 .global .u32 (fun _ k => .setmode k) ∧
  ∀ (k : Data) (s : State),
    (4 < k.toNat →
      exec (.setmode k) s = .next { s with out := { s.out with rsp := some ⟨.invalidConfiguration, 0⟩ } }) ∧
    (k.toNat ≤ 4 → ∃ (md : StepMode) (t : State),
      (match md with | .full => 0 | .half => 1 | .quarter => 2 | .eighth => 3 | .sixteenth => 4) = k.toNat ∧
      exec (.setmode k) s = .next t ∧
      (s.bothIdle = true → t.drv = { s.drv with mode := md } ∧ t.msOut = s.cfg.pinMap.levels md) ∧
      (s.bothIdle = false → t.drv = { s.drv with modeNext := md, modePend := true }) ∧
      (∀ m, t.ch m = s.ch m) ∧ Answers s t .ok 0 ∧ KeepsSurroundings s t)

/-- SETSPR (R117): opcode 0x12, class G, form U32. 0 is refused and changes nothing. Any other value is stored in SPR, also
while busy, and changes no output level and nothing else. -/
def Obligations.SetsprStoresAPositive : Prop :=
  WordMeans 0x12 .global .u32 (fun _ n => .setspr n) ∧
  ∀ (n : Data) (s : State),
    (n = 0 → exec (.setspr n) s = .next { s with out := { s.out with rsp := some ⟨.invalidConfiguration, 0⟩ } }) ∧
    (n ≠ 0 → ∃ t, exec (.setspr n) s = .next t ∧ t.drv = { s.drv with spr := n } ∧ (∀ m, t.ch m = s.ch m) ∧
      t.enOut = s.enOut ∧ t.msOut = s.msOut ∧ Answers s t .ok 0 ∧ KeepsSurroundings s t)

/-- RDREG (R205): opcode 0x20, class G, form R8. A number with a register answers its content, any other number
ILLEGAL_COMMAND. No state changes. In a state that keeps the invariants MSTAT never shows the phase code 4. -/
def Obligations.RdregReadsARegister : Prop :=
  WordMeans 0x20 .global .r8 (fun _ imm => .rdreg (imm.extractLsb' 0 8)) ∧
  (∀ (r : Byte) (s : State),
    (definedNumber r → ∃ v, s.regRead r = some v ∧
      exec (.rdreg r) s = .next { s with out := { s.out with rsp := some ⟨.ok, v⟩ } }) ∧
    (¬ definedNumber r →
      exec (.rdreg r) s = .next { s with out := { s.out with rsp := some ⟨.illegalCommand, 0⟩ } })) ∧
  (∀ (s : State) (v : Data), Inv s → s.regRead 0x10 = some v ∨ s.regRead 0x20 = some v → (v.extractLsb' 0 3).toNat < 4)

/-- TICK (R206, R208): opcode 0x30, class G, form M2. Each selected channel takes one tick, an unselected one keeps its
state. The data word holds PULSE, DONE and DEFECT of each selected channel, 0 for the others, and a pulse on STEP[m] is
emitted exactly with PULSEm. The driver configuration is as before. -/
def Obligations.TickAdvancesSelectedChannels : Prop :=
  WordMeans 0x30 .global .m2 (fun _ imm => .tick (imm.extractLsb' 0 2)) ∧
  ∀ (k : BitVec 2) (s : State), ∃ t d, exec (.tick k) s = .next t ∧ t.out.rsp = some ⟨.ok, d⟩ ∧
    (∀ m, t.ch m = if maskSelects k m then (genTick s.cfg.fTick (s.ch m)).1 else s.ch m) ∧
    (∀ m, t.stepOut m = (s.stepOut m || (maskSelects k m && (genTick s.cfg.fTick (s.ch m)).2.pulse))) ∧
    (d.getLsbD 0 = (k.getLsbD 0 && (genTick s.cfg.fTick s.ch0).2.pulse)) ∧
    (d.getLsbD 1 = (k.getLsbD 1 && (genTick s.cfg.fTick s.ch1).2.pulse)) ∧
    (d.getLsbD 2 = (k.getLsbD 0 && (genTick s.cfg.fTick s.ch0).2.done)) ∧
    (d.getLsbD 3 = (k.getLsbD 1 && (genTick s.cfg.fTick s.ch1).2.done)) ∧
    (d.getLsbD 4 = (k.getLsbD 0 && (genTick s.cfg.fTick s.ch0).2.defect)) ∧
    (d.getLsbD 5 = (k.getLsbD 1 && (genTick s.cfg.fTick s.ch1).2.defect)) ∧
    d.extractLsb' 6 26 = 0 ∧ t.drv = s.drv ∧ KeepsSurroundings s t

/-! ### The profile (`41_pulse_generator.md`) -/

/-- A tick of an Idle channel does nothing (R136). -/
def Obligations.IdleTickDoesNothing : Prop :=
  ∀ (f : Nat) (c : Channel), c.phase = .idle → genTick f c = (c, ⟨false, false, false⟩)

/-- One tick of a busy channel is R137's GenTick on exact natural numbers: speed first in Accelerating, the position
update with its pulse, position first in Decelerating, completion before any transition, deceleration before cruising.
The registers hold the exact values: nothing wraps, although P + U may pass 2^64 (R16, R134). -/
def Obligations.TickFollowsThePseudocode : Prop :=
  ∀ (q : Params) (m : Chan) (c : Channel) (F A Ut u1 p2 rem2 u2 : Nat) (pulse decel : Prop),
    ChannelInv q.fTick (q.invert m) c → c.phase ≠ .idle →
    F = q.fTick → A = c.aAct.toNat → Ut = c.vAct.toNat * F →
    u1 = (if c.phase = .accelerating then min (c.u.toNat + A) Ut else c.u.toNat) →
    (pulse ↔ F * F ≤ c.p.toNat + u1) →
    (pulse → p2 = c.p.toNat + u1 - F * F ∧ rem2 + 1 = c.remain.toNat) →
    (¬ pulse → p2 = c.p.toNat + u1 ∧ rem2 = c.remain.toNat) →
    u2 = (if c.phase = .decelerating then u1 - A else u1) →
    (decel ↔ 0 < A ∧ 2 * A * (F * F) * rem2 ≤ u2 * u2) →
    ∃ c' b, genTick q.fTick c = (c', b) ∧ (b.pulse = true ↔ pulse) ∧
      (pulse → c'.pulseCnt = c.pulseCnt + 1) ∧ (¬ pulse → c'.pulseCnt = c.pulseCnt) ∧
      c'.accel = c.accel ∧ c'.tspeed = c.tspeed ∧ c'.aAct = c.aAct ∧ c'.vAct = c.vAct ∧ c'.dirLog = c.dirLog ∧
      c'.dirPin = c.dirPin ∧ c'.clamped = c.clamped ∧
      (rem2 = 0 → c'.phase = .idle ∧ c'.u = 0 ∧ c'.p = 0 ∧ c'.remain = 0 ∧ b.done = true ∧ b.defect = false ∧
        c'.defect = c.defect) ∧
      (rem2 ≠ 0 → c.phase = .decelerating → u2 = 0 → c'.phase = .idle ∧ c'.u = 0 ∧ c'.p = 0 ∧ c'.remain = 0 ∧
        b.done = true ∧ b.defect = true ∧ c'.defect = true) ∧
      (rem2 ≠ 0 → (c.phase = .decelerating → u2 ≠ 0) →
        c'.u.toNat = u2 ∧ c'.p.toNat = p2 ∧ c'.remain.toNat = rem2 ∧ b.done = false ∧ b.defect = false ∧
        c'.defect = c.defect ∧
        (c.phase = .decelerating → c'.phase = .decelerating) ∧
        (c.phase ≠ .decelerating → decel → c'.phase = .decelerating) ∧
        (c.phase = .accelerating → ¬ decel → u2 = Ut → c'.phase = .cruising) ∧
        (c.phase = .accelerating → ¬ decel → u2 ≠ Ut → c'.phase = .accelerating) ∧
        (c.phase = .cruising → ¬ decel → c'.phase = .cruising))

/-- R148's parts (a) and (e): at most one step period is crossed in a tick, the speed never exceeds the target, and REMAIN
never rises during a move. -/
def Obligations.TickBounds : Prop :=
  ∀ (q : Params) (m : Chan) (c : Channel), ChannelInv q.fTick (q.invert m) c → c.phase ≠ .idle →
    (c.rampUp q.fTick).p.toNat + (c.rampUp q.fTick).u.toNat < 2 * (q.fTick * q.fTick) ∧
    (genTick q.fTick c).1.u.toNat ≤ c.vAct.toNat * q.fTick ∧
    (genTick q.fTick c).1.remain.toNat ≤ c.remain.toNat ∧
    (genTick q.fTick c).1.p.toNat < q.fTick * q.fTick

/-- DONE reports the passage through Stopped, and nothing else ends a move in a tick (R133, R147, R208): the bit is set
exactly when the tick takes a busy channel to Idle. DEFECT implies DONE. -/
def Obligations.DoneMeansTheMoveEnded : Prop :=
  ∀ (q : Params) (m : Chan) (c : Channel), ChannelInv q.fTick (q.invert m) c →
    ((genTick q.fTick c).2.done = true ↔ c.phase ≠ .idle ∧ (genTick q.fTick c).1.phase = .idle) ∧
    ((genTick q.fTick c).2.defect = true → (genTick q.fTick c).2.done = true) ∧
    (genTick q.fTick c).1.phase ≠ .stopped

/-- R131's table of transitions is complete: whenever an event changes a phase, the change, the event and the table's
condition are one of its rows. The conditions speak of the values after the tick: the speed is at the target and
deceleration is not due, deceleration is due (R143), or REMAIN reached 0, so that the tick emitted the last pulse. The
defect row is kept out by R148 d (see `NoDefectEver`). -/
def Obligations.OnlyTheListedPhaseChanges : Prop :=
  ∀ (s t : State) (x : Input) (rest : List Input) (m : Chan), FullInv s → s.inputs = x :: rest →
    (∀ b, x ≠ .cmdByte b) → step s = .next t → (t.ch m).phase ≠ (s.ch m).phase →
    ((s.ch m).phase = .idle ∧ (t.ch m).phase = .accelerating ∧ ∃ n, inputCommand x = some (.move m n) ∧ n ≠ 0) ∨
    ((s.ch m).phase = .accelerating ∧ (t.ch m).phase = .cruising ∧ inputTicks x m ∧
      (t.ch m).u.toNat = (t.ch m).vAct.toNat * s.cfg.fTick ∧ ¬ DecelDue s.cfg.fTick (t.ch m)) ∨
    ((s.ch m).phase = .accelerating ∧ (t.ch m).phase = .decelerating ∧ inputTicks x m ∧
      DecelDue s.cfg.fTick (t.ch m)) ∨
    ((s.ch m).phase = .cruising ∧ (t.ch m).phase = .decelerating ∧ inputTicks x m ∧ DecelDue s.cfg.fTick (t.ch m)) ∨
    ((s.ch m).phase ≠ .idle ∧ (t.ch m).phase = .idle ∧
      ((inputTicks x m ∧ (s.ch m).remain = 1 ∧ t.stepOut m = true) ∨ inputCommand x = some (.stop m) ∨ x = .reset))

/-- No event but reset changes the direction of a channel that is busy (R185). -/
def Obligations.DirectionHeldWhileBusy : Prop :=
  ∀ (s t : State) (x : Input) (rest : List Input) (m : Chan), s.inputs = x :: rest → x ≠ .reset → s.busy m = true →
    step s = .next t → (t.ch m).dirLog = (s.ch m).dirLog ∧ (t.ch m).dirPin = (s.ch m).dirPin

/-- A move that never ends by itself (R156): with A_ACT = 0 or V_ACT = 0 a fresh move emits no pulse in any number of
ticks, stays busy with its REMAIN, and holds U = P = 0. With A_ACT = 0 and V_ACT > 0 it stays Accelerating, with V_ACT = 0
it is Cruising from the first tick on. -/
def Obligations.ZeroProfileNeverEnds : Prop :=
  ∀ (q : Params) (c : Channel) (k : Nat), c.phase = .accelerating → c.u = 0 → c.p = 0 → c.remain ≠ 0 →
    c.aAct = 0 ∨ c.vAct = 0 →
    Channel.pulsesIn q.fTick k c = 0 ∧
    Channel.afterTicks q.fTick k c = { c with phase := if k = 0 ∨ c.vAct ≠ 0 then .accelerating else .cruising }

/-- Exact count and termination (R148 b and c): a busy channel whose latched acceleration and target speed are not 0 ends
its move after finitely many ticks, having emitted exactly REMAIN pulses, with no defect. -/
def Obligations.BusyChannelFinishesExactly : Prop :=
  ∀ (q : Params) (m : Chan) (c : Channel), ChannelInv q.fTick (q.invert m) c → ProfileInv q.fTick c →
    c.phase ≠ .idle → c.aAct ≠ 0 → c.vAct ≠ 0 →
    ∃ k, (Channel.afterTicks q.fTick k c).phase = .idle ∧ Channel.pulsesIn q.fTick k c = c.remain.toNat ∧
      (Channel.afterTicks q.fTick k c).pulseCnt = c.pulseCnt + c.remain ∧
      (Channel.afterTicks q.fTick k c).defect = false

/-- The whole machine does a move (R148, R153, R157): from every state that keeps the invariants, with channel m Idle and
its acceleration and target speed not 0, the word of MOVE m, n and then enough strobes of channel m end with the channel
Idle, PULSECNT raised by exactly |n|, DEFECT 0 and the direction of the sign of n. -/
def Obligations.MoveRunsToCompletion : Prop :=
  ∀ (s : State) (m : Chan) (n : Data), FullInv s → (s.ch m).phase = .idle → (s.ch m).accel ≠ 0 →
    (s.ch m).tspeed ≠ 0 → n.toInt ≠ 0 →
    ∃ k t, Sys2Proof.core.run (k + 1) ((s.withStrobes m k).withCommand (encode (.move m n))) = .next t ∧
      (t.ch m).phase = .idle ∧ (t.ch m).pulseCnt = (s.ch m).pulseCnt + BitVec.ofNat 32 n.toInt.natAbs ∧
      (t.ch m).defect = false ∧ (t.ch m).dirLog = decide (n.toInt < 0) ∧
      (t.ch m).dirPin = (decide (n.toInt < 0) ^^ s.cfg.invert m) ∧ t.inputs = s.inputs

/-- Opposite moves end with opposite direction levels, whatever INVERT_m is (R188): MOVE +n, any ticks, and once the
channel is Idle MOVE -n and any ticks. -/
def Obligations.OppositeMovesOppositePins : Prop :=
  ∀ (s t1 t2 : State) (m : Chan) (n : Data) (k1 k2 : Nat), (s.ch m).phase = .idle → 0 < n.toInt →
    Sys2Proof.core.run (k1 + 1) ((s.withStrobes m k1).withCommand (encode (.move m n))) = .next t1 →
    (t1.ch m).phase = .idle →
    Sys2Proof.core.run (k2 + 1) ((t1.withStrobes m k2).withCommand (encode (.move m (-n)))) = .next t2 →
    t1.dirOut m = s.cfg.invert m ∧ t2.dirOut m = !s.cfg.invert m

/-- Two channels that are given the same operands and the same number of ticks emit identical pulse sequences (R69). In the
same profile state, latched values included, they stay in the same one for every number of ticks, and each tick returns
the same bits. The ticks may come as any sequence of strobes: each channel sees only those that select it, whatever their
order and whatever the other channel's ticks. And MOVEs with the same operands put Idle channels with the same shadow
profile into the same profile state. -/
def Obligations.SameTicksSamePulses : Prop :=
  (∀ (f : Nat) (c d : Channel) (k : Nat), SameProfile c d →
    SameProfile (Channel.afterTicks f k c) (Channel.afterTicks f k d) ∧
    (genTick f (Channel.afterTicks f k c)).2 = (genTick f (Channel.afterTicks f k d)).2 ∧
    Channel.pulsesIn f k c = Channel.pulsesIn f k d ∧
    (Channel.afterTicks f k c).pulseCnt - c.pulseCnt = (Channel.afterTicks f k d).pulseCnt - d.pulseCnt) ∧
  (∀ (s : State) (ks : List (BitVec 2)) (rest : List Input), s.inputs = ks.map .strobe ++ rest →
    ∃ t, Sys2Proof.core.run ks.length s = .next t ∧ t.inputs = rest ∧
      ∀ m, t.ch m = Channel.afterTicks s.cfg.fTick (ks.countP (fun k => maskSelects k m)) (s.ch m)) ∧
  (∀ (s : State) (n : Data), s.ch0.phase = .idle → s.ch1.phase = .idle → s.ch0.accel = s.ch1.accel →
    s.ch0.tspeed = s.ch1.tspeed → n.toInt ≠ 0 → ∃ t0 t1, exec (.move .m0 n) s = .next t0 ∧
      exec (.move .m1 n) t0 = .next t1 ∧ SameProfile t1.ch0 t1.ch1)

/-! ### Invariants (R36, R139, R148) -/

/-- The invariants of R36 hold after reset, for every value of the parameters. -/
def Obligations.ResetHasTheInvariants : Prop :=
  Inv State.reset ∧ ∀ (q : Params) (pending : List Input), Inv (State.resetWith q pending) ∧
    FullInv (State.resetWith q pending)

/-- Every step keeps the invariants of R36: from every state that has them, whatever the inputs. -/
def Obligations.StepKeepsTheInvariants : Prop := ∀ s t : State, Inv s → step s = .next t → Inv t

/-- Every step keeps the derived profile invariants too: Cruising at the target speed (R139), CLAMPED (R135), REMAIN at
most 2^31 (R153), a deceleration that covers the steps left, and no defect (R148 d). -/
def Obligations.StepKeepsTheProfile : Prop := ∀ s t : State, FullInv s → step s = .next t → FullInv t

/-- The zero-speed ending is unreachable (R146, R148 d): from a state that keeps the invariants, no tick of any channel
reports DEFECT, and DEFECT[m] is 0 after every event. -/
def Obligations.NoDefectEver : Prop :=
  ∀ s : State, FullInv s → (∀ m, (genTick s.cfg.fTick (s.ch m)).2.defect = false) ∧
    ∀ t, step s = .next t → ∀ m, (t.ch m).defect = false
end

