-- ==== Sys2Proof/Laws/Encoding.lean ====
section
/-! SUPPORT. The fields of a command word (R81), the opcode table (R85), and the words that reach each result of the
decoder (R86). -/

namespace Sys2Proof

/-! ### The opcode table -/

/-- Every mnemonic is found at its own OPC byte (R85). -/
@[simp] theorem ofOpc_opc (op : Op) : Op.ofOpc op.opc = some op := by cases op <;> decide

/-- A mnemonic that is found has that OPC byte (R85). -/
theorem opc_of_ofOpc {b : Byte} {op : Op} (h : Op.ofOpc b = some op) : op.opc = b := by
  have := List.find?_some h
  simpa using this

/-- The unassigned opcodes (R87). -/
theorem ofOpc_none_iff (b : Byte) :
    Op.ofOpc b = none ↔ (0x08 ≤ b.toNat ∧ b.toNat ≤ 0x0F) ∨ (0x13 ≤ b.toNat ∧ b.toNat ≤ 0x1F) ∨
      (0x21 ≤ b.toNat ∧ b.toNat ≤ 0x2F) ∨ 0x31 ≤ b.toNat := by
  have h : ∀ r : Fin 256, (Op.ofOpc ⟨r⟩ = none ↔ (0x08 ≤ r.val ∧ r.val ≤ 0x0F) ∨ (0x13 ≤ r.val ∧ r.val ≤ 0x1F) ∨
      (0x21 ≤ r.val ∧ r.val ≤ 0x2F) ∨ 0x31 ≤ r.val) := by decide +kernel
  exact h b.toFin

/-! ### The fields of a word -/

section Fields

variable (opc : Byte) (m : BitVec 1) (imm : Data)

@[simp] theorem opcField_word : opcField (opc ++ 0#7 ++ m ++ 0#16 ++ imm) = opc := by
  unfold opcField; ext i hi; simp [BitVec.getElem_extractLsb']; grind

@[simp] theorem rsvField_word : rsvField (opc ++ 0#7 ++ m ++ 0#16 ++ imm) = 0 := by
  unfold rsvField; ext i hi; simp [BitVec.getElem_extractLsb']; grind

@[simp] theorem selrField_word : selrField (opc ++ 0#7 ++ m ++ 0#16 ++ imm) = 0 := by
  unfold selrField; ext i hi; simp [BitVec.getElem_extractLsb']; grind

@[simp] theorem immField_word : immField (opc ++ 0#7 ++ m ++ 0#16 ++ imm) = imm := by
  unfold immField; ext i hi; simp [BitVec.getElem_extractLsb']; grind

@[simp] theorem mField_word : mField (opc ++ 0#7 ++ m ++ 0#16 ++ imm) = m.getLsbD 0 := by
  unfold mField; rw [BitVec.getLsbD_append, BitVec.getLsbD_append, BitVec.getLsbD_append]; simp

@[simp] theorem selField_word : selField (opc ++ 0#7 ++ m ++ 0#16 ++ imm) = 0#7 ++ m := by
  unfold selField; ext i hi; simp [BitVec.getElem_extractLsb']; grind

end Fields

/-- SELR and M are the two parts of SEL (R81). -/
theorem selField_eq (w : Word) : selField w = selrField w ++ BitVec.ofBool (mField w) := by
  apply BitVec.eq_of_getLsbD_eq
  intro i hi
  unfold selField selrField mField
  rw [BitVec.getLsbD_append, BitVec.getLsbD_extractLsb', BitVec.getLsbD_extractLsb', BitVec.getLsbD_ofBool]
  by_cases h : i = 0
  · subst h; simp
  · simp [show ¬ i < 1 by omega, show i - 1 < 7 by omega, show 49 + (i - 1) = 48 + i by omega, hi]

/-- A word is its five fields (R81). -/
theorem word_eq_fields (w : Word) :
    w = opcField w ++ selrField w ++ BitVec.ofBool (mField w) ++ rsvField w ++ immField w := by
  apply BitVec.eq_of_getLsbD_eq
  intro i hi
  unfold opcField selrField mField rsvField immField
  rw [BitVec.getLsbD_append, BitVec.getLsbD_append, BitVec.getLsbD_append, BitVec.getLsbD_append,
    BitVec.getLsbD_extractLsb', BitVec.getLsbD_extractLsb', BitVec.getLsbD_extractLsb', BitVec.getLsbD_extractLsb',
    BitVec.getLsbD_ofBool]
  by_cases h1 : i < 32
  · simp [h1]
  · by_cases h2 : i < 48
    · simp [h1, show i - 32 < 16 by omega, show 32 + (i - 32) = i by omega]
    · by_cases h3 : i < 49
      · have : i = 48 := by omega
        subst this; simp
      · by_cases h4 : i < 56
        · simp [h1, show ¬ i - 32 < 16 by omega, show ¬ i - 32 - 16 < 1 by omega, show i - 32 - 16 - 1 < 7 by omega,
            show 49 + (i - 32 - 16 - 1) = i by omega]
        · simp [h1, show ¬ i - 32 < 16 by omega, show ¬ i - 32 - 16 < 1 by omega,
            show ¬ i - 32 - 16 - 1 < 7 by omega, show 56 + (i - 32 - 16 - 1 - 7) = i by omega,
            show i - 32 - 16 - 1 - 7 < 8 by omega]

/-! ### What the decoder can answer -/

/-- A word decodes to a command exactly when its opcode is assigned and its reserved fields are legal, and then the
command is built from its M and IMM fields (R86). -/
theorem decode_instr_iff (w : Word) (i : Instr) :
    decode w = .instr i ↔ ∃ op, Op.ofOpc (opcField w) = some op ∧ fieldsLegal op.cmdClass op.immForm w ∧
      i = op.build (Chan.ofBit (mField w)) (immField w) := by
  unfold decode fieldsLegal
  cases h : Op.ofOpc (opcField w) with
  | none => simp
  | some op =>
    simp only [Option.some.injEq, exists_eq_left']
    by_cases h1 : rsvField w = 0
    · by_cases h2 : op.cmdClass = .perChannel ∧ selrField w ≠ 0
      · rw [if_neg (not_not.2 h1), if_pos h2]
        exact ⟨(nomatch ·), fun e => absurd (e.1.2.1 h2.1) h2.2⟩
      · by_cases h3 : op.cmdClass = .global ∧ selField w ≠ 0
        · rw [if_neg (not_not.2 h1), if_neg h2, if_pos h3]
          exact ⟨(nomatch ·), fun e => absurd (e.1.2.2.1 h3.1) h3.2⟩
        · have h2' : op.cmdClass = .perChannel → selrField w = 0 := by simpa using h2
          have h3' : op.cmdClass = .global → selField w = 0 := by simpa using h3
          rw [if_neg (not_not.2 h1), if_neg h2, if_neg h3]
          cases h4 : op.immForm.zeroBitsOk (immField w) with
          | false => simp
          | true =>
            simp only [Bool.true_eq_false, if_false, Decoded.instr.injEq]
            exact ⟨fun e => ⟨⟨h1, h2', h3', trivial⟩, e.symm⟩, fun e => e.2.symm⟩
    · rw [if_pos h1]
      simp only [reduceCtorEq, false_iff, not_and]
      exact fun e => absurd e.1 h1

/-- A word is illegal exactly when its opcode is unassigned or its reserved fields are not legal (R86, R87). -/
theorem decode_illegal_iff (w : Word) :
    (∃ why, decode w = .illegal why) ↔ ∀ op, Op.ofOpc (opcField w) = some op →
      ¬ fieldsLegal op.cmdClass op.immForm w := by
  constructor
  · rintro ⟨why, h⟩ op ho hl
    rw [(decode_instr_iff w _).2 ⟨op, ho, hl, rfl⟩] at h
    cases h
  · intro h
    cases hd : decode w with
    | illegal why => exact ⟨why, rfl⟩
    | instr i =>
      obtain ⟨op, ho, hl, -⟩ := (decode_instr_iff w i).1 hd
      exact absurd hl (h op ho)

/-- The mnemonic of a built command (R83, R84). -/
@[simp] theorem build_op (op : Op) (m : Chan) (imm : Data) : (op.build m imm).op = op := by cases op <;> rfl

@[simp] theorem ofBit_bit (m : Chan) : Chan.ofBit m.bit = m := by cases m <;> rfl
@[simp] theorem bit_ofBit (b : Bool) : (Chan.ofBit b).bit = b := by cases b <;> rfl

/-- A command's word by its fields (R91). -/
theorem encode_eq_fieldsWord (i : Instr) : encode i = Machine.fieldsWord i.op.opc i.mBit i.imm := rfl

/-- The M bit of channel 1 is 1 (R83). -/
theorem bit_eq_decide (m : Chan) : m.bit = decide (m = .m1) := by cases m <;> rfl

/-- The fields of a command's word (R81, R91). -/
theorem encode_fields (i : Instr) :
    opcField (encode i) = i.op.opc ∧ rsvField (encode i) = 0 ∧ selrField (encode i) = 0 ∧
      mField (encode i) = i.mBit ∧ immField (encode i) = i.imm ∧ selField (encode i) = 0#7 ++ BitVec.ofBool i.mBit := by
  have e : (BitVec.ofBool i.mBit).getLsbD 0 = i.mBit := by cases i.mBit <;> rfl
  refine ⟨opcField_word .., rsvField_word .., selrField_word .., ?_, immField_word .., selField_word ..⟩
  exact (mField_word ..).trans e

end Sys2Proof
end

