-- ==== Sys2Proof/Laws/State.lean ====
section
/-! SUPPORT. One lemma per field per update of the state, so that no later proof unfolds a record update. -/

namespace Sys2Proof.Machine

open Sys2Proof

variable (s : State) (m : Chan) (c : Channel) (e : Status) (d : Data)

/-! ### Reading and writing a channel -/

@[simp] theorem ch_m0 : s.ch .m0 = s.ch0 := rfl
@[simp] theorem ch_m1 : s.ch .m1 = s.ch1 := rfl
@[simp] theorem otherChan_m0 : otherChan .m0 = .m1 := rfl
@[simp] theorem otherChan_m1 : otherChan .m1 = .m0 := rfl
@[simp] theorem setCh_ch_same : (s.setCh m c).ch m = c := by cases m <;> rfl
@[simp] theorem setCh_ch_other : (s.setCh m c).ch (otherChan m) = s.ch (otherChan m) := by cases m <;> rfl
theorem setCh_ch_of_ne {m n : Chan} (h : n ≠ m) : (s.setCh m c).ch n = s.ch n := by
  cases m <;> cases n <;> first | rfl | exact absurd rfl h
theorem ne_otherChan (n : Chan) (h : n ≠ m) : n = otherChan m := by
  cases m <;> cases n <;> first | rfl | exact absurd rfl h
@[simp] theorem setCh_drv : (s.setCh m c).drv = s.drv := by cases m <;> rfl
@[simp] theorem setCh_cfg : (s.setCh m c).cfg = s.cfg := by cases m <;> rfl
@[simp] theorem setCh_inputs : (s.setCh m c).inputs = s.inputs := by cases m <;> rfl
@[simp] theorem setCh_rx : (s.setCh m c).rx = s.rx := by cases m <;> rfl
@[simp] theorem setCh_out : (s.setCh m c).out = s.out := by cases m <;> rfl
@[simp] theorem setCh_stepOut (n : Chan) : (s.setCh m c).stepOut n = s.stepOut n := by cases m <;> cases n <;> rfl
@[simp] theorem setCh_m0_ch0 : (s.setCh .m0 c).ch0 = c := rfl
@[simp] theorem setCh_m0_ch1 : (s.setCh .m0 c).ch1 = s.ch1 := rfl
@[simp] theorem setCh_m1_ch0 : (s.setCh .m1 c).ch0 = s.ch0 := rfl
@[simp] theorem setCh_m1_ch1 : (s.setCh .m1 c).ch1 = c := rfl
@[simp] theorem setCh_self : s.setCh m (s.ch m) = s := by cases m <;> rfl

/-! ### The response -/

@[simp] theorem respond_drv : (s.respond e d).drv = s.drv := rfl
@[simp] theorem respond_ch0 : (s.respond e d).ch0 = s.ch0 := rfl
@[simp] theorem respond_ch1 : (s.respond e d).ch1 = s.ch1 := rfl
@[simp] theorem respond_cfg : (s.respond e d).cfg = s.cfg := rfl
@[simp] theorem respond_inputs : (s.respond e d).inputs = s.inputs := rfl
@[simp] theorem respond_rx : (s.respond e d).rx = s.rx := rfl
@[simp] theorem respond_rsp : (s.respond e d).out.rsp = some ⟨e, d⟩ := rfl
@[simp] theorem respond_step0 : (s.respond e d).out.step0 = s.out.step0 := rfl
@[simp] theorem respond_step1 : (s.respond e d).out.step1 = s.out.step1 := rfl
@[simp] theorem respond_ch : (s.respond e d).ch m = s.ch m := by cases m <;> rfl
@[simp] theorem respond_busy : (s.respond e d).busy m = s.busy m := by cases m <;> rfl
@[simp] theorem respond_bothIdle : (s.respond e d).bothIdle = s.bothIdle := rfl
@[simp] theorem respond_stepOut : (s.respond e d).stepOut m = s.stepOut m := by cases m <;> rfl
@[simp] theorem raise_eq : s.raise e = s.respond e 0 := rfl

/-! ### Emitting a pulse -/

@[simp] theorem emit_drv : (s.emit m).drv = s.drv := by cases m <;> rfl
@[simp] theorem emit_ch0 : (s.emit m).ch0 = s.ch0 := by cases m <;> rfl
@[simp] theorem emit_ch1 : (s.emit m).ch1 = s.ch1 := by cases m <;> rfl
@[simp] theorem emit_cfg : (s.emit m).cfg = s.cfg := by cases m <;> rfl
@[simp] theorem emit_inputs : (s.emit m).inputs = s.inputs := by cases m <;> rfl
@[simp] theorem emit_rx : (s.emit m).rx = s.rx := by cases m <;> rfl
@[simp] theorem emit_rsp : (s.emit m).out.rsp = s.out.rsp := by cases m <;> rfl
@[simp] theorem emit_ch (n : Chan) : (s.emit m).ch n = s.ch n := by cases m <;> cases n <;> rfl
@[simp] theorem emit_stepOut_same : (s.emit m).stepOut m = true := by cases m <;> rfl
@[simp] theorem emit_stepOut_other : (s.emit m).stepOut (otherChan m) = s.stepOut (otherChan m) := by
  cases m <;> rfl

/-! ### The start of an event -/

@[simp] theorem beginEvent_drv : s.beginEvent.drv = s.drv := rfl
@[simp] theorem beginEvent_ch0 : s.beginEvent.ch0 = s.ch0 := rfl
@[simp] theorem beginEvent_ch1 : s.beginEvent.ch1 = s.ch1 := rfl
@[simp] theorem beginEvent_cfg : s.beginEvent.cfg = s.cfg := rfl
@[simp] theorem beginEvent_inputs : s.beginEvent.inputs = s.inputs := rfl
@[simp] theorem beginEvent_rx : s.beginEvent.rx = s.rx := rfl
@[simp] theorem beginEvent_out : s.beginEvent.out = .none := rfl
@[simp] theorem beginEvent_ch : s.beginEvent.ch m = s.ch m := by cases m <;> rfl
@[simp] theorem beginEvent_busy : s.beginEvent.busy m = s.busy m := by cases m <;> rfl
@[simp] theorem beginEvent_bothIdle : s.beginEvent.bothIdle = s.bothIdle := rfl

/-! ### Channel updates -/

variable (invert backwards : Bool)

@[simp] theorem setDirection_dirLog : (c.setDirection invert backwards).dirLog = backwards := rfl
@[simp] theorem setDirection_dirPin : (c.setDirection invert backwards).dirPin = (backwards ^^ invert) := rfl
@[simp] theorem setDirection_phase : (c.setDirection invert backwards).phase = c.phase := rfl
@[simp] theorem setDirection_accel : (c.setDirection invert backwards).accel = c.accel := rfl
@[simp] theorem setDirection_tspeed : (c.setDirection invert backwards).tspeed = c.tspeed := rfl
@[simp] theorem setDirection_aAct : (c.setDirection invert backwards).aAct = c.aAct := rfl
@[simp] theorem setDirection_vAct : (c.setDirection invert backwards).vAct = c.vAct := rfl
@[simp] theorem setDirection_remain : (c.setDirection invert backwards).remain = c.remain := rfl
@[simp] theorem setDirection_u : (c.setDirection invert backwards).u = c.u := rfl
@[simp] theorem setDirection_p : (c.setDirection invert backwards).p = c.p := rfl
@[simp] theorem setDirection_defect : (c.setDirection invert backwards).defect = c.defect := rfl
@[simp] theorem setDirection_clamped : (c.setDirection invert backwards).clamped = c.clamped := rfl
@[simp] theorem setDirection_pulseCnt : (c.setDirection invert backwards).pulseCnt = c.pulseCnt := rfl

@[simp] theorem clearMove_phase : c.clearMove.phase = .idle := rfl
@[simp] theorem clearMove_u : c.clearMove.u = 0 := rfl
@[simp] theorem clearMove_p : c.clearMove.p = 0 := rfl
@[simp] theorem clearMove_remain : c.clearMove.remain = 0 := rfl
@[simp] theorem clearMove_accel : c.clearMove.accel = c.accel := rfl
@[simp] theorem clearMove_tspeed : c.clearMove.tspeed = c.tspeed := rfl
@[simp] theorem clearMove_aAct : c.clearMove.aAct = c.aAct := rfl
@[simp] theorem clearMove_vAct : c.clearMove.vAct = c.vAct := rfl
@[simp] theorem clearMove_dirLog : c.clearMove.dirLog = c.dirLog := rfl
@[simp] theorem clearMove_dirPin : c.clearMove.dirPin = c.dirPin := rfl
@[simp] theorem clearMove_defect : c.clearMove.defect = c.defect := rfl
@[simp] theorem clearMove_clamped : c.clearMove.clamped = c.clamped := rfl
@[simp] theorem clearMove_pulseCnt : c.clearMove.pulseCnt = c.pulseCnt := rfl
@[simp] theorem clearMove_busy : c.clearMove.busy = false := rfl

/-- Passing through Stopped leaves what leaving the move leaves (R147). -/
@[simp] theorem finish_eq_clearMove : c.finish = c.clearMove := rfl

/-! ### Reset and the parameters -/

theorem fTick_pos (c : Params) : 0 < c.fTick := Nat.succ_pos _
theorem fTick_lt (c : Params) : c.fTick < 2 ^ 32 := by
  have := c.rate.isLt
  simp only [Params.fTick]
  omega
@[simp] theorem invert_m0 (c : Params) : c.invert .m0 = c.invert0 := rfl
@[simp] theorem invert_m1 (c : Params) : c.invert .m1 = c.invert1 := rfl
@[simp] theorem resetWith_cfg (c : Params) (p : List Input) : (State.resetWith c p).cfg = c := rfl
@[simp] theorem resetWith_inputs (c : Params) (p : List Input) : (State.resetWith c p).inputs = p := rfl
@[simp] theorem resetWith_rx (c : Params) (p : List Input) : (State.resetWith c p).rx = [] := rfl
@[simp] theorem resetWith_drv (c : Params) (p : List Input) : (State.resetWith c p).drv = .reset := rfl
@[simp] theorem resetWith_ch (c : Params) (p : List Input) :
    (State.resetWith c p).ch m = .reset (c.invert m) := by cases m <;> rfl

end Sys2Proof.Machine
end

