-- ==== Sys2Proof/Laws/Ops.lean ====
section
/-! SUPPORT. For each shared operation one lemma that says everything it can do. -/

namespace Sys2Proof.Machine

open Sys2Proof

/-! ### The busy tests -/

theorem channel_busy_iff (c : Channel) : c.busy = true ↔ c.phase ≠ .idle := by simp [Channel.busy]

theorem channel_not_busy_iff (c : Channel) : c.busy = false ↔ c.phase = .idle := by simp [Channel.busy]

theorem busy_eq (s : State) (m : Chan) : s.busy m = (s.ch m).busy := rfl

theorem bothIdle_iff (s : State) : s.bothIdle = true ↔ ∀ m, (s.ch m).phase = .idle := by
  constructor
  · intro h m
    cases m <;> simp_all [State.bothIdle, State.busy, Channel.busy]
  · intro h
    have h0 := h .m0
    have h1 := h .m1
    simp_all [State.bothIdle, State.busy, Channel.busy]

theorem bothIdle_of_channels {s t : State} (h : ∀ m, (t.ch m).phase = (s.ch m).phase) : t.bothIdle = s.bothIdle := by
  have h0 := h .m0
  have h1 := h .m1
  simp_all [State.bothIdle, State.busy, Channel.busy]

/-! ### post_event (R116) -/

/-- What post_event can do: apply the pending mode, or nothing. -/
theorem postEvent_cases (s : State) :
    (s.drv.modePend = true ∧ s.bothIdle = true ∧
        s.postEvent = { s with drv := { s.drv with mode := s.drv.modeNext, modePend := false } }) ∨
      ((s.drv.modePend = false ∨ s.bothIdle = false) ∧ s.postEvent = s) := by
  cases hp : s.drv.modePend <;> cases hb : s.bothIdle <;> simp [State.postEvent, hp, hb]

@[simp] theorem postEvent_ch (s : State) (m : Chan) : s.postEvent.ch m = s.ch m := by
  obtain ⟨-, -, h⟩ | ⟨-, h⟩ := postEvent_cases s <;> rw [h]; cases m <;> rfl

@[simp] theorem postEvent_ch0 (s : State) : s.postEvent.ch0 = s.ch0 := postEvent_ch s .m0
@[simp] theorem postEvent_ch1 (s : State) : s.postEvent.ch1 = s.ch1 := postEvent_ch s .m1

@[simp] theorem postEvent_cfg (s : State) : s.postEvent.cfg = s.cfg := by
  obtain ⟨-, -, h⟩ | ⟨-, h⟩ := postEvent_cases s <;> rw [h]

@[simp] theorem postEvent_inputs (s : State) : s.postEvent.inputs = s.inputs := by
  obtain ⟨-, -, h⟩ | ⟨-, h⟩ := postEvent_cases s <;> rw [h]

@[simp] theorem postEvent_rx (s : State) : s.postEvent.rx = s.rx := by
  obtain ⟨-, -, h⟩ | ⟨-, h⟩ := postEvent_cases s <;> rw [h]

@[simp] theorem postEvent_out (s : State) : s.postEvent.out = s.out := by
  obtain ⟨-, -, h⟩ | ⟨-, h⟩ := postEvent_cases s <;> rw [h]

@[simp] theorem postEvent_en (s : State) : s.postEvent.drv.en = s.drv.en := by
  obtain ⟨-, -, h⟩ | ⟨-, h⟩ := postEvent_cases s <;> rw [h]

@[simp] theorem postEvent_spr (s : State) : s.postEvent.drv.spr = s.drv.spr := by
  obtain ⟨-, -, h⟩ | ⟨-, h⟩ := postEvent_cases s <;> rw [h]

@[simp] theorem postEvent_modeNext (s : State) : s.postEvent.drv.modeNext = s.drv.modeNext := by
  obtain ⟨-, -, h⟩ | ⟨-, h⟩ := postEvent_cases s <;> rw [h]

@[simp] theorem postEvent_bothIdle (s : State) : s.postEvent.bothIdle = s.bothIdle :=
  bothIdle_of_channels (fun m => by rw [postEvent_ch])

/-- post_event with no mode pending changes nothing (R209). -/
theorem postEvent_of_not_pending {s : State} (h : s.drv.modePend = false) : s.postEvent = s := by
  simp [State.postEvent, h]

/-- post_event with a busy channel changes nothing (R116). -/
theorem postEvent_of_busy {s : State} (h : s.bothIdle = false) : s.postEvent = s := by
  simp [State.postEvent, h]

/-- Where a pending mode implies a busy channel (R36), post_event changes nothing (R204). -/
theorem postEvent_of_pendBusy {s : State} (h : s.drv.modePend = true → s.bothIdle = false) : s.postEvent = s := by
  cases hp : s.drv.modePend
  · exact postEvent_of_not_pending hp
  · exact postEvent_of_busy (h hp)

/-- A response does not change what post_event does, nor post_event the response (R209). -/
theorem postEvent_respond (s : State) (e : Status) (d : Data) : (s.respond e d).postEvent = s.postEvent.respond e d := by
  unfold State.postEvent
  rw [respond_bothIdle, respond_drv]
  split <;> rfl

@[simp] theorem finishEvent_next (s : State) : finishEvent (.next s) = .next s.postEvent := rfl

/-! ### Selecting a mode and steering -/

/-- What SETMODE with a supported mode can do (R115). -/
theorem selectMode_cases (s : State) (md : StepMode) :
    (s.bothIdle = true ∧ s.selectMode md = { s with drv := { s.drv with mode := md } }) ∨
      (s.bothIdle = false ∧ s.selectMode md = { s with drv := { s.drv with modeNext := md, modePend := true } }) := by
  cases h : s.bothIdle <;> simp [State.selectMode, h]

/-- What DIRFWD and DIRBWD can do (R183, R184). -/
theorem steer_cases (s : State) (m : Chan) (b : Bool) :
    (s.busy m = true ∧ s.steer m b = s.respond .motionAlreadyInProgress 0) ∨
      (s.busy m = false ∧
        s.steer m b = (s.setCh m ((s.ch m).setDirection (s.cfg.invert m) b)).respond .ok 0) := by
  cases h : s.busy m <;> simp [State.steer, h]

/-- The supported mode values are 0 to 4 (R113). -/
theorem ofCode_none_iff (k : Nat) : StepMode.ofCode k = none ↔ 4 < k := by
  match k with
  | 0 | 1 | 2 | 3 | 4 => decide
  | n + 5 => simp [StepMode.ofCode]

theorem ofCode_code (md : StepMode) : StepMode.ofCode md.code.toNat = some md := by cases md <;> rfl

theorem code_of_ofCode {k : Nat} {md : StepMode} (h : StepMode.ofCode k = some md) : md.code.toNat = k := by
  match k with
  | 0 | 1 | 2 | 3 | 4 => cases h; rfl
  | n + 5 => cases h

/-! ### The register space (R30) -/

/-- The numbers that have a register are those of R30. -/
theorem regOfNumber_none_iff (r : Byte) : regOfNumber r = none ↔ ¬ definedNumber r := by
  have h : ∀ r : Fin 256, (regOfNumber ⟨r⟩).isNone =
      !(decide (r.val ≤ 0x03) || (decide (0x10 ≤ r.val) && decide (r.val ≤ 0x1A)) ||
        (decide (0x20 ≤ r.val) && decide (r.val ≤ 0x2A))) := by decide +kernel
  have hr := h r.toFin
  rw [← Option.isNone_iff_eq_none]
  have e : (⟨r.toFin⟩ : Byte) = r := rfl
  rw [e] at hr
  rw [hr]
  have e2 : r.toFin.val = r.toNat := rfl
  rw [e2]
  simp [definedNumber]
  omega

/-- Every register is found at its own number (R29, R30). -/
theorem regOfNumber_regNumber (r : Reg) : regOfNumber (regNumber r) = some r := by
  cases r with
  | chan m r => cases m <;> cases r <;> decide
  | drvcfg | spr | params | ftick => decide

/-! ### Operands -/

/-- Masks: bit m selects channel m (R84). -/
theorem maskSelects_iff (k : BitVec 2) (m : Chan) :
    maskSelects k m = k.getLsbD (match m with | .m0 => 0 | .m1 => 1) := by cases m <;> rfl

@[simp] theorem maskSelects_maskOf (m : Chan) : maskSelects (maskOf m) m = true := by cases m <;> decide
@[simp] theorem maskSelects_maskOf_other (m : Chan) : maskSelects (maskOf m) (otherChan m) = false := by
  cases m <;> decide

/-- |n| of a 32-bit step count is 0 to 2^31, and REMAIN holds it exactly (R12, R153). -/
theorem magnitude_toNat (n : Data) : (magnitude (operandS32 n)).toNat = (operandS32 n).natAbs := by
  have h1 := BitVec.toInt_lt (x := n)
  have h2 := BitVec.le_toInt (x := n)
  simp only [magnitude, operandS32, BitVec.toNat_ofNat]
  apply Nat.mod_eq_of_lt
  omega

theorem operandS32_natAbs_le (n : Data) : (operandS32 n).natAbs ≤ 2 ^ 31 := by
  have h1 := BitVec.toInt_lt (x := n)
  have h2 := BitVec.le_toInt (x := n)
  simp only [operandS32]
  omega

theorem operandS32_eq_zero_iff (n : Data) : operandS32 n = 0 ↔ n = 0 := by
  simp only [operandS32]
  constructor
  · intro h
    apply BitVec.eq_of_toInt_eq
    simpa using h
  · rintro rfl
    rfl

end Sys2Proof.Machine
end

