-- ==== Sys2Proof/Laws/Profile.lean ====
section
/-! SUPPORT. The stages of one tick (R137): what each leaves alone, what each computes, and what a tick can do. -/

namespace Sys2Proof.Machine

open Sys2Proof

section Stages

variable (f : Nat) (c : Channel)

/-! ### Speed first (R138) -/

@[simp] theorem rampUp_phase : (c.rampUp f).phase = c.phase := by unfold Channel.rampUp; split <;> rfl
@[simp] theorem rampUp_accel : (c.rampUp f).accel = c.accel := by unfold Channel.rampUp; split <;> rfl
@[simp] theorem rampUp_tspeed : (c.rampUp f).tspeed = c.tspeed := by unfold Channel.rampUp; split <;> rfl
@[simp] theorem rampUp_aAct : (c.rampUp f).aAct = c.aAct := by unfold Channel.rampUp; split <;> rfl
@[simp] theorem rampUp_vAct : (c.rampUp f).vAct = c.vAct := by unfold Channel.rampUp; split <;> rfl
@[simp] theorem rampUp_remain : (c.rampUp f).remain = c.remain := by unfold Channel.rampUp; split <;> rfl
@[simp] theorem rampUp_p : (c.rampUp f).p = c.p := by unfold Channel.rampUp; split <;> rfl
@[simp] theorem rampUp_dirLog : (c.rampUp f).dirLog = c.dirLog := by unfold Channel.rampUp; split <;> rfl
@[simp] theorem rampUp_dirPin : (c.rampUp f).dirPin = c.dirPin := by unfold Channel.rampUp; split <;> rfl
@[simp] theorem rampUp_defect : (c.rampUp f).defect = c.defect := by unfold Channel.rampUp; split <;> rfl
@[simp] theorem rampUp_clamped : (c.rampUp f).clamped = c.clamped := by unfold Channel.rampUp; split <;> rfl
@[simp] theorem rampUp_pulseCnt : (c.rampUp f).pulseCnt = c.pulseCnt := by unfold Channel.rampUp; split <;> rfl

/-! ### The position update (R141) -/

@[simp] theorem advance_phase : (c.advance f).phase = c.phase := by unfold Channel.advance; split <;> rfl
@[simp] theorem advance_accel : (c.advance f).accel = c.accel := by unfold Channel.advance; split <;> rfl
@[simp] theorem advance_tspeed : (c.advance f).tspeed = c.tspeed := by unfold Channel.advance; split <;> rfl
@[simp] theorem advance_aAct : (c.advance f).aAct = c.aAct := by unfold Channel.advance; split <;> rfl
@[simp] theorem advance_vAct : (c.advance f).vAct = c.vAct := by unfold Channel.advance; split <;> rfl
@[simp] theorem advance_u : (c.advance f).u = c.u := by unfold Channel.advance; split <;> rfl
@[simp] theorem advance_dirLog : (c.advance f).dirLog = c.dirLog := by unfold Channel.advance; split <;> rfl
@[simp] theorem advance_dirPin : (c.advance f).dirPin = c.dirPin := by unfold Channel.advance; split <;> rfl
@[simp] theorem advance_defect : (c.advance f).defect = c.defect := by unfold Channel.advance; split <;> rfl
@[simp] theorem advance_clamped : (c.advance f).clamped = c.clamped := by unfold Channel.advance; split <;> rfl

/-! ### Position first (R140) -/

@[simp] theorem rampDown_phase : (c.rampDown).phase = c.phase := by unfold Channel.rampDown; split <;> rfl
@[simp] theorem rampDown_accel : (c.rampDown).accel = c.accel := by unfold Channel.rampDown; split <;> rfl
@[simp] theorem rampDown_tspeed : (c.rampDown).tspeed = c.tspeed := by unfold Channel.rampDown; split <;> rfl
@[simp] theorem rampDown_aAct : (c.rampDown).aAct = c.aAct := by unfold Channel.rampDown; split <;> rfl
@[simp] theorem rampDown_vAct : (c.rampDown).vAct = c.vAct := by unfold Channel.rampDown; split <;> rfl
@[simp] theorem rampDown_remain : (c.rampDown).remain = c.remain := by unfold Channel.rampDown; split <;> rfl
@[simp] theorem rampDown_p : (c.rampDown).p = c.p := by unfold Channel.rampDown; split <;> rfl
@[simp] theorem rampDown_dirLog : (c.rampDown).dirLog = c.dirLog := by unfold Channel.rampDown; split <;> rfl
@[simp] theorem rampDown_dirPin : (c.rampDown).dirPin = c.dirPin := by unfold Channel.rampDown; split <;> rfl
@[simp] theorem rampDown_defect : (c.rampDown).defect = c.defect := by unfold Channel.rampDown; split <;> rfl
@[simp] theorem rampDown_clamped : (c.rampDown).clamped = c.clamped := by unfold Channel.rampDown; split <;> rfl
@[simp] theorem rampDown_pulseCnt : (c.rampDown).pulseCnt = c.pulseCnt := by unfold Channel.rampDown; split <;> rfl

@[simp] theorem rampUp_target (g : Nat) : (c.rampUp f).target g = c.target g := by simp [Channel.target]
@[simp] theorem advance_target (g : Nat) : (c.advance f).target g = c.target g := by simp [Channel.target]
@[simp] theorem rampDown_target (g : Nat) : c.rampDown.target g = c.target g := by simp [Channel.target]

end Stages

/-- Ut fits the 64 bits of U (R9, R16). -/
theorem target_lt {f : Nat} (hf : f < 2 ^ 32) (c : Channel) : c.target f < 2 ^ 64 := by
  have hv := c.vAct.isLt
  have h : c.vAct.toNat * f ≤ (2 ^ 32 - 1) * (2 ^ 32 - 1) := Nat.mul_le_mul (by omega) (by omega)
  simp only [Channel.target]
  omega

/-- F^2 fits 64 bits. -/
theorem sq_lt {f : Nat} (hf : f < 2 ^ 32) : f * f < 2 ^ 64 := by
  have h : f * f ≤ (2 ^ 32 - 1) * (2 ^ 32 - 1) := Nat.mul_le_mul (by omega) (by omega)
  omega

/-- U after the speed-first stage, exact (R138). -/
theorem rampUp_u_toNat {f : Nat} (hf : f < 2 ^ 32) (c : Channel) :
    (c.rampUp f).u.toNat =
      if c.phase = .accelerating then min (c.u.toNat + c.aAct.toNat) (c.target f) else c.u.toNat := by
  have ht := target_lt hf c
  unfold Channel.rampUp
  split
  · simp only [BitVec.toNat_ofNat]
    exact Nat.mod_eq_of_lt (by omega)
  · rfl

/-- U after the position-first stage, exact (R140). -/
theorem rampDown_u_toNat (c : Channel) :
    c.rampDown.u.toNat = if c.phase = .decelerating then c.u.toNat - c.aAct.toNat else c.u.toNat := by
  have hu := c.u.isLt
  unfold Channel.rampDown
  split
  · simp only [BitVec.toNat_ofNat]
    exact Nat.mod_eq_of_lt (by omega)
  · rfl

theorem crosses_iff (f : Nat) (c : Channel) : c.crosses f = true ↔ f * f ≤ c.p.toNat + c.u.toNat := by
  simp [Channel.crosses]

/-- The position update, exact where P < F^2 and U <= F^2 and a step is left (R141, R148 a). -/
theorem advance_exact {f : Nat} (hf : f < 2 ^ 32) (c : Channel) (hp : c.p.toNat < f * f) (hu : c.u.toNat ≤ f * f)
    (hr : 1 ≤ c.remain.toNat) :
    (c.advance f).p.toNat = c.p.toNat + c.u.toNat - (if c.crosses f then f * f else 0) ∧
      (c.advance f).p.toNat < f * f ∧
      (c.advance f).remain.toNat = c.remain.toNat - (if c.crosses f then 1 else 0) ∧
      (c.advance f).pulseCnt = c.pulseCnt + (if c.crosses f then 1 else 0) := by
  have h64 := sq_lt hf
  have hr2 := c.remain.isLt
  by_cases hc : c.crosses f = true
  · have hge := (crosses_iff f c).1 hc
    have e : (c.p.toNat + c.u.toNat - f * f) % 2 ^ 64 = c.p.toNat + c.u.toNat - f * f :=
      Nat.mod_eq_of_lt (by omega)
    have e1 : (1 : Data).toNat = 1 := rfl
    simp only [Channel.advance, hc, if_true, BitVec.toNat_ofNat, BitVec.toNat_sub, e, e1]
    refine ⟨trivial, by omega, by omega, trivial⟩
  · have hlt : ¬ f * f ≤ c.p.toNat + c.u.toNat := fun h => hc ((crosses_iff f c).2 h)
    have hc' : c.crosses f = false := by simpa using hc
    have e : (c.p.toNat + c.u.toNat) % 2 ^ 64 = c.p.toNat + c.u.toNat := Nat.mod_eq_of_lt (by omega)
    simp [Channel.advance, hc']
    omega

theorem decelNeeded_iff (f : Nat) (c : Channel) :
    c.decelNeeded f = true ↔
      0 < c.aAct.toNat ∧ 2 * c.aAct.toNat * (f * f) * c.remain.toNat ≤ c.u.toNat * c.u.toNat := by
  simp [Channel.decelNeeded]

/-! ### The end of a tick (R142 to R147) -/

/-- What the end of a tick can do. -/
theorem settle_cases (f : Nat) (c : Channel) (pulse : Bool) :
    (c.remain = 0 ∧ c.settle f pulse = (c.clearMove, ⟨pulse, true, false⟩)) ∨
      (c.remain ≠ 0 ∧ (c.phase = .accelerating ∨ c.phase = .cruising) ∧ c.decelNeeded f = true ∧
        c.settle f pulse = ({ c with phase := .decelerating }, ⟨pulse, false, false⟩)) ∨
      (c.remain ≠ 0 ∧ c.phase = .accelerating ∧ c.decelNeeded f = false ∧ c.u.toNat = c.target f ∧
        c.settle f pulse = ({ c with phase := .cruising }, ⟨pulse, false, false⟩)) ∨
      (c.remain ≠ 0 ∧ c.phase = .decelerating ∧ c.u = 0 ∧
        c.settle f pulse = ({ c.clearMove with defect := true }, ⟨pulse, true, true⟩)) ∨
      (c.remain ≠ 0 ∧ (c.phase = .accelerating → c.decelNeeded f = false ∧ c.u.toNat ≠ c.target f) ∧
        (c.phase = .cruising → c.decelNeeded f = false) ∧ (c.phase = .decelerating → c.u ≠ 0) ∧
        c.settle f pulse = (c, ⟨pulse, false, false⟩)) := by
  by_cases hr : c.remain = 0#32
  · simp [Channel.settle, hr]
  · cases hp : c.phase with
    | idle | stopped => simp [Channel.settle, hr, hp]
    | accelerating =>
      cases hd : c.decelNeeded f <;> by_cases hu : c.u.toNat = c.target f <;> simp [Channel.settle, hr, hp, hd, hu]
    | cruising => cases hd : c.decelNeeded f <;> simp [Channel.settle, hr, hp, hd]
    | decelerating => by_cases h0 : c.u = 0#64 <;> simp [Channel.settle, hr, hp, h0]

/-- The pulse bit is passed through. -/
theorem settle_pulse (f : Nat) (c : Channel) (pulse : Bool) : (c.settle f pulse).2.pulse = pulse := by
  rcases settle_cases f c pulse with ⟨-, h⟩ | ⟨-, -, -, h⟩ | ⟨-, -, -, -, h⟩ | ⟨-, -, -, h⟩ | ⟨-, -, -, -, h⟩ <;> rw [h]

/-- What the end of a tick never writes (R147). -/
theorem settle_keeps (f : Nat) (c : Channel) (pulse : Bool) :
    (c.settle f pulse).1.accel = c.accel ∧ (c.settle f pulse).1.tspeed = c.tspeed ∧
      (c.settle f pulse).1.aAct = c.aAct ∧ (c.settle f pulse).1.vAct = c.vAct ∧
      (c.settle f pulse).1.dirLog = c.dirLog ∧ (c.settle f pulse).1.dirPin = c.dirPin ∧
      (c.settle f pulse).1.clamped = c.clamped ∧ (c.settle f pulse).1.pulseCnt = c.pulseCnt := by
  rcases settle_cases f c pulse with ⟨-, h⟩ | ⟨-, -, -, h⟩ | ⟨-, -, -, -, h⟩ | ⟨-, -, -, h⟩ | ⟨-, -, -, -, h⟩ <;>
    rw [h] <;> simp

/-! ### A whole tick -/

theorem genTick_idle {f : Nat} {c : Channel} (h : c.phase = .idle) : genTick f c = (c, .zero) := by
  simp [genTick, h]

theorem genTick_busy {f : Nat} {c : Channel} (h : c.phase ≠ .idle) :
    genTick f c = Channel.settle f ((c.rampUp f).advance f).rampDown ((c.rampUp f).crosses f) := by
  simp [genTick, h]

/-- What a tick of a channel never writes (R32, R150). -/
theorem genTick_keeps (f : Nat) (c : Channel) :
    (genTick f c).1.accel = c.accel ∧ (genTick f c).1.tspeed = c.tspeed ∧ (genTick f c).1.aAct = c.aAct ∧
      (genTick f c).1.vAct = c.vAct ∧ (genTick f c).1.dirLog = c.dirLog ∧ (genTick f c).1.dirPin = c.dirPin ∧
      (genTick f c).1.clamped = c.clamped := by
  by_cases h : c.phase = .idle
  · simp [genTick_idle h]
  · rw [genTick_busy h]
    have k := settle_keeps f ((c.rampUp f).advance f).rampDown ((c.rampUp f).crosses f)
    simp only [rampDown_accel, advance_accel, rampUp_accel, rampDown_tspeed, advance_tspeed, rampUp_tspeed, rampDown_aAct,
      advance_aAct, rampUp_aAct, rampDown_vAct, advance_vAct, rampUp_vAct, rampDown_dirLog, advance_dirLog, rampUp_dirLog,
      rampDown_dirPin, advance_dirPin, rampUp_dirPin, rampDown_clamped, advance_clamped, rampUp_clamped] at k
    exact ⟨k.1, k.2.1, k.2.2.1, k.2.2.2.1, k.2.2.2.2.1, k.2.2.2.2.2.1, k.2.2.2.2.2.2.1⟩

/-- The stages of a busy channel's tick before its end, exact on natural numbers (R137 to R141): U1 is U after speed first,
`x` the channel that the end of the tick sees. -/
theorem stages_exact {f : Nat} (hf : f < 2 ^ 32) {inv : Bool} {c : Channel} (hi : ChannelInv f inv c)
    (hb : c.phase ≠ .idle) :
    let u1 := if c.phase = .accelerating then min (c.u.toNat + c.aAct.toNat) (c.target f) else c.u.toNat
    let x := ((c.rampUp f).advance f).rampDown
    (c.rampUp f).u.toNat = u1 ∧ u1 ≤ c.target f ∧ c.target f ≤ f * f ∧
    ((c.rampUp f).crosses f = true ↔ f * f ≤ c.p.toNat + u1) ∧
    x.p.toNat = c.p.toNat + u1 - (if (c.rampUp f).crosses f then f * f else 0) ∧ x.p.toNat < f * f ∧
    x.remain.toNat = c.remain.toNat - (if (c.rampUp f).crosses f then 1 else 0) ∧
    x.pulseCnt = c.pulseCnt + (if (c.rampUp f).crosses f then 1 else 0) ∧
    x.u.toNat = (if c.phase = .decelerating then u1 - c.aAct.toNat else u1) ∧ x.phase = c.phase := by
  intro u1 x
  obtain ⟨h1, h2, h3⟩ := hi.busyBounds hb
  have hu : (c.rampUp f).u.toNat = u1 := rampUp_u_toNat hf c
  have hT : c.target f ≤ f * f := Nat.mul_le_mul_right f hi.speedCap
  have hu1 : u1 ≤ c.target f := by
    simp only [u1]; split
    · exact Nat.min_le_right _ _
    · exact h2
  have a := advance_exact hf (c.rampUp f) (by simpa using h3) (by rw [hu]; omega) (by simpa using h1)
  rw [rampUp_p, hu, rampUp_remain, rampUp_pulseCnt] at a
  refine ⟨hu, hu1, hT, ?_, ?_, ?_, ?_, ?_, ?_, ?_⟩
  · rw [crosses_iff, rampUp_p, hu]
  · simpa [x] using a.1
  · simpa [x] using a.2.1
  · simpa [x] using a.2.2.1
  · simpa [x] using a.2.2.2
  · simp only [x]; rw [rampDown_u_toNat]; simp [hu]
  · simp [x]

/-! ### Ticks in the machine (R206) -/

section Machine

variable (s : State) (k : BitVec 2) (m n : Chan)

/-- What a tick of channel m does to the machine. -/
theorem tickChan_eq :
    s.tickChan m = if (genTick s.cfg.fTick (s.ch m)).2.pulse then (s.setCh m (genTick s.cfg.fTick (s.ch m)).1).emit m
      else s.setCh m (genTick s.cfg.fTick (s.ch m)).1 := rfl

@[simp] theorem tickChan_drv : (s.tickChan m).drv = s.drv := by rw [tickChan_eq]; split <;> simp
@[simp] theorem tickChan_cfg : (s.tickChan m).cfg = s.cfg := by rw [tickChan_eq]; split <;> simp
@[simp] theorem tickChan_inputs : (s.tickChan m).inputs = s.inputs := by rw [tickChan_eq]; split <;> simp
@[simp] theorem tickChan_rx : (s.tickChan m).rx = s.rx := by rw [tickChan_eq]; split <;> simp
@[simp] theorem tickChan_rsp : (s.tickChan m).out.rsp = s.out.rsp := by rw [tickChan_eq]; split <;> simp
@[simp] theorem tickChan_ch_same : (s.tickChan m).ch m = (genTick s.cfg.fTick (s.ch m)).1 := by
  rw [tickChan_eq]; split <;> simp
@[simp] theorem tickChan_ch_other : (s.tickChan m).ch (otherChan m) = s.ch (otherChan m) := by
  rw [tickChan_eq]; split <;> simp
@[simp] theorem tickChan_stepOut_same :
    (s.tickChan m).stepOut m = (s.stepOut m || (genTick s.cfg.fTick (s.ch m)).2.pulse) := by
  rw [tickChan_eq]
  split <;> rename_i h
  · rw [emit_stepOut_same, h, Bool.or_true]
  · rw [setCh_stepOut, Bool.eq_false_iff.2 h, Bool.or_false]
@[simp] theorem tickChan_stepOut_other : (s.tickChan m).stepOut (otherChan m) = s.stepOut (otherChan m) := by
  rw [tickChan_eq]
  split
  · rw [emit_stepOut_other, setCh_stepOut]
  · rw [setCh_stepOut]

@[simp] theorem tickIf_drv : (s.tickIf k m).drv = s.drv := by unfold State.tickIf; split <;> simp
@[simp] theorem tickIf_cfg : (s.tickIf k m).cfg = s.cfg := by unfold State.tickIf; split <;> simp
@[simp] theorem tickIf_inputs : (s.tickIf k m).inputs = s.inputs := by unfold State.tickIf; split <;> simp
@[simp] theorem tickIf_rx : (s.tickIf k m).rx = s.rx := by unfold State.tickIf; split <;> simp
@[simp] theorem tickIf_rsp : (s.tickIf k m).out.rsp = s.out.rsp := by unfold State.tickIf; split <;> simp

@[simp] theorem tickMask_drv : (s.tickMask k).drv = s.drv := by simp [State.tickMask]
@[simp] theorem tickMask_cfg : (s.tickMask k).cfg = s.cfg := by simp [State.tickMask]
@[simp] theorem tickMask_inputs : (s.tickMask k).inputs = s.inputs := by simp [State.tickMask]
@[simp] theorem tickMask_rx : (s.tickMask k).rx = s.rx := by simp [State.tickMask]
@[simp] theorem tickMask_rsp : (s.tickMask k).out.rsp = s.out.rsp := by simp [State.tickMask]

/-- Channel m after TICK k: ticked once where the mask selects it, else as before (R206). -/
theorem tickMask_ch : (s.tickMask k).ch m = if maskSelects k m then (genTick s.cfg.fTick (s.ch m)).1 else s.ch m := by
  have o0 := tickChan_ch_other s .m0
  have o1 := tickChan_ch_other s .m1
  have o2 := tickChan_ch_other (s.tickChan .m0) .m1
  have s1 := tickChan_ch_same (s.tickChan .m0) .m1
  have s0 := tickChan_ch_same s .m0
  have s2 := tickChan_ch_same s .m1
  simp only [otherChan_m0, otherChan_m1, tickChan_cfg] at o0 o1 o2 s0 s1 s2
  cases m <;> cases h0 : maskSelects k .m0 <;> cases h1 : maskSelects k .m1 <;>
    simp [State.tickMask, State.tickIf, h0, h1, -ch_m0, -ch_m1, o0, o1, o2, s0, s1, s2]

/-- The pulses of TICK k (R206, R208). -/
theorem tickMask_stepOut :
    (s.tickMask k).stepOut m =
      (s.stepOut m || (maskSelects k m && (genTick s.cfg.fTick (s.ch m)).2.pulse)) := by
  have c1 := tickChan_ch_other s .m0
  have o0 := tickChan_stepOut_other s .m0
  have o1 := tickChan_stepOut_other s .m1
  have o2 := tickChan_stepOut_other (s.tickChan .m0) .m1
  have s1 := tickChan_stepOut_same (s.tickChan .m0) .m1
  have s0 := tickChan_stepOut_same s .m0
  have s2 := tickChan_stepOut_same s .m1
  simp only [otherChan_m0, otherChan_m1, tickChan_cfg] at c1 o0 o1 o2 s0 s1 s2
  cases m <;> cases h0 : maskSelects k .m0 <;> cases h1 : maskSelects k .m1 <;>
    simp [State.tickMask, State.tickIf, h0, h1, -ch_m0, -ch_m1, o0, o1, o2, s0, s1, s2, c1]

/-- The TICK response's bits are those of each channel on its own (R206: the order of the channels does not matter). -/
theorem tickWord_eq : s.tickWord k = tickData (s.bitsIf k .m0) (s.bitsIf k .m1) := by
  have o := tickChan_ch_other s .m0
  simp only [otherChan_m0] at o
  have e : (s.tickIf k .m0).bitsIf k .m1 = s.bitsIf k .m1 := by
    unfold State.bitsIf State.tickBits State.tickIf
    split
    · split
      · rw [tickChan_cfg, o]
      · rfl
    · rfl
  rw [State.tickWord, e]

end Machine

end Sys2Proof.Machine
end

