-- ==== Sys2Proof/Laws/Exec.lean ====
section
/-! SUPPORT. For each meaning one lemma that says everything it can answer, and for each event what a step does with it. -/

namespace Sys2Proof.Machine

open Sys2Proof

variable (s : State) (m : Chan)

/-- MOVE (R153): refused, zero length, or started. -/
theorem execMove_cases (n : Data) :
    (s.busy m = true ∧ execMove m n s = .next (s.respond .motionAlreadyInProgress 0)) ∨
      (s.busy m = false ∧ n = 0 ∧ execMove m n s = .next (s.respond .ok 0)) ∨
      (s.busy m = false ∧ n ≠ 0 ∧ execMove m n s =
        .next ((s.setCh m ((s.ch m).startMove s.cfg.fTick (s.cfg.invert m) (operandS32 n))).respond .ok 0)) := by
  have hz := operandS32_eq_zero_iff n
  cases h : s.busy m
  · by_cases hn : n = 0
    · exact .inr (.inl ⟨rfl, hn, by simp only [execMove, h, hz.2 hn]; rfl⟩)
    · exact .inr (.inr ⟨rfl, hn, by simp only [execMove, h, mt hz.1 hn]; rfl⟩)
  · exact .inl ⟨rfl, by simp [execMove, h]⟩

/-- STOP (R154): the channel leaves its move, or nothing but the answer. -/
theorem execStop_cases :
    (s.busy m = true ∧ execStop m s = .next ((s.setCh m (s.ch m).clearMove).respond .ok 0)) ∨
      (s.busy m = false ∧ execStop m s = .next (s.respond .ok 0)) := by
  cases h : s.busy m <;> simp [execStop, h]

/-- SETMODE (R115): refused, or the mode is selected. -/
theorem execSetmode_cases (k : Data) :
    (4 < k.toNat ∧ execSetmode k s = .next (s.respond .invalidConfiguration 0)) ∨
      (k.toNat ≤ 4 ∧ ∃ md : StepMode, md.code.toNat = k.toNat ∧
        execSetmode k s = .next ((s.selectMode md).respond .ok 0)) := by
  cases h : StepMode.ofCode (operandU32 k) with
  | none => exact .inl ⟨(ofCode_none_iff _).1 h, by simp [execSetmode, h]⟩
  | some md =>
    refine .inr ⟨?_, md, code_of_ofCode h, by simp [execSetmode, h]⟩
    have hn : ¬ 4 < operandU32 k := fun hk => by rw [(ofCode_none_iff _).2 hk] at h; cases h
    exact Nat.le_of_not_lt hn

/-- SETSPR (R117): refused, or stored. -/
theorem execSetspr_cases (n : Data) :
    (n = 0 ∧ execSetspr n s = .next (s.respond .invalidConfiguration 0)) ∨
      (n ≠ 0 ∧ execSetspr n s = .next ({ s with drv := { s.drv with spr := n } }.respond .ok 0)) := by
  by_cases h : n = 0
  · exact .inl ⟨h, by subst h; rfl⟩
  · have hn : operandU32 n ≠ 0 := fun e => h (BitVec.eq_of_toNat_eq e)
    exact .inr ⟨h, by simp [execSetspr, hn]⟩

/-- RDREG (R205): a register's content, or ILLEGAL_COMMAND. -/
theorem execRdreg_cases (r : Byte) :
    (definedNumber r ∧ ∃ v, s.regRead r = some v ∧ execRdreg r s = .next (s.respond .ok v)) ∨
      (¬ definedNumber r ∧ s.regRead r = none ∧ execRdreg r s = .next (s.respond .illegalCommand 0)) := by
  cases h : regOfNumber r with
  | none =>
    have hr : s.regRead r = none := by simp [State.regRead, h]
    exact .inr ⟨(regOfNumber_none_iff r).1 h, hr, by simp [execRdreg, hr]⟩
  | some x =>
    have hr : s.regRead r = some (s.readReg x) := by simp [State.regRead, h]
    refine .inl ⟨?_, s.readReg x, hr, by simp [execRdreg, hr]⟩
    by_contra hd
    rw [(regOfNumber_none_iff r).2 hd] at h
    cases h

/-- The exact values that a started move holds (R135, R153). -/
theorem startMove_exact {f : Nat} (hf : f < 2 ^ 32) (invert : Bool) (n : Int) (c : Channel) :
    (c.startMove f invert n).vAct.toNat = min c.tspeed.toNat f ∧ (c.startMove f invert n).phase = .accelerating ∧
      (c.startMove f invert n).aAct = c.accel ∧ (c.startMove f invert n).remain = magnitude n ∧
      (c.startMove f invert n).u = 0 ∧ (c.startMove f invert n).p = 0 ∧
      (c.startMove f invert n).dirLog = decide (n < 0) ∧
      (c.startMove f invert n).dirPin = (decide (n < 0) ^^ invert) ∧
      (c.startMove f invert n).clamped = decide (f < c.tspeed.toNat) ∧
      (c.startMove f invert n).accel = c.accel ∧ (c.startMove f invert n).tspeed = c.tspeed ∧
      (c.startMove f invert n).defect = c.defect ∧ (c.startMove f invert n).pulseCnt = c.pulseCnt := by
  refine ⟨?_, rfl, rfl, rfl, rfl, rfl, rfl, rfl, rfl, rfl, rfl, rfl, rfl⟩
  simp only [Channel.startMove, BitVec.toNat_ofNat]
  exact Nat.mod_eq_of_lt (by omega)

/-- Every meaning answers a next state with a response, and leaves the parameters, the inputs and the transport alone. -/
theorem exec_completes (i : Instr) : ∃ t, exec i s = .next t ∧ t.cfg = s.cfg ∧ t.inputs = s.inputs ∧ t.rx = s.rx ∧
    ∃ r, t.out.rsp = some r := by
  cases i with
  | nop => exact ⟨_, rfl, rfl, rfl, rfl, _, rfl⟩
  | setacc m a => exact ⟨_, rfl, by simp, by simp, by simp, _, rfl⟩
  | setspd m v => exact ⟨_, rfl, by simp, by simp, by simp, _, rfl⟩
  | move m n =>
    rcases execMove_cases s m n with ⟨-, h⟩ | ⟨-, -, h⟩ | ⟨-, -, h⟩ <;>
      exact ⟨_, h, by simp, by simp, by simp, _, rfl⟩
  | stop m =>
    rcases execStop_cases s m with ⟨-, h⟩ | ⟨-, h⟩ <;> exact ⟨_, h, by simp, by simp, by simp, _, rfl⟩
  | dirfwd m =>
    refine ⟨_, rfl, ?_⟩
    rcases steer_cases s m false with ⟨-, h⟩ | ⟨-, h⟩ <;> rw [h] <;> simp
  | dirbwd m =>
    refine ⟨_, rfl, ?_⟩
    rcases steer_cases s m true with ⟨-, h⟩ | ⟨-, h⟩ <;> rw [h] <;> simp
  | busy m => exact ⟨_, rfl, rfl, rfl, rfl, _, rfl⟩
  | enable e => exact ⟨_, rfl, rfl, rfl, rfl, _, rfl⟩
  | setmode k =>
    rcases execSetmode_cases s k with ⟨-, h⟩ | ⟨-, md, -, h⟩
    · exact ⟨_, h, by simp, by simp, by simp, _, rfl⟩
    · refine ⟨_, h, ?_⟩
      rcases selectMode_cases s md with ⟨-, e⟩ | ⟨-, e⟩ <;> rw [e] <;> simp
  | setspr n => rcases execSetspr_cases s n with ⟨-, h⟩ | ⟨-, h⟩ <;> exact ⟨_, h, rfl, rfl, rfl, _, rfl⟩
  | rdreg r =>
    rcases execRdreg_cases s r with ⟨-, v, -, h⟩ | ⟨-, -, h⟩ <;> exact ⟨_, h, rfl, rfl, rfl, _, rfl⟩
  | tick k => exact ⟨_, rfl, by simp, by simp, by simp, _, rfl⟩

/-! ### What a command can do -/

/-- What a command can do to a channel (R32): each case with the command that has it. -/
theorem exec_ch_cases {i : Instr} {s t : State} (h : exec i s = .next t) (m : Chan) :
    t.ch m = s.ch m ∨ (∃ a, i = .setacc m a ∧ t.ch m = { s.ch m with accel := a }) ∨
      (∃ v, i = .setspd m v ∧ t.ch m = { s.ch m with tspeed := v }) ∨
      (∃ n, i = .move m n ∧ s.busy m = false ∧ n ≠ 0 ∧
        t.ch m = (s.ch m).startMove s.cfg.fTick (s.cfg.invert m) (operandS32 n)) ∨
      (i = .stop m ∧ s.busy m = true ∧ t.ch m = (s.ch m).clearMove) ∨
      (∃ b, (i = if b then .dirbwd m else .dirfwd m) ∧ s.busy m = false ∧
        t.ch m = (s.ch m).setDirection (s.cfg.invert m) b) ∨
      (∃ k, i = .tick k ∧ maskSelects k m = true ∧ t.ch m = (genTick s.cfg.fTick (s.ch m)).1) := by
  have other : ∀ n c, n ≠ m → (s.setCh n c).ch m = s.ch m := fun n c hn => setCh_ch_of_ne s c (Ne.symm hn)
  cases i with
  | nop => cases h; exact .inl (by simp)
  | setacc n a =>
    cases h
    by_cases hn : n = m
    · subst hn; exact .inr (.inl ⟨a, rfl, by simp⟩)
    · exact .inl (by simp [other n _ hn])
  | setspd n v =>
    cases h
    by_cases hn : n = m
    · subst hn; exact .inr (.inr (.inl ⟨v, rfl, by simp⟩))
    · exact .inl (by simp [other n _ hn])
  | move n x =>
    rcases execMove_cases s n x with ⟨-, e⟩ | ⟨-, -, e⟩ | ⟨hb, hx, e⟩ <;> cases e.symm.trans h
    · exact .inl (by simp)
    · exact .inl (by simp)
    · by_cases hn : n = m
      · subst hn; exact .inr (.inr (.inr (.inl ⟨x, rfl, hb, hx, by simp⟩)))
      · exact .inl (by simp [other n _ hn])
  | stop n =>
    rcases execStop_cases s n with ⟨hb, e⟩ | ⟨-, e⟩ <;> cases e.symm.trans h
    · by_cases hn : n = m
      · subst hn; exact .inr (.inr (.inr (.inr (.inl ⟨rfl, hb, by simp⟩))))
      · exact .inl (by simp [other n _ hn])
    · exact .inl (by simp)
  | dirfwd n =>
    cases h
    rcases steer_cases s n false with ⟨-, e⟩ | ⟨hb, e⟩ <;> rw [e]
    · exact .inl (by simp)
    · by_cases hn : n = m
      · subst hn; exact .inr (.inr (.inr (.inr (.inr (.inl ⟨false, rfl, hb, by simp⟩)))))
      · exact .inl (by simp [other n _ hn])
  | dirbwd n =>
    cases h
    rcases steer_cases s n true with ⟨-, e⟩ | ⟨hb, e⟩ <;> rw [e]
    · exact .inl (by simp)
    · by_cases hn : n = m
      · subst hn; exact .inr (.inr (.inr (.inr (.inr (.inl ⟨true, rfl, hb, by simp⟩)))))
      · exact .inl (by simp [other n _ hn])
  | busy n => cases h; exact .inl (by simp)
  | enable e => cases h; exact .inl (by cases m <;> rfl)
  | setmode k =>
    rcases execSetmode_cases s k with ⟨-, e⟩ | ⟨-, md, -, e⟩ <;> cases e.symm.trans h
    · exact .inl (by simp)
    · rcases selectMode_cases s md with ⟨-, e⟩ | ⟨-, e⟩ <;> rw [e] <;> exact .inl (by cases m <;> rfl)
  | setspr n =>
    rcases execSetspr_cases s n with ⟨-, e⟩ | ⟨-, e⟩ <;> cases e.symm.trans h <;> exact .inl (by cases m <;> rfl)
  | rdreg r =>
    rcases execRdreg_cases s r with ⟨-, v, -, e⟩ | ⟨-, -, e⟩ <;> cases e.symm.trans h <;> exact .inl (by simp)
  | tick k =>
    cases h
    rw [respond_ch, tickMask_ch]
    cases hk : maskSelects k m
    · exact .inl (by simp)
    · exact .inr (.inr (.inr (.inr (.inr (.inr ⟨k, rfl, hk, by simp⟩)))))

/-- What a command can do to the driver configuration (R32, R110). -/
theorem exec_drv_cases {i : Instr} {s t : State} (h : exec i s = .next t) :
    t.drv = s.drv ∨ (∃ e, i = .enable e ∧ t.drv = { s.drv with en := e }) ∨
      (∃ n, i = .setspr n ∧ n ≠ 0 ∧ t.drv = { s.drv with spr := n }) ∨
      (∃ k md, i = .setmode k ∧ md.code.toNat = k.toNat ∧ s.bothIdle = true ∧ t.drv = { s.drv with mode := md }) ∨
      (∃ k md, i = .setmode k ∧ md.code.toNat = k.toNat ∧ s.bothIdle = false ∧
        t.drv = { s.drv with modeNext := md, modePend := true }) := by
  cases i with
  | nop | setacc | setspd | busy | tick => cases h; exact .inl (by simp)
  | move m n =>
    rcases execMove_cases s m n with ⟨-, e⟩ | ⟨-, -, e⟩ | ⟨-, -, e⟩ <;> cases e.symm.trans h <;> exact .inl (by simp)
  | stop m => rcases execStop_cases s m with ⟨-, e⟩ | ⟨-, e⟩ <;> cases e.symm.trans h <;> exact .inl (by simp)
  | dirfwd m => cases h; rcases steer_cases s m false with ⟨-, e⟩ | ⟨-, e⟩ <;> rw [e] <;> exact .inl (by simp)
  | dirbwd m => cases h; rcases steer_cases s m true with ⟨-, e⟩ | ⟨-, e⟩ <;> rw [e] <;> exact .inl (by simp)
  | enable e => cases h; exact .inr (.inl ⟨e, rfl, rfl⟩)
  | setmode k =>
    rcases execSetmode_cases s k with ⟨-, e⟩ | ⟨-, md, hk, e⟩ <;> cases e.symm.trans h
    · exact .inl (by simp)
    · rcases selectMode_cases s md with ⟨hb, e⟩ | ⟨hb, e⟩ <;> rw [e]
      · exact .inr (.inr (.inr (.inl ⟨k, md, rfl, hk, hb, rfl⟩)))
      · exact .inr (.inr (.inr (.inr ⟨k, md, rfl, hk, hb, rfl⟩)))
  | setspr n =>
    rcases execSetspr_cases s n with ⟨-, e⟩ | ⟨hn, e⟩ <;> cases e.symm.trans h
    · exact .inl rfl
    · exact .inr (.inr (.inl ⟨n, rfl, hn, rfl⟩))
  | rdreg r => rcases execRdreg_cases s r with ⟨-, v, -, e⟩ | ⟨-, -, e⟩ <;> cases e.symm.trans h <;> exact .inl rfl

/-! ### Events -/

theorem runCmd_instr {w : Word} {i : Instr} (h : decode w = .instr i) :
    s.runCmd w = finishEvent (exec i s.beginEvent) := by
  simp [State.runCmd, h]

theorem runCmd_illegal {w : Word} {why : Illegal} (h : decode w = .illegal why) :
    s.runCmd w = .next (s.beginEvent.respond .illegalCommand 0).postEvent := by
  simp [State.runCmd, h]

/-- What a command word can do: run its command and then post_event, or answer ILLEGAL_COMMAND and then post_event. -/
theorem runCmd_cases (w : Word) :
    (∃ i t, decode w = .instr i ∧ exec i s.beginEvent = .next t ∧ s.runCmd w = .next t.postEvent) ∨
      (∃ why, decode w = .illegal why ∧ s.runCmd w = .next (s.beginEvent.respond .illegalCommand 0).postEvent) := by
  cases h : decode w with
  | instr i =>
    obtain ⟨t, ht, -⟩ := exec_completes s.beginEvent i
    exact .inl ⟨i, t, rfl, ht, by rw [runCmd_instr s h, ht, finishEvent_next]⟩
  | illegal why => exact .inr ⟨why, rfl, runCmd_illegal s h⟩

/-- A step takes the first input (R67). -/
theorem step_cons {x : Input} {rest : List Input} (h : s.inputs = x :: rest) :
    step s = { s with inputs := rest }.runInput x := by
  simp [step, State.takeNext, h]

/-- With no input the block waits (R210). -/
theorem step_nil (h : s.inputs = []) : step s = .next s := by
  simp [step, State.takeNext, h]

/-- What a step does with an event that is not a transport byte. -/
theorem step_cases {s t : State} {x : Input} {rest : List Input} (h : s.inputs = x :: rest) (hx : ∀ b, x ≠ .cmdByte b)
    (ht : step s = .next t) :
    (x = .reset ∧ t = State.resetWith s.cfg rest) ∨
      (∃ i u, inputCommand x = some i ∧ exec i { s with inputs := rest, out := .none } = .next u ∧ t = u.postEvent) ∨
      (∃ k, x = .strobe k ∧ t = (({ s with inputs := rest, out := .none } : State).tickMask k).postEvent) ∨
      (inputCommand x = none ∧ (∃ w why, x = .cmd w ∧ decode w = .illegal why) ∧
        t = (({ s with inputs := rest, out := .none } : State).respond .illegalCommand 0).postEvent) := by
  rw [step_cons s h] at ht
  cases x with
  | cmd w =>
    rcases runCmd_cases { s with inputs := rest } w with ⟨i, u, hd, he, e⟩ | ⟨why, hd, e⟩ <;> cases e.symm.trans ht
    · exact .inr (.inl ⟨i, u, by simp [inputCommand, hd, Decoded.toOption], he, rfl⟩)
    · exact .inr (.inr (.inr ⟨by simp [inputCommand, hd, Decoded.toOption], ⟨w, why, rfl, hd⟩, rfl⟩))
  | cmdByte b => exact absurd rfl (hx b)
  | strobe k => cases ht; exact .inr (.inr (.inl ⟨k, rfl, rfl⟩))
  | reset => cases ht; exact .inl ⟨rfl, postEvent_of_not_pending rfl⟩

/-- What a step does with a transport byte (R62): it waits in the partial word, or the word is complete and the step is
that of the command word. -/
theorem step_byte {s t : State} {b : Byte} {rest : List Input} (h : s.inputs = .cmdByte b :: rest)
    (ht : step s = .next t) :
    (s.rx.length < 7 ∧ t = { s with inputs := rest, rx := s.rx ++ [b] }) ∨
      (7 ≤ s.rx.length ∧ step { s with rx := [], inputs := .cmd (wordOfBytes (s.rx ++ [b])) :: rest } = .next t) := by
  rw [step_cons s h] at ht
  by_cases hl : s.rx.length < 7
  · simp only [State.runInput, State.runByte, hl, if_true] at ht
    cases ht
    exact .inl ⟨hl, rfl⟩
  · simp only [State.runInput, State.runByte, hl, if_false] at ht
    rw [step_cons _ rfl]
    exact .inr ⟨Nat.le_of_not_lt hl, ht⟩

/-- What an event other than reset can do to a channel (R32): each case with the event that has it. -/
theorem step_ch_cases {s t : State} {x : Input} {rest : List Input} (h : s.inputs = x :: rest)
    (hx : ∀ b, x ≠ .cmdByte b) (hr : x ≠ .reset) (ht : step s = .next t) (m : Chan) :
    t.ch m = s.ch m ∨ (∃ a, inputCommand x = some (.setacc m a) ∧ t.ch m = { s.ch m with accel := a }) ∨
      (∃ v, inputCommand x = some (.setspd m v) ∧ t.ch m = { s.ch m with tspeed := v }) ∨
      (∃ n, inputCommand x = some (.move m n) ∧ s.busy m = false ∧ n ≠ 0 ∧
        t.ch m = (s.ch m).startMove s.cfg.fTick (s.cfg.invert m) (operandS32 n)) ∨
      (inputCommand x = some (.stop m) ∧ s.busy m = true ∧ t.ch m = (s.ch m).clearMove) ∨
      (∃ b, inputCommand x = some (if b then .dirbwd m else .dirfwd m) ∧ s.busy m = false ∧
        t.ch m = (s.ch m).setDirection (s.cfg.invert m) b) ∨
      (inputTicks x m ∧ t.ch m = (genTick s.cfg.fTick (s.ch m)).1) := by
  have e0 : ({ s with inputs := rest, out := .none } : State).ch m = s.ch m := by cases m <;> rfl
  have eb : ({ s with inputs := rest, out := .none } : State).busy m = s.busy m := by cases m <;> rfl
  rcases step_cases h hx ht with ⟨e, -⟩ | ⟨i, u, hi, he, rfl⟩ | ⟨k, rfl, rfl⟩ | ⟨-, -, rfl⟩
  · exact absurd e hr
  · have c := exec_ch_cases he m
    rw [e0, eb] at c
    rw [postEvent_ch]
    rcases c with c | ⟨a, rfl, c⟩ | ⟨a, rfl, c⟩ | ⟨a, rfl, c⟩ | ⟨rfl, c⟩ | ⟨b, rfl, c⟩ | ⟨k, rfl, hk, c⟩
    · exact .inl c
    · exact .inr (.inl ⟨a, hi, c⟩)
    · exact .inr (.inr (.inl ⟨a, hi, c⟩))
    · exact .inr (.inr (.inr (.inl ⟨a, hi, c⟩)))
    · exact .inr (.inr (.inr (.inr (.inl ⟨hi, c⟩))))
    · exact .inr (.inr (.inr (.inr (.inr (.inl ⟨b, hi, c⟩)))))
    · exact .inr (.inr (.inr (.inr (.inr (.inr ⟨.inr ⟨k, hi, hk⟩, c⟩)))))
  · rw [postEvent_ch, tickMask_ch, e0]
    cases hk : maskSelects k m
    · exact .inl (by simp)
    · exact .inr (.inr (.inr (.inr (.inr (.inr ⟨.inl ⟨k, rfl, hk⟩, by simp⟩)))))
  · rw [postEvent_ch, respond_ch]; exact .inl e0

/-- What an event other than reset can do to the driver configuration (R32): a command's own effect, then post_event. -/
theorem step_drv_cases {s t : State} {x : Input} {rest : List Input} (h : s.inputs = x :: rest)
    (hx : ∀ b, x ≠ .cmdByte b) (hr : x ≠ .reset) (ht : step s = .next t) :
    ∃ u : State, t = u.postEvent ∧ u.bothIdle = t.bothIdle ∧
      (u.drv = s.drv ∨ (∃ e, inputCommand x = some (.enable e) ∧ u.drv = { s.drv with en := e }) ∨
      (∃ n, inputCommand x = some (.setspr n) ∧ n ≠ 0 ∧ u.drv = { s.drv with spr := n }) ∨
      (∃ k md, inputCommand x = some (.setmode k) ∧ md.code.toNat = k.toNat ∧ s.bothIdle = true ∧
        u.drv = { s.drv with mode := md }) ∨
      (∃ k md, inputCommand x = some (.setmode k) ∧ md.code.toNat = k.toNat ∧ s.bothIdle = false ∧
        u.drv = { s.drv with modeNext := md, modePend := true })) := by
  rcases step_cases h hx ht with ⟨e, -⟩ | ⟨i, u, hi, he, rfl⟩ | ⟨k, rfl, rfl⟩ | ⟨-, -, rfl⟩
  · exact absurd e hr
  · refine ⟨u, rfl, by simp, ?_⟩
    have c := exec_drv_cases he
    rw [hi]
    rcases c with c | ⟨e, rfl, c⟩ | ⟨e, rfl, c⟩ | ⟨k, md, rfl, c⟩ | ⟨k, md, rfl, c⟩
    · exact .inl c
    · exact .inr (.inl ⟨e, rfl, c⟩)
    · exact .inr (.inr (.inl ⟨e, rfl, c⟩))
    · exact .inr (.inr (.inr (.inl ⟨k, md, rfl, c⟩)))
    · exact .inr (.inr (.inr (.inr ⟨k, md, rfl, c⟩)))
  · exact ⟨_, rfl, by simp, .inl (by simp)⟩
  · exact ⟨_, rfl, by simp, .inl (by simp)⟩

end Sys2Proof.Machine
end

