-- ==== Sys2Proof/Laws/PerInstr.lean ====
section
/-! SUPPORT. The statement that is made per command: the word of a command selects the row of its mnemonic in the opcode
map as R85 prints it, by that row's mask and match. -/

namespace Sys2Proof.Laws.MatchesRow

open Sys2Proof

/-- The word of a command selects its own row of the opcode map (R85, R91). -/
def Statement (i : Instr) : Prop := ∃ row ∈ opcodeMap, row.op = i.op ∧ encode i &&& row.mask = row.matchWord

/-- A word of five fields under a mask of five fields (R81). -/
theorem fields_and (o1 o2 : Byte) (r1 r2 : BitVec 7) (m1 m2 : BitVec 1) (v1 v2 : BitVec 16) (i1 i2 : Data) :
    (o1 ++ r1 ++ m1 ++ v1 ++ i1) &&& (o2 ++ r2 ++ m2 ++ v2 ++ i2) =
      (o1 &&& o2) ++ (r1 &&& r2) ++ (m1 &&& m2) ++ (v1 &&& v2) ++ (i1 &&& i2) := by
  rw [BitVec.and_append, BitVec.and_append, BitVec.and_append, BitVec.and_append]

/-- How a mask that is written out by its fields selects the word of a command. -/
theorem encode_and (i : Instr) (o : Byte) (r : BitVec 7) (m : BitVec 1) (v : BitVec 16) (x : Data) :
    encode i &&& (o ++ r ++ m ++ v ++ x) =
      (i.op.opc &&& o) ++ (0#7 &&& r) ++ (BitVec.ofBool i.mBit &&& m) ++ (0#16 &&& v) ++ (i.imm &&& x) :=
  fields_and ..

/-- The mask of a class P command with a 32-bit operand: every bit but M and IMM (R85). -/
theorem mask_p32 : (0xFFFEFFFF00000000 : Word) = 0xFF#8 ++ 0x7F#7 ++ 0#1 ++ 0xFFFF#16 ++ 0#32 := by decide

/-- The mask of a class G command with a 32-bit operand: every bit but IMM (R85). -/
theorem mask_g32 : (0xFFFFFFFF00000000 : Word) = 0xFF#8 ++ 0x7F#7 ++ 1#1 ++ 0xFFFF#16 ++ 0#32 := by decide

/-- The mask of RDREG (R85). -/
theorem mask_r8 : (0xFFFFFFFFFFFFFF00 : Word) = 0xFF#8 ++ 0x7F#7 ++ 1#1 ++ 0xFFFF#16 ++ 0xFFFFFF00#32 := by decide

theorem imm_and_zero (x : Data) : x &&& 0#32 = 0#32 := BitVec.and_zero

theorem bit_and_zero (b : BitVec 1) : b &&& 0#1 = 0#1 := BitVec.and_zero

theorem r8_and (r : Byte) : (0#24 ++ r) &&& 0xFFFFFF00#32 = 0#32 := by
  have h : (0xFFFFFF00#32 : Data) = 0xFFFFFF#24 ++ 0#8 := by decide
  rw [h, BitVec.and_append, BitVec.and_zero]
  rfl

theorem nop : Statement .nop := ⟨_, .head _, rfl, by decide⟩

theorem setacc (m : Chan) (a : Data) : Statement (.setacc m a) := by
  refine ⟨⟨.setacc, 0xFFFEFFFF00000000, 0x0100000000000000⟩, by decide, rfl, ?_⟩
  rw [mask_p32, encode_and, imm_and_zero, bit_and_zero]
  simp only [Instr.op, Op.opc]
  decide

theorem setspd (m : Chan) (v : Data) : Statement (.setspd m v) := by
  refine ⟨⟨.setspd, 0xFFFEFFFF00000000, 0x0200000000000000⟩, by decide, rfl, ?_⟩
  rw [mask_p32, encode_and, imm_and_zero, bit_and_zero]
  simp only [Instr.op, Op.opc]
  decide

theorem move (m : Chan) (n : Data) : Statement (.move m n) := by
  refine ⟨⟨.move, 0xFFFEFFFF00000000, 0x0300000000000000⟩, by decide, rfl, ?_⟩
  rw [mask_p32, encode_and, imm_and_zero, bit_and_zero]
  simp only [Instr.op, Op.opc]
  decide

theorem stop (m : Chan) : Statement (.stop m) := by
  refine ⟨⟨.stop, 0xFFFEFFFFFFFFFFFF, 0x0400000000000000⟩, by decide, rfl, ?_⟩
  cases m <;> decide

theorem dirfwd (m : Chan) : Statement (.dirfwd m) := by
  refine ⟨⟨.dirfwd, 0xFFFEFFFFFFFFFFFF, 0x0500000000000000⟩, by decide, rfl, ?_⟩
  cases m <;> decide

theorem dirbwd (m : Chan) : Statement (.dirbwd m) := by
  refine ⟨⟨.dirbwd, 0xFFFEFFFFFFFFFFFF, 0x0600000000000000⟩, by decide, rfl, ?_⟩
  cases m <;> decide

theorem busy (m : Chan) : Statement (.busy m) := by
  refine ⟨⟨.busy, 0xFFFEFFFFFFFFFFFF, 0x0700000000000000⟩, by decide, rfl, ?_⟩
  cases m <;> decide

theorem enable (e : Bool) : Statement (.enable e) := by
  refine ⟨⟨.enable, 0xFFFFFFFFFFFFFFFE, 0x1000000000000000⟩, by decide, rfl, ?_⟩
  cases e <;> decide

theorem setmode (k : Data) : Statement (.setmode k) := by
  refine ⟨⟨.setmode, 0xFFFFFFFF00000000, 0x1100000000000000⟩, by decide, rfl, ?_⟩
  rw [mask_g32, encode_and, imm_and_zero]
  simp only [Instr.op, Op.opc, Instr.mBit]
  decide

theorem setspr (s : Data) : Statement (.setspr s) := by
  refine ⟨⟨.setspr, 0xFFFFFFFF00000000, 0x1200000000000000⟩, by decide, rfl, ?_⟩
  rw [mask_g32, encode_and, imm_and_zero]
  simp only [Instr.op, Op.opc, Instr.mBit]
  decide

theorem rdreg (r : Byte) : Statement (.rdreg r) := by
  refine ⟨⟨.rdreg, 0xFFFFFFFFFFFFFF00, 0x2000000000000000⟩, by decide, rfl, ?_⟩
  rw [mask_r8, encode_and]
  simp only [Instr.imm, r8_and, Instr.op, Op.opc, Instr.mBit]
  decide

theorem tick (k : BitVec 2) : Statement (.tick k) := by
  refine ⟨⟨.tick, 0xFFFFFFFFFFFFFFFC, 0x3000000000000000⟩, by decide, rfl, ?_⟩
  revert k
  decide

end Sys2Proof.Laws.MatchesRow
end

