-- ==== Sys2Proof/Tests/Slice0.lean ====
section
/-! SUPPORT. The model's own tests. Expected values come from the spec: the encoding table (R85, R91), the decode vectors
(95 section 2.1), the derived vectors (95 sections 2.2 to 2.6) and the tick traces T1 to T9 (95 section 2.4). The last part
holds one witness for each statement that has hypotheses. -/

namespace Sys2Proof.Tests

-- One theorem after the other: the many small kernel checks need no thread each.
set_option Elab.async false

open Sys2Proof Sys2Proof.Machine

/-! ### Small states -/

/-- Reset with the parameters of 95 section 0. -/
def boot : State := State.resetWith .vectors []

/-- A channel of a trace row: phase, A, V, U, P, REMAIN and PULSECNT, forwards on channel 0. -/
def row (ph : Phase) (a v : Data) (u p : BitVec 64) (rem cnt : Data) : Channel :=
  { Channel.reset false with phase := ph, accel := a, tspeed := v, aAct := a, vAct := v, u := u, p := p, remain := rem,
                             pulseCnt := cnt }

/-- The state with that channel 0 and channel 1 as after reset. -/
def with0 (c : Channel) : State := { boot with ch0 := c }

/-- Whether a step from s answers a next state with a property. -/
def stepsTo (s : State) (good : State → Bool) : Bool :=
  match step s with
  | .next t => good t
  | .fault _ => false
  | .refused _ => false

/-- Whether the word w, delivered in state s, answers (e, d). -/
def answers (s : State) (w : Word) (e : Status) (d : Data) : Bool :=
  stepsTo (s.withCommand w) (fun t => t.out.rsp == some ⟨e, d⟩)

/-- Whether the word w, delivered in state s, leaves the value v in register r. -/
def leaves (s : State) (w : Word) (r : Byte) (v : Data) : Bool :=
  stepsTo (s.withCommand w) (fun t => t.regRead r == some v)

/-! ### WellFormed (R91): each check refuses an operand just outside its range -/

theorem test_u32_refuses_2_32 : (AsmLine.setacc .m0 4294967296).wellFormed = false := by decide
theorem test_u32_refuses_negative : (AsmLine.setspd .m0 (-1)).wellFormed = false := by decide
theorem test_s32_refuses_2_31 : (AsmLine.move .m0 2147483648).wellFormed = false := by decide
theorem test_s32_refuses_below : (AsmLine.move .m0 (-2147483649)).wellFormed = false := by decide
theorem test_b1_refuses_2 : (AsmLine.enable 2).wellFormed = false := by decide
theorem test_setmode_refuses_2_32 : (AsmLine.setmode 4294967296).wellFormed = false := by decide
theorem test_setspr_refuses_negative : (AsmLine.setspr (-1)).wellFormed = false := by decide
theorem test_r8_refuses_256 : (AsmLine.rdreg (.number 256)).wellFormed = false := by decide
theorem test_m2_refuses_4 : (AsmLine.tick 4).wellFormed = false := by decide
theorem test_profile_refuses : (AsmLine.profile .m0 1 4294967296).wellFormed = false := by decide
theorem test_moveboth_refuses : (AsmLine.moveboth 2147483648).wellFormed = false := by decide
theorem test_rdreg64_refuses : (AsmLine.rdreg64 (.number 0) (.number 256)).wellFormed = false := by decide
theorem test_strobe_refuses_4 : (AsmItem.strobe 4).wellFormed = false := by decide
/-- `setmode 7` and `setspr 0` encode legally (R91). -/
theorem test_assembler_accepts : (AsmLine.setmode 7).wellFormed = true ∧ (AsmLine.setspr 0).wellFormed = true := by decide

/-! ### Decoding: words written out from R81, R85 and R91 -/

theorem test_decode_nop : decode 0x0000000000000000 = .instr .nop := by decide
theorem test_decode_setacc : decode 0x01010000FFFFFFFF = .instr (.setacc .m1 0xFFFFFFFF) := by decide
theorem test_decode_setspd : decode 0x0201000000000320 = .instr (.setspd .m1 800) := by decide
theorem test_decode_move : decode 0x03010000FFFFFFFD = .instr (.move .m1 (BitVec.ofInt 32 (-3))) := by decide
theorem test_decode_stop : decode 0x0401000000000000 = .instr (.stop .m1) := by decide
theorem test_decode_dirfwd : decode 0x0500000000000000 = .instr (.dirfwd .m0) := by decide
theorem test_decode_dirbwd : decode 0x0601000000000000 = .instr (.dirbwd .m1) := by decide
theorem test_decode_busy : decode 0x0701000000000000 = .instr (.busy .m1) := by decide
theorem test_decode_enable : decode 0x1000000000000001 = .instr (.enable true) := by decide
theorem test_decode_setmode : decode 0x1100000000000005 = .instr (.setmode 5) := by decide
theorem test_decode_setspr : decode 0x12000000000000C8 = .instr (.setspr 200) := by decide
theorem test_decode_rdreg : decode 0x20000000000000FF = .instr (.rdreg 0xFF) := by decide
theorem test_decode_tick : decode 0x3000000000000002 = .instr (.tick 2) := by decide

/-- The illegal words of 95 section 2.1, each by its name. -/
theorem test_decode_illegal :
    decode 0x0000000000000001 = .illegal .immNonZero ∧ decode 0x0001000000000000 = .illegal .selNonZero ∧
    decode 0x0102000000000001 = .illegal .selrNonZero ∧ decode 0x0100000100000000 = .illegal .reservedNonZero ∧
    decode 0x0400000000000001 = .illegal .immNonZero ∧ decode 0x0800000000000000 = .illegal .unassignedOpcode ∧
    decode 0x1000000000000002 = .illegal .immNonZero ∧ decode 0x1001000000000001 = .illegal .selNonZero ∧
    decode 0x2000000000000100 = .illegal .immNonZero ∧ decode 0x3000000000000004 = .illegal .immNonZero ∧
    decode 0xFFFFFFFFFFFFFFFF = .illegal .unassignedOpcode := by decide

/-- The words of R91's column "encodes", for an operand with every byte different. -/
theorem test_encode :
    encode (.setacc .m1 0x12345678) = 0x0101000012345678 ∧ encode (.move .m0 0x80000000) = 0x0300000080000000 ∧
    encode (.stop .m0) = 0x0400000000000000 ∧ encode (.rdreg 0x2A) = 0x200000000000002A ∧
    encode (.tick 3) = 0x3000000000000003 := by decide

/-- No two rows of the opcode map select one word (R86): they differ in a bit that both masks hold. -/
theorem test_rows_disjoint :
    opcodeMap.Pairwise (fun a b => (a.matchWord ^^^ b.matchWord) &&& a.mask &&& b.mask ≠ 0) := by decide

theorem test_table_word : decodeTableWord 64 0x0701000000000000 = some (.busy .m1) := by decide

/-- The word that withFetchWord places is the first that runs after reset. -/
theorem test_first_instruction : stepsTo (State.reset.withFetchWord 64 0x1000000000000001) (fun t => t.drv.en) = true := by
  rfl

/-! ### The assembler's text (R90 to R94) -/

theorem test_text_move : assembleText "go: MOVE m0, -3200 ; turn".toList = some [0x03000000FFFFF380] := by decide +kernel
theorem test_text_pseudo :
    assembleText "profile m1, 25, 0xA".toList = some [0x0101000000000019, 0x020100000000000A] := by decide +kernel
theorem test_text_hex_digits :
    assembleText "setspr 0xaB".toList = some [0x12000000000000AB] ∧ assembleText "setspr 0x1_0".toList = none := by
  decide +kernel
theorem test_text_sign_and_zeros :
    assembleText "setspr 010".toList = some [0x120000000000000A] ∧ assembleText "setspr +5".toList = none := by
  decide +kernel
theorem test_text_refused : assembleText "tick 4".toList = none := by decide +kernel
theorem test_program_repeats :
    assembleProgram [.line .nop 2, .strobe 3] = some [.cmd 0, .cmd 0, .strobe 3] := by decide

/-! ### The commands: one step each -/

/-- Trace T1 (A = 25, V = 10, N = 3): the rows after ticks 2, 3 and 4. -/
def t1row2 : Channel := row .accelerating 25 10 50 75 3 0
def t1row3 : Channel := row .accelerating 25 10 75 50 2 1
def t1row4 : Channel := row .decelerating 25 10 100 50 1 2

theorem test_nop : answers boot 0x0000000000000000 .ok 0 = true := by decide
theorem test_illegal_word : answers boot 0x0000000000000001 .illegalCommand 0 = true := by decide
theorem test_setacc : leaves boot 0x0100000000000010 0x11 16 = true := by decide
/-- SETACC while busy stores ACCEL0 and leaves A_ACT0 (95 section 2.3). -/
theorem test_setacc_busy :
    (leaves (with0 t1row2) 0x0100000000000032 0x11 50 && leaves (with0 t1row2) 0x0100000000000032 0x13 25) = true := by
  decide
theorem test_setspd : leaves boot 0x0201000000000320 0x22 800 = true := by decide
/-- 95 section 2.3, first row: MSTAT0 = 0xB9, and V_ACT0 clamped to F_TICK. -/
theorem test_move_clamped :
    (leaves (with0 { Channel.reset false with accel := 0xFFFFFFFF, tspeed := 0xFFFFFFFF }) 0x0300000080000000 0x10 0xB9 &&
      leaves (with0 { Channel.reset false with accel := 0xFFFFFFFF, tspeed := 0xFFFFFFFF }) 0x0300000080000000 0x14 10) =
      true := by decide
/-- W4: a MOVE of a busy channel is refused, also by 0. -/
theorem test_move_busy :
    (answers (with0 t1row4) 0x03000000FFFFFFF9 .motionAlreadyInProgress 0 &&
      answers (with0 t1row4) 0x0300000000000000 .motionAlreadyInProgress 0) = true := by decide
/-- W8: STOP leaves PULSECNT and clears REMAIN. -/
theorem test_stop :
    (leaves (with0 t1row4) 0x0400000000000000 0x10 0 && leaves (with0 t1row4) 0x0400000000000000 0x1A 2) = true := by decide
theorem test_stop_idle : answers boot 0x0401000000000000 .ok 0 = true := by decide
theorem test_busy_idle : answers boot 0x0701000000000000 .ok 0 = true := by decide
theorem test_busy_moving : answers (with0 t1row2) 0x0700000000000000 .ok 1 = true := by decide
/-- 95 section 2.5: `dirfwd m1` with DIRLOG1 = 1 gives MSTAT1 = 0x20. -/
theorem test_dirfwd :
    leaves { boot with ch1 := { Channel.reset true with dirLog := true, dirPin := false } } 0x0501000000000000 0x20 0x20 =
      true := by decide
theorem test_dirfwd_busy : answers (with0 t1row2) 0x0500000000000000 .motionAlreadyInProgress 0 = true := by decide
theorem test_dirbwd_m0 : leaves boot 0x0600000000000000 0x10 0x30 = true := by decide
theorem test_dirbwd_m1 : leaves boot 0x0601000000000000 0x20 0x10 = true := by decide
theorem test_enable : leaves boot 0x1000000000000001 0x00 0x00000001 = true := by decide
/-- 95 section 2.2 with EN_ACTIVE_LOW = 0. -/
theorem test_enable_active_high :
    leaves (State.resetWith { Params.vectors with enActiveLow := false } []) 0x1000000000000001 0x00 0x00000801 = true := by
  decide
theorem test_setmode_idle : leaves boot 0x1100000000000004 0x00 0x00000F08 = true := by decide
/-- 95 section 2.2, deferred mode, steps 3 and 4. -/
theorem test_setmode_busy :
    (leaves { with0 t1row2 with drv := { DriverConfig.reset with mode := .quarter } } 0x1100000000000003 0x00 0x00000A74 &&
      answers (with0 t1row2) 0x1100000000000009 .invalidConfiguration 0) = true := by decide
theorem test_setspr : leaves boot 0x12000000FFFFFFFF 0x01 0xFFFFFFFF = true := by decide
theorem test_setspr_zero : answers boot 0x1200000000000000 .invalidConfiguration 0 = true := by decide
/-- The reset values of DRVCFG, PARAMS, FTICK and MSTAT1 (95 section 0). -/
theorem test_rdreg :
    (answers boot 0x2000000000000000 .ok 0x800 && answers boot 0x2000000000000002 .ok 6 &&
      answers boot 0x2000000000000003 .ok 10 && answers boot 0x2000000000000020 .ok 0x20) = true := by decide
theorem test_rdreg_undefined :
    (answers boot 0x20000000000000FF .illegalCommand 0 && answers boot 0x200000000000001B .illegalCommand 0 &&
      answers boot 0x2000000000000004 .illegalCommand 0) = true := by decide
/-- The ticks 3 to 5 of T1, by their DATA and the rows after them. -/
theorem test_tick_t1 :
    (answers (with0 t1row2) 0x3000000000000001 .ok 1 && stepsTo ((with0 t1row2).withCommand 0x3000000000000001)
        (fun t => t.ch0 == t1row3) &&
      answers (with0 t1row3) 0x3000000000000001 .ok 1 && stepsTo ((with0 t1row3).withCommand 0x3000000000000001)
        (fun t => t.ch0 == t1row4) &&
      answers (with0 t1row4) 0x3000000000000001 .ok 5 && stepsTo ((with0 t1row4).withCommand 0x3000000000000001)
        (fun t => t.ch0 == row .idle 25 10 0 0 0 3)) = true := by decide +kernel
/-- T2, tick 8 (position before speed, no pulse), and T9, tick 10 (the trigger fires at equality). -/
theorem test_tick_decel :
    (stepsTo ((with0 (row .decelerating 20 10 80 0 1 5)).withCommand 0x3000000000000001)
        (fun t => t.ch0 == row .decelerating 20 10 60 80 1 5) &&
      stepsTo ((with0 (row .accelerating 10 10 90 50 6 4)).withCommand 0x3000000000000001)
        (fun t => t.ch0 == row .decelerating 10 10 100 50 5 5)) = true := by decide +kernel

/-! ### Events that are no commands -/

/-- 95 section 2.6: a strobe has the effect of `tick 1` with no response. -/
theorem test_strobe :
    stepsTo { with0 t1row4 with inputs := [.strobe 1] }
      (fun t => t.ch0 == row .idle 25 10 0 0 0 3 && t.out == ⟨none, true, false⟩) = true := by decide +kernel
/-- 95 section 2.6: reset in a move. -/
theorem test_reset :
    stepsTo { with0 t1row4 with drv := { DriverConfig.reset with en := true }, rx := [1, 2], inputs := [.reset] }
      (fun t => t == boot) = true := by decide
/-- R61: `enable 1` as transport bytes, bits 7:0 first. -/
theorem test_bytes : bytesOfWord 0x1000000000000001 = [0x01, 0, 0, 0, 0, 0, 0, 0x10] := by decide
theorem test_last_byte :
    stepsTo { boot with rx := [0x01, 0, 0, 0, 0, 0, 0], inputs := [.cmdByte 0x10] } (fun t => t.drv.en && t.rx == []) = true := by
  decide

/-! ### Witnesses: for each statement with hypotheses, concrete values that meet them -/

theorem witness_EncodeOfDecode : decode 0x01010000FFFFFFFF = .instr (.setacc .m1 0xFFFFFFFF) := by decide

theorem witness_IllegalWordsExactly :
    decode 0x3000000000000004 = .illegal .immNonZero ∧
      (boot.withCommand 0x3000000000000004).inputs = .cmd 0x3000000000000004 :: [] := by decide

/-- Each range at both of its ends and one past each, a mode name of the list, and a line that gives words. -/
theorem witness_AssemblerNeverTruncates :
    (((0 : Int) ≤ 0 ∧ (0 : Int) ≤ 2 ^ 32 - 1) ∧ ((0 : Int) ≤ 4294967295 ∧ (4294967295 : Int) ≤ 2 ^ 32 - 1) ∧
      ¬ ((0 : Int) ≤ -1 ∧ (-1 : Int) ≤ 2 ^ 32 - 1) ∧ ¬ ((0 : Int) ≤ 4294967296 ∧ (4294967296 : Int) ≤ 2 ^ 32 - 1)) ∧
    ((-(2 ^ 31) ≤ (-2147483648 : Int) ∧ (-2147483648 : Int) ≤ 2 ^ 31 - 1) ∧
      (-(2 ^ 31) ≤ (2147483647 : Int) ∧ (2147483647 : Int) ≤ 2 ^ 31 - 1) ∧
      ¬ (-(2 ^ 31) ≤ (-2147483649 : Int) ∧ (-2147483649 : Int) ≤ 2 ^ 31 - 1) ∧
      ¬ (-(2 ^ 31) ≤ (2147483648 : Int) ∧ (2147483648 : Int) ≤ 2 ^ 31 - 1)) ∧
    (((0 : Int) ≤ 1 ∧ (1 : Int) ≤ 1) ∧ ¬ ((0 : Int) ≤ 2 ∧ (2 : Int) ≤ 1)) ∧
    (((0 : Int) ≤ 3 ∧ (3 : Int) ≤ 3) ∧ ¬ ((0 : Int) ≤ 4 ∧ (4 : Int) ≤ 3)) ∧ ((255 : Nat) ≤ 255 ∧ 255 < (256 : Nat)) ∧
    ("sixteenth", (4 : Data)) ∈ [("full", (0 : Data)), ("half", 1), ("quarter", 2), ("eighth", 3), ("sixteenth", 4)] ∧
    assembleLine (.move .m1 (-1)) = some [0x03010000FFFFFFFF] := by decide

/-- A step without input. -/
theorem witness_EveryStepCompletes : boot.inputs = [] := by decide

theorem witness_RegisterNamesStandForNumbers :
    ("ftick", (0x03 : Byte)) ∈ [("drvcfg", (0x00 : Byte)), ("spr", 0x01), ("params", 0x02), ("ftick", 0x03)] := by decide

theorem witness_WordBytesLittleEndian : 7 < (bytesOfWord 0x1000000000000001).length := by decide

/-- Both clauses: six bytes and seven bytes are waiting. -/
theorem witness_LastByteDeliversTheCommand :
    ({ boot with rx := [1, 0, 0, 0, 0, 0], inputs := [.cmdByte 0] } : State).rx.length < 7 ∧
      ({ boot with rx := [1, 0, 0, 0, 0, 0, 0], inputs := [.cmdByte 0x10] } : State).rx.length = 7 ∧
      ({ boot with rx := [1, 0, 0, 0, 0, 0, 0], inputs := [.cmdByte 0x10] } : State).inputs = .cmdByte 0x10 :: [] := by decide

theorem witness_StepRunsDecodedCommand :
    (boot.withCommand 0x1000000000000001).inputs = .cmd 0x1000000000000001 :: [] ∧
      decode 0x1000000000000001 = .instr (.enable true) := by decide

/-- A command with a datum, a strobe and a reset, each answering a next state. -/
theorem witness_EveryCommandAnswersOnce :
    stepsTo (boot.withCommand 0x2000000000000003) (fun t => t.out.rsp == some ⟨.ok, 10⟩) = true ∧
      stepsTo { boot with inputs := [.strobe 3] } (fun _ => true) = true ∧
      stepsTo { boot with inputs := [.reset] } (fun _ => true) = true := by decide

theorem witness_ParametersNeverChange : stepsTo (boot.withCommand 0) (fun _ => true) = true := by decide

theorem witness_StrobeIsTickWithoutResponse :
    stepsTo { with0 t1row4 with inputs := [.cmd (encode (.tick 1))] } (fun t => t.out.step0) = true ∧
      stepsTo { with0 t1row4 with inputs := [.strobe 1] } (fun t => t.out.step0) = true := by decide +kernel

theorem witness_ResetEventGivesResetState : ({ with0 t1row4 with inputs := [.reset] } : State).inputs = .reset :: [] := by
  decide

/-- A busy channel 0 with the mode `half` pending. -/
def pending : State := { with0 t1row4 with drv := { DriverConfig.reset with modePend := true, modeNext := .half } }

/-- Both cases of the second clause: the tick that ends the move, and a NOP. And a NOP with no mode pending. -/
theorem witness_PendingModeAppliedWhenBothIdle :
    (boot.drv.modePend = false ∧ stepsTo (boot.withCommand 0) (fun _ => true) = true) ∧ pending.drv.modePend = true ∧
      stepsTo { pending with inputs := [.strobe 1] } (fun t => t.bothIdle) = true ∧
      stepsTo { pending with inputs := [.cmd 0] } (fun t => !t.bothIdle) = true ∧
      inputCommand (.cmd 0) = some .nop ∧ inputCommand (.strobe 1) = none := by decide +kernel

/-- One changed field for each of the writers. -/
theorem witness_OnlyTheListedWritersWrite :
    stepsTo (boot.withCommand 0x1000000000000001) (fun t => t.drv.en != boot.drv.en) = true ∧
    stepsTo (boot.withCommand 0x1200000000000001) (fun t => t.drv.spr != boot.drv.spr) = true ∧
    stepsTo { pending with inputs := [.strobe 1] } (fun t => t.drv.mode != pending.drv.mode && !t.drv.modePend) = true ∧
    stepsTo ((with0 t1row4).withCommand 0x1100000000000001) (fun t => t.drv.modeNext != .full && t.drv.modePend) = true ∧
    stepsTo (boot.withCommand 0x0100000000000010) (fun t => t.ch0.accel != 0) = true ∧
    stepsTo (boot.withCommand 0x0200000000000010) (fun t => t.ch0.tspeed != 0) = true ∧
    stepsTo ((with0 (row .idle 25 30 0 0 0 0)).withCommand 0x03000000FFFFFFFD) (fun t =>
      t.ch0.vAct != 30 && t.ch0.clamped && t.ch0.phase != .idle && t.ch0.remain != 0 && t.ch0.dirLog) = true ∧
    stepsTo { with0 t1row3 with inputs := [.strobe 1] } (fun t => t.ch0.u != 75 && t.ch0.pulseCnt != 1) = true ∧
    stepsTo { with0 t1row2 with inputs := [.strobe 1] } (fun t => t.ch0.p != 75) = true ∧
    stepsTo { with0 (row .decelerating 25 10 25 0 2 0) with inputs := [.strobe 1] } (fun t => t.ch0.defect) = true := by
  decide +kernel

/-- Two states that agree on channel 0 alone. -/
theorem witness_ChannelsAreIndependent :
    ({ with0 t1row2 with inputs := [.strobe 3] } : State).ch .m0 =
        ({ with0 t1row2 with ch1 := t1row4, inputs := [.strobe 3, .reset] } : State).ch .m0 ∧
      ({ with0 t1row2 with inputs := [.strobe 3] } : State).ch .m1 ≠
        ({ with0 t1row2 with ch1 := t1row4, inputs := [.strobe 3, .reset] } : State).ch .m1 ∧
      stepsTo { with0 t1row2 with inputs := [.strobe 3] } (fun t => t.out.step0) = true ∧
      stepsTo { with0 t1row2 with ch1 := t1row4, inputs := [.strobe 3, .reset] } (fun t => t.out.step1) = true := by
  decide +kernel

theorem witness_EnableOnlyReachesItsOutput :
    inputCommand (.cmd 0x2000000000000010) = some (.rdreg 0x10) ∧
      stepsTo ((with0 t1row2).withCommand 0x2000000000000010) (fun t => t.out.rsp == some ⟨.ok, 0x09⟩) = true := by decide

/-- DIRBWD twice in a row, and the pending mode's premise. -/
theorem witness_RepeatedCommandChangesNothing :
    (boot.drv.modePend = true → boot.bothIdle = false) ∧ decode 0x0600000000000000 = .instr (.dirbwd .m0) ∧
      stepsTo { boot with inputs := [.cmd 0x0600000000000000, .cmd 0x0600000000000000] }
        (fun t => t.ch0.dirLog && stepsTo t (fun u => u.ch0.dirLog)) = true := by decide

theorem witness_NoTickChangesAQuiescentBlock :
    ({ boot with inputs := [.strobe 3] } : State).quiescent = true ∧
      ({ boot with inputs := [.strobe 3] } : State).inputs = .strobe 3 :: [] := by decide

/-- Both causes of ILLEGAL_COMMAND. -/
theorem witness_IllegalCommandExactly :
    answers boot 0x0800000000000000 .illegalCommand 0 = true ∧ answers boot 0x200000000000002B .illegalCommand 0 = true ∧
      answers boot 0x200000000000002A .ok 0 = true := by decide

/-- Both causes of INVALID_CONFIGURATION, and the values next to them. -/
theorem witness_InvalidConfigurationExactly :
    answers boot 0x1100000000000005 .invalidConfiguration 0 = true ∧
      answers boot 0x1200000000000000 .invalidConfiguration 0 = true ∧ answers boot 0x1100000000000004 .ok 0 = true ∧
      answers boot 0x1200000000000001 .ok 0 = true := by decide

/-- The three causes of MOTION_ALREADY_IN_PROGRESS. -/
theorem witness_MotionInProgressExactly :
    answers (with0 t1row2) 0x0300000000000000 .motionAlreadyInProgress 0 = true ∧
      answers (with0 t1row2) 0x0500000000000000 .motionAlreadyInProgress 0 = true ∧
      answers (with0 t1row2) 0x0600000000000000 .motionAlreadyInProgress 0 = true := by decide

/-- An error and a tick, with a mode pending. -/
theorem witness_ErrorsWriteNothing :
    (pending.drv.modePend = true → pending.bothIdle = false) ∧
      answers pending 0x0300000000000007 .motionAlreadyInProgress 0 = true ∧
      decode 0x3000000000000001 = .instr (.tick 1) ∧ answers pending 0x3000000000000001 .ok 5 = true := by decide +kernel

/-- An accepted hazard: SETSPR while busy. -/
theorem witness_AcceptedHazardsRaiseNoError :
    hazards (.setspr 1) (with0 t1row2) = [.setsprWhileBusy] ∧
      (∀ h ∈ hazards (.setspr 1) (with0 t1row2), h.refused = false) ∧ Instr.setspr 1 ≠ .setspr 0 := by decide

theorem witness_ChannelRegistersRead : (0x20 : Byte) = (match Chan.m1 with | .m0 => 0x10 | .m1 => 0x20) := by decide

theorem idle0_inv : ChannelInv Params.vectors.fTick (Params.vectors.invert .m0) (Channel.reset false) :=
  ⟨by decide, by decide, by decide, by decide, by decide⟩
theorem idle1_inv : ChannelInv Params.vectors.fTick (Params.vectors.invert .m1) (Channel.reset true) :=
  ⟨by decide, by decide, by decide, by decide, by decide⟩
theorem idle1_profile : ProfileInv Params.vectors.fTick (Channel.reset true) :=
  ⟨by decide, by decide, by decide, by decide, by decide⟩

/-- A state whose channel 0 keeps the invariants, with the rest as after reset, keeps them. -/
theorem with0_inv (c : Channel) (ins : List Input) (h : ChannelInv Params.vectors.fTick (Params.vectors.invert .m0) c) :
    Inv { with0 c with inputs := ins } := by
  refine ⟨fun m => ?_, nofun, Nat.zero_le 7⟩
  cases m
  · exact h
  · exact idle1_inv

/-- The invariants hold in the state after reset with an input. -/
theorem boot_inv (ins : List Input) : Inv { boot with inputs := ins } := with0_inv (Channel.reset false) ins idle0_inv

/-- A legal and an illegal word of the opcode, a state of `Inv` and the input. -/
theorem witness_NopOnlyAnswers :
    (opcField 0 = 0x00 ∧ fieldsLegal .global .z 0) ∧ (opcField 1 = 0x00 ∧ ¬ fieldsLegal .global .z 1) ∧
      Inv { boot with inputs := [.cmd 0] } ∧ ({ boot with inputs := [.cmd 0] } : State).inputs = .cmd 0 :: [] :=
  ⟨by unfold fieldsLegal; decide, by unfold fieldsLegal; decide, boot_inv _, by decide⟩

theorem witness_SetaccWritesTheShadow :
    (opcField 0x01010000FFFFFFFF = 0x01 ∧ fieldsLegal .perChannel .u32 0x01010000FFFFFFFF) ∧
      opcField 0x0102000000000001 = 0x01 ∧ ¬ fieldsLegal .perChannel .u32 0x0102000000000001 := by
  unfold fieldsLegal; decide

theorem witness_SetspdWritesTheShadow :
    (opcField 0x0201000000000320 = 0x02 ∧ fieldsLegal .perChannel .u32 0x0201000000000320) ∧
      opcField 0x0200000100000000 = 0x02 ∧ ¬ fieldsLegal .perChannel .u32 0x0200000100000000 := by
  unfold fieldsLegal; decide

/-- Each clause: a busy channel, an Idle one with n = 0, and an Idle one with n = -2^31 and n = 1. -/
theorem witness_MoveStartsAProfile :
    (opcField 0x03000000FFFFFFFF = 0x03 ∧ fieldsLegal .perChannel .s32 0x03000000FFFFFFFF) ∧
      (opcField 0x0380000000000000 = 0x03 ∧ ¬ fieldsLegal .perChannel .s32 0x0380000000000000) ∧
      ((with0 t1row4).ch .m0).phase ≠ .idle ∧ ((with0 t1row4).ch .m1).phase = .idle ∧ (0 : Data).toInt = 0 ∧
      (0x80000000 : Data).toInt ≠ 0 ∧ (1 : Data).toInt ≠ 0 := by
  unfold fieldsLegal; decide

/-- A busy and an Idle channel, and a STOP that leaves both Idle with a mode pending. -/
theorem witness_StopHaltsAbruptly :
    (opcField 0x0401000000000000 = 0x04 ∧ fieldsLegal .perChannel .z 0x0401000000000000) ∧
      (opcField 0x0400000000000001 = 0x04 ∧ ¬ fieldsLegal .perChannel .z 0x0400000000000001) ∧
      (pending.ch .m0).phase ≠ .idle ∧ (pending.ch (otherChan .m0)).phase = .idle ∧ pending.drv.modePend = true ∧
      (pending.withCommand (encode (.stop .m0))).inputs = .cmd (encode (.stop .m0)) :: [] := by
  unfold fieldsLegal; decide

theorem witness_BusyReportsThePhase :
    (opcField 0x0701000000000000 = 0x07 ∧ fieldsLegal .perChannel .z 0x0701000000000000) ∧
      opcField 0x0702000000000000 = 0x07 ∧ ¬ fieldsLegal .perChannel .z 0x0702000000000000 := by
  unfold fieldsLegal; decide

theorem witness_DirfwdSetsForwards :
    (opcField 0x0501000000000000 = 0x05 ∧ fieldsLegal .perChannel .z 0x0501000000000000) ∧
      (opcField 0x0500000080000000 = 0x05 ∧ ¬ fieldsLegal .perChannel .z 0x0500000080000000) ∧
      ((with0 t1row4).ch .m0).phase ≠ .idle ∧ ((with0 t1row4).ch .m1).phase = .idle := by
  unfold fieldsLegal; decide

theorem witness_DirbwdSetsBackwards :
    (opcField 0x0600000000000000 = 0x06 ∧ fieldsLegal .perChannel .z 0x0600000000000000) ∧
      (opcField 0x0600800000000000 = 0x06 ∧ ¬ fieldsLegal .perChannel .z 0x0600800000000000) ∧
      ((with0 t1row4).ch .m0).phase ≠ .idle ∧ ((with0 t1row4).ch .m1).phase = .idle := by
  unfold fieldsLegal; decide

theorem witness_EnableDrivesTheEnableLine :
    (opcField 0x1000000000000001 = 0x10 ∧ fieldsLegal .global .b1 0x1000000000000001) ∧
      opcField 0x1000000000000002 = 0x10 ∧ ¬ fieldsLegal .global .b1 0x1000000000000002 := by
  unfold fieldsLegal; decide

/-- The values 4 and 5 next to the bound, with both channels Idle and with one busy. -/
theorem witness_SetmodeAppliesOrDefers :
    (opcField 0x11000000FFFFFFFF = 0x11 ∧ fieldsLegal .global .u32 0x11000000FFFFFFFF) ∧
      (opcField 0x1101000000000000 = 0x11 ∧ ¬ fieldsLegal .global .u32 0x1101000000000000) ∧
      4 < (5 : Data).toNat ∧ (4 : Data).toNat ≤ 4 ∧ boot.bothIdle = true ∧ (with0 t1row2).bothIdle = false := by
  unfold fieldsLegal; decide

theorem witness_SetsprStoresAPositive :
    (opcField 0x12000000000000C8 = 0x12 ∧ fieldsLegal .global .u32 0x12000000000000C8) ∧
      (opcField 0x1280000000000000 = 0x12 ∧ ¬ fieldsLegal .global .u32 0x1280000000000000) ∧ (1 : Data) ≠ 0 := by
  unfold fieldsLegal; decide

theorem witness_RdregReadsARegister_words :
    (opcField 0x20000000000000FF = 0x20 ∧ fieldsLegal .global .r8 0x20000000000000FF) ∧
      (opcField 0x2000000000000100 = 0x20 ∧ ¬ fieldsLegal .global .r8 0x2000000000000100) := by
  unfold fieldsLegal; decide

/-- Defined and undefined numbers where the ranges end, and a read of MSTAT0 in a state that keeps the invariants. -/
theorem witness_RdregReadsARegister :
    (definedNumber 0x03 ∧ ¬ definedNumber 0x04 ∧ ¬ definedNumber 0x0F ∧ definedNumber 0x10) ∧
      (definedNumber 0x1A ∧ ¬ definedNumber 0x1B ∧ ¬ definedNumber 0x1F ∧ definedNumber 0x20) ∧
      definedNumber 0x2A ∧ ¬ definedNumber 0x2B ∧ boot.regRead 0x10 = some 0 ∧ Inv boot := by
  refine ⟨?_, ?_, ?_, ?_, by decide, boot_inv []⟩ <;> unfold definedNumber <;> decide

theorem witness_TickAdvancesSelectedChannels :
    (opcField 0x3000000000000003 = 0x30 ∧ fieldsLegal .global .m2 0x3000000000000003) ∧
      opcField 0x3000000000000004 = 0x30 ∧ ¬ fieldsLegal .global .m2 0x3000000000000004 := by
  unfold fieldsLegal; decide

theorem witness_IdleTickDoesNothing : (Channel.reset true).phase = .idle := by decide

/-! ### Witnesses about a channel in a move -/

/-- The invariants of the channel rows that the witnesses use: T1, a cruising row at the top of every bound, and a row
that no run reaches, which ends at zero speed with steps left. -/
theorem t1row2_inv : ChannelInv Params.vectors.fTick (Params.vectors.invert .m0) t1row2 :=
  ⟨by decide, by decide, by decide, by decide, by decide⟩
theorem t1row3_inv : ChannelInv Params.vectors.fTick (Params.vectors.invert .m0) t1row3 :=
  ⟨by decide, by decide, by decide, by decide, by decide⟩
theorem t1row4_inv : ChannelInv Params.vectors.fTick (Params.vectors.invert .m0) t1row4 :=
  ⟨by decide, by decide, by decide, by decide, by decide⟩
def topRow : Channel := row .cruising 1 10 100 99 0x80000000 0
theorem topRow_inv : ChannelInv Params.vectors.fTick (Params.vectors.invert .m0) topRow :=
  ⟨by decide, by decide, by decide, by decide, by decide⟩
def cruiseRow : Channel := row .cruising 20 10 100 0 3 3
theorem cruiseRow_inv : ChannelInv Params.vectors.fTick (Params.vectors.invert .m0) cruiseRow :=
  ⟨by decide, by decide, by decide, by decide, by decide⟩
def beforeCruise : Channel := row .accelerating 20 10 80 0 4 2
theorem beforeCruise_inv : ChannelInv Params.vectors.fTick (Params.vectors.invert .m0) beforeCruise :=
  ⟨by decide, by decide, by decide, by decide, by decide⟩
def defectRow : Channel := row .decelerating 25 10 25 0 2 0
theorem defectRow_inv : ChannelInv Params.vectors.fTick (Params.vectors.invert .m0) defectRow :=
  ⟨by decide, by decide, by decide, by decide, by decide⟩

/-- The hypotheses of `TickFollowsThePseudocode` for channel 0 with the parameters of 95 section 0. -/
def TickHyps (c : Channel) (A Ut u1 p2 rem2 u2 : Nat) (pulse decel : Prop) : Prop :=
  ChannelInv Params.vectors.fTick (Params.vectors.invert .m0) c ∧ c.phase ≠ .idle ∧ 10 = Params.vectors.fTick ∧
    A = c.aAct.toNat ∧ Ut = c.vAct.toNat * 10 ∧
    u1 = (if c.phase = .accelerating then min (c.u.toNat + A) Ut else c.u.toNat) ∧ (pulse ↔ 10 * 10 ≤ c.p.toNat + u1) ∧
    (pulse → p2 = c.p.toNat + u1 - 10 * 10 ∧ rem2 + 1 = c.remain.toNat) ∧
    (¬ pulse → p2 = c.p.toNat + u1 ∧ rem2 = c.remain.toNat) ∧
    u2 = (if c.phase = .decelerating then u1 - A else u1) ∧ (decel ↔ 0 < A ∧ 2 * A * (10 * 10) * rem2 ≤ u2 * u2)

/-- T1, tick 3: no transition. -/
theorem witness_TickFollowsThePseudocode_stays : TickHyps t1row2 25 100 75 50 2 75 True False :=
  ⟨t1row2_inv, by decide, by decide, by decide, by decide, by decide, by decide, by decide, by decide, by decide, by decide⟩
/-- T1, tick 4: Accelerating to Decelerating. -/
theorem witness_TickFollowsThePseudocode_decel : TickHyps t1row3 25 100 100 50 1 100 True True :=
  ⟨t1row3_inv, by decide, by decide, by decide, by decide, by decide, by decide, by decide, by decide, by decide, by decide⟩
/-- T1, tick 5: completion. -/
theorem witness_TickFollowsThePseudocode_done : TickHyps t1row4 25 100 100 50 0 75 True True :=
  ⟨t1row4_inv, by decide, by decide, by decide, by decide, by decide, by decide, by decide, by decide, by decide, by decide⟩
/-- T2, tick 5: Accelerating to Cruising at U = Ut. -/
theorem witness_TickFollowsThePseudocode_cruise : TickHyps beforeCruise 20 100 100 0 3 100 True False :=
  ⟨beforeCruise_inv, by decide, by decide, by decide, by decide, by decide, by decide, by decide, by decide, by decide,
    by decide⟩
/-- T2, tick 6: Cruising to Decelerating. -/
theorem witness_TickFollowsThePseudocode_cruise_decel : TickHyps cruiseRow 20 100 100 0 2 100 True True :=
  ⟨cruiseRow_inv, by decide, by decide, by decide, by decide, by decide, by decide, by decide, by decide, by decide,
    by decide⟩
/-- The zero-speed ending, in a state that no run reaches (R148 d). -/
theorem witness_TickFollowsThePseudocode_defect : TickHyps defectRow 25 100 25 25 2 0 False False :=
  ⟨defectRow_inv, by decide, by decide, by decide, by decide, by decide, by decide, by decide, by decide, by decide,
    by decide⟩

/-- At the top of every bound: V_ACT = F_TICK, U = Ut, P = F^2 - 1, REMAIN = 2^31. -/
theorem witness_TickBounds :
    ChannelInv Params.vectors.fTick (Params.vectors.invert .m0) topRow ∧ topRow.phase ≠ .idle := ⟨topRow_inv, by decide⟩

/-- A tick that ends the move, one that does not, and one with DEFECT. -/
theorem witness_DoneMeansTheMoveEnded :
    ChannelInv Params.vectors.fTick (Params.vectors.invert .m0) t1row4 ∧
      (genTick Params.vectors.fTick t1row4).2.done = true ∧ (genTick Params.vectors.fTick t1row3).2.done = false ∧
      ChannelInv Params.vectors.fTick (Params.vectors.invert .m0) defectRow ∧
      (genTick Params.vectors.fTick defectRow).2.defect = true :=
  ⟨t1row4_inv, by decide +kernel, by decide +kernel, defectRow_inv, by decide +kernel⟩

/-- The same for both sets of invariants. -/
theorem with0_full (c : Channel) (ins : List Input) (h : ChannelInv Params.vectors.fTick (Params.vectors.invert .m0) c)
    (p : ProfileInv Params.vectors.fTick c) : FullInv { with0 c with inputs := ins } := by
  refine ⟨with0_inv c ins h, fun m => ?_⟩
  cases m
  · exact p
  · exact idle1_profile

theorem t1row4_profile : ProfileInv Params.vectors.fTick t1row4 := ⟨by decide, by decide, by decide, by decide, by decide⟩
theorem t1row3_profile : ProfileInv Params.vectors.fTick t1row3 := ⟨by decide, by decide, by decide, by decide, by decide⟩
theorem cruiseRow_profile : ProfileInv Params.vectors.fTick cruiseRow :=
  ⟨by decide, by decide, by decide, by decide, by decide⟩
theorem beforeCruise_profile : ProfileInv Params.vectors.fTick beforeCruise :=
  ⟨by decide, by decide, by decide, by decide, by decide⟩
/-- Idle with A = 25 and V = 10 set: the start of T1. -/
def armed : Channel := { Channel.reset false with accel := 25, tspeed := 10 }
theorem armed_inv : ChannelInv Params.vectors.fTick (Params.vectors.invert .m0) armed :=
  ⟨by decide, by decide, by decide, by decide, by decide⟩
theorem armed_profile : ProfileInv Params.vectors.fTick armed := ⟨by decide, by decide, by decide, by decide, by decide⟩

/-- Each row of R131's table that a run reaches, each from a state that keeps the invariants. -/
theorem witness_OnlyTheListedPhaseChanges :
    (FullInv { with0 armed with inputs := [.cmd 0x0300000000000003] } ∧
      stepsTo { with0 armed with inputs := [.cmd 0x0300000000000003] } (fun t => t.ch0.phase == .accelerating) = true) ∧
    (FullInv { with0 beforeCruise with inputs := [.strobe 1] } ∧
      stepsTo { with0 beforeCruise with inputs := [.strobe 1] } (fun t => t.ch0.phase == .cruising) = true) ∧
    (FullInv { with0 t1row3 with inputs := [.strobe 1] } ∧
      stepsTo { with0 t1row3 with inputs := [.strobe 1] } (fun t => t.ch0.phase == .decelerating) = true) ∧
    (FullInv { with0 cruiseRow with inputs := [.strobe 1] } ∧
      stepsTo { with0 cruiseRow with inputs := [.strobe 1] } (fun t => t.ch0.phase == .decelerating) = true) ∧
    (FullInv { with0 t1row4 with inputs := [.strobe 1] } ∧
      stepsTo { with0 t1row4 with inputs := [.strobe 1] } (fun t => t.ch0.phase == .idle) = true) ∧
    (FullInv { with0 t1row4 with inputs := [.cmd 0x0400000000000000] } ∧
      stepsTo { with0 t1row4 with inputs := [.cmd 0x0400000000000000] } (fun t => t.ch0.phase == .idle) = true) ∧
    (FullInv { with0 t1row4 with inputs := [.reset] } ∧
      stepsTo { with0 t1row4 with inputs := [.reset] } (fun t => t.ch0.phase == .idle) = true) :=
  ⟨⟨with0_full _ _ armed_inv armed_profile, by decide⟩,
    ⟨with0_full _ _ beforeCruise_inv beforeCruise_profile, by decide +kernel⟩,
    ⟨with0_full _ _ t1row3_inv t1row3_profile, by decide +kernel⟩,
    ⟨with0_full _ _ cruiseRow_inv cruiseRow_profile, by decide +kernel⟩,
    ⟨with0_full _ _ t1row4_inv t1row4_profile, by decide +kernel⟩, ⟨with0_full _ _ t1row4_inv t1row4_profile, by decide⟩,
    ⟨with0_full _ _ t1row4_inv t1row4_profile, by decide⟩⟩

theorem witness_DirectionHeldWhileBusy :
    ({ with0 t1row4 with inputs := [.cmd 0x0600000000000000] } : State).busy .m0 = true ∧
      Input.cmd 0x0600000000000000 ≠ .reset ∧
      stepsTo { with0 t1row4 with inputs := [.cmd 0x0600000000000000] } (fun _ => true) = true := by decide

/-- Both ways to a move that never ends (95 section 2.3, stuck moves). -/
theorem witness_ZeroProfileNeverEnds :
    ((row .accelerating 0 10 0 0 5 0).phase = .accelerating ∧ (row .accelerating 0 10 0 0 5 0).remain ≠ 0 ∧
        (row .accelerating 0 10 0 0 5 0).aAct = 0 ∧ (row .accelerating 0 10 0 0 5 0).vAct ≠ 0) ∧
      (row .accelerating 10 0 0 0 5 0).aAct ≠ 0 ∧ (row .accelerating 10 0 0 0 5 0).vAct = 0 ∧
      (row .accelerating 10 0 0 0 5 0).u = 0 ∧ (row .accelerating 10 0 0 0 5 0).p = 0 := by decide

theorem witness_BusyChannelFinishesExactly :
    ChannelInv Params.vectors.fTick (Params.vectors.invert .m0) t1row3 ∧ ProfileInv Params.vectors.fTick t1row3 ∧
      t1row3.phase ≠ .idle ∧ t1row3.aAct ≠ 0 ∧ t1row3.vAct ≠ 0 :=
  ⟨t1row3_inv, t1row3_profile, by decide, by decide, by decide⟩

theorem witness_MoveRunsToCompletion :
    FullInv { with0 armed with inputs := [] } ∧ ((with0 armed).ch .m0).phase = .idle ∧ ((with0 armed).ch .m0).accel ≠ 0 ∧
      ((with0 armed).ch .m0).tspeed ≠ 0 ∧ (0xFFFFFFFD : Data).toInt ≠ 0 :=
  ⟨with0_full _ _ armed_inv armed_profile, by decide, by decide, by decide, by decide⟩

/-- T7 with F = 1: `move m0, 1` and one tick end a move, and so do `move m0, -1` and one tick. -/
def unitState : State :=
  { State.resetWith { Params.vectors with rate := 0 } [] with ch0 := { Channel.reset false with accel := 1, tspeed := 1 } }

/-- Whether a run answers a next state with a property. -/
def runsTo (n : Nat) (s : State) (good : State → Bool) : Bool :=
  match Sys2Proof.core.run n s with
  | .next t => good t
  | .fault _ => false
  | .refused _ => false

theorem witness_OppositeMovesOppositePins :
    (unitState.ch .m0).phase = .idle ∧ 0 < (1 : Data).toInt ∧
      runsTo 2 ((unitState.withStrobes .m0 1).withCommand (encode (.move .m0 1))) (fun t =>
        (t.ch .m0).phase == .idle &&
          runsTo 2 ((t.withStrobes .m0 1).withCommand (encode (.move .m0 (-1)))) (fun u => u.ch0.dirPin)) = true := by
  decide +kernel

/-- Two channels in one profile state with other directions and pulse counts, strobes that tick them in different orders,
and two Idle channels with the same shadow profile. -/
theorem witness_SameTicksSamePulses :
    SameProfile t1row2 { t1row2 with dirLog := true, pulseCnt := 7 } ∧
      ({ boot with inputs := [.strobe 1, .strobe 3, .strobe 2, .reset] } : State).inputs =
        ([1, 3, 2] : List (BitVec 2)).map .strobe ++ [.reset] ∧
      (let s : State := { with0 armed with ch1 := armed }
       s.ch0.phase = .idle ∧ s.ch1.phase = .idle ∧ s.ch0.accel = s.ch1.accel ∧ s.ch0.tspeed = s.ch1.tspeed) ∧
      (0xFFFFFFFD : Data).toInt ≠ 0 := by
  unfold SameProfile; decide

theorem witness_StepKeepsTheInvariants :
    Inv { with0 t1row4 with inputs := [.strobe 1] } ∧
      stepsTo { with0 t1row4 with inputs := [.strobe 1] } (fun _ => true) = true :=
  ⟨with0_inv _ _ t1row4_inv, by decide +kernel⟩

theorem witness_StepKeepsTheProfile :
    FullInv { with0 t1row3 with inputs := [.strobe 1] } ∧
      stepsTo { with0 t1row3 with inputs := [.strobe 1] } (fun t => t.ch0.phase == .decelerating) = true :=
  ⟨with0_full _ _ t1row3_inv t1row3_profile, by decide +kernel⟩

theorem witness_NoDefectEver :
    FullInv { with0 t1row4 with inputs := [.strobe 1] } ∧
      stepsTo { with0 t1row4 with inputs := [.strobe 1] } (fun _ => true) = true :=
  ⟨with0_full _ _ t1row4_inv t1row4_profile, by decide +kernel⟩

end Sys2Proof.Tests
end

section
/-! Steps and events (R40, R62, R201): every step waits, buffers a transport byte, or runs one event, and what every event
leaves alone. -/

namespace Sys2Proof.Machine

open Sys2Proof

/-! ### The event that a step runs -/

/-- What a step can do: wait, hold a byte of a partial word, or run an event `x`. The event may be the command word that the
eighth byte completes, and then the partial word is empty. -/
theorem step_event_cases {s t : State} (ht : step s = .next t) :
    t = s ∨ (∃ b rest, s.rx.length < 7 ∧ t = { s with inputs := rest, rx := s.rx ++ [b] }) ∨
      ∃ x rest rx, (rx = s.rx ∨ rx = []) ∧ (∀ b, x ≠ .cmdByte b) ∧
        step { s with inputs := x :: rest, rx := rx } = .next t := by
  cases h : s.inputs with
  | nil => exact .inl (by cases (step_nil s h).symm.trans ht; rfl)
  | cons x rest =>
    by_cases hx : ∃ b, x = .cmdByte b
    · obtain ⟨b, rfl⟩ := hx
      rcases step_byte h ht with ⟨hl, e⟩ | ⟨-, e⟩
      · exact .inr (.inl ⟨b, rest, hl, e⟩)
      · exact .inr (.inr ⟨_, rest, [], .inr rfl, by simp, e⟩)
    · refine .inr (.inr ⟨x, rest, s.rx, .inl rfl, by simpa using hx, ?_⟩)
      rw [← h]
      exact ht

/-- A step with a reset at its head leaves the reset state: post_event finds no mode pending (R250). -/
theorem step_reset {s : State} {rest : List Input} (h : s.inputs = .reset :: rest) :
    step s = .next (State.resetWith s.cfg rest) := by
  rw [step_cons s h]
  exact congrArg Host.Outcome.next (postEvent_of_not_pending rfl)

/-- A command's own effect leaves the parameters, the inputs and the transport alone. -/
theorem exec_keepsSurroundings {i : Instr} {s t : State} (h : exec i s = .next t) : KeepsSurroundings s t := by
  obtain ⟨u, hu, hcfg, hinputs, hrx, -⟩ := exec_completes s i
  cases hu.symm.trans h
  exact ⟨hcfg, hinputs, hrx⟩

section Event

variable {s t : State} {x : Input} {rest : List Input}

/-- An event keeps the parameters (R23). -/
theorem event_cfg (h : s.inputs = x :: rest) (hx : ∀ b, x ≠ .cmdByte b) (ht : step s = .next t) : t.cfg = s.cfg := by
  rcases step_cases h hx ht with ⟨-, rfl⟩ | ⟨i, u, -, he, rfl⟩ | ⟨k, -, rfl⟩ | ⟨-, -, rfl⟩
  · rfl
  · rw [postEvent_cfg, (exec_keepsSurroundings he).1]
  · simp
  · simp

/-- An event other than reset keeps the partial word, and reset discards it (R62, R250). -/
theorem event_rx (h : s.inputs = x :: rest) (hx : ∀ b, x ≠ .cmdByte b) (ht : step s = .next t) :
    t.rx = s.rx ∨ t.rx = [] := by
  rcases step_cases h hx ht with ⟨-, rfl⟩ | ⟨i, u, -, he, rfl⟩ | ⟨k, -, rfl⟩ | ⟨-, -, rfl⟩
  · exact .inr rfl
  · obtain ⟨-, -, hrx⟩ := exec_keepsSurroundings he
    rw [postEvent_rx]
    exact .inl hrx
  · exact .inl (by simp)
  · exact .inl (by simp)

end Event

/-- Settles O14: the parameters are kept by waiting, by a byte and by every event. -/
theorem parametersNeverChange : Obligations.ParametersNeverChange := by
  intro s t ht
  rcases step_event_cases ht with rfl | ⟨b, rest, -, rfl⟩ | ⟨x, rest, rx, -, hx, he⟩
  · rfl
  · rfl
  · exact event_cfg (s := { s with inputs := x :: rest, rx := rx }) rfl hx he

end Sys2Proof.Machine
end

section
/-! The invariants of R36: reset has them and every step keeps them. -/

namespace Sys2Proof.Machine

open Sys2Proof

/-! ### The invariants of a channel under its updates -/

section Channel

variable {f : Nat} {invert : Bool} {c : Channel}

theorem channelInv_reset (f : Nat) (invert : Bool) : ChannelInv f invert (.reset invert) where
  notStopped := nofun
  idleClear _ := ⟨rfl, rfl, rfl⟩
  busyBounds hb := absurd rfl hb
  speedCap := Nat.zero_le f
  pinFollows := (Bool.false_xor invert).symm

theorem ChannelInv.setAccel (h : ChannelInv f invert c) (a : Data) : ChannelInv f invert { c with accel := a } :=
  { h with }

theorem ChannelInv.setTspeed (h : ChannelInv f invert c) (v : Data) : ChannelInv f invert { c with tspeed := v } :=
  { h with }

theorem ChannelInv.setDefect (h : ChannelInv f invert c) (b : Bool) : ChannelInv f invert { c with defect := b } :=
  { h with }

theorem ChannelInv.setDirection (h : ChannelInv f invert c) (backwards : Bool) :
    ChannelInv f invert (c.setDirection invert backwards) :=
  { h with pinFollows := rfl }

/-- A busy channel may move to any other phase that is neither Idle nor Stopped. -/
theorem ChannelInv.setPhase (h : ChannelInv f invert c) (hb : c.phase ≠ .idle) {ph : Phase} (hi : ph ≠ .idle)
    (hs : ph ≠ .stopped) : ChannelInv f invert { c with phase := ph } :=
  { h with
    notStopped := hs
    idleClear := fun e => absurd e hi
    busyBounds := fun _ => h.busyBounds hb }

/-- Leaving the move needs none of the bounds of a busy channel (R147, R154). -/
theorem channelInv_clearMove (hv : c.vAct.toNat ≤ f) (hd : c.dirPin = (c.dirLog ^^ invert)) :
    ChannelInv f invert c.clearMove where
  notStopped := nofun
  idleClear _ := ⟨rfl, rfl, rfl⟩
  busyBounds hb := absurd rfl hb
  speedCap := hv
  pinFollows := hd

/-- A started move holds REMAIN = |n| >= 1 and U = P = 0, with V_ACT cut to F_TICK (R135, R153). -/
theorem channelInv_startMove (hf : f < 2 ^ 32) (hpos : 0 < f) {n : Data} (hn : n ≠ 0) (invert : Bool) (c : Channel) :
    ChannelInv f invert (c.startMove f invert (operandS32 n)) := by
  obtain ⟨hv, hph, -, hr, hu, hp, hlog, hpin, -⟩ := startMove_exact hf invert (operandS32 n) c
  have hn0 : operandS32 n ≠ 0 := mt (operandS32_eq_zero_iff n).1 hn
  constructor
  case notStopped => rw [hph]; decide
  case idleClear => rw [hph]; exact nofun
  case busyBounds =>
    intro _
    rw [hr, magnitude_toNat, hu, hp]
    exact ⟨Int.natAbs_pos.2 hn0, Nat.zero_le _, Nat.mul_pos hpos hpos⟩
  case speedCap => rw [hv]; exact Nat.min_le_right _ _
  case pinFollows => rw [hpin, hlog]

/-- Before its end, a tick that leaves a step to go keeps the invariants (R138 to R141). -/
theorem channelInv_stages (hf : f < 2 ^ 32) (h : ChannelInv f invert c) (hb : c.phase ≠ .idle)
    (hr : ((c.rampUp f).advance f).rampDown.remain ≠ 0) :
    ChannelInv f invert ((c.rampUp f).advance f).rampDown := by
  obtain ⟨-, hu1, -, -, -, hp, -, -, hu, hph⟩ := stages_exact hf h hb
  constructor
  case notStopped => rw [hph]; exact h.notStopped
  case idleClear => rw [hph]; exact fun e => absurd e hb
  case busyBounds =>
    intro _
    refine ⟨Nat.pos_of_ne_zero fun e => hr (BitVec.eq_of_toNat_eq e), ?_, hp⟩
    rw [hu, rampDown_target, advance_target, rampUp_target]
    split
    · exact (Nat.sub_le _ _).trans hu1
    · exact hu1
  case speedCap => simpa using h.speedCap
  case pinFollows => simpa using h.pinFollows

/-- A tick keeps the invariants of its channel, whichever way it ends (R36, R137). -/
theorem channelInv_genTick (hf : f < 2 ^ 32) (h : ChannelInv f invert c) : ChannelInv f invert (genTick f c).1 := by
  by_cases hb : c.phase = .idle
  · rw [genTick_idle hb]; exact h
  rw [genTick_busy hb]
  have hclear : ChannelInv f invert ((c.rampUp f).advance f).rampDown.clearMove :=
    channelInv_clearMove (by simpa using h.speedCap) (by simpa using h.pinFollows)
  have hgo := channelInv_stages hf h hb
  have hbusy : ((c.rampUp f).advance f).rampDown.phase ≠ .idle := by simpa using hb
  rcases settle_cases f ((c.rampUp f).advance f).rampDown ((c.rampUp f).crosses f) with
    ⟨-, e⟩ | ⟨hr, -, -, e⟩ | ⟨hr, -, -, -, e⟩ | ⟨-, -, -, e⟩ | ⟨hr, -, -, -, e⟩ <;> rw [e]
  · exact hclear
  · exact (hgo hr).setPhase hbusy nofun nofun
  · exact (hgo hr).setPhase hbusy nofun nofun
  · exact hclear.setDefect true
  · exact hgo hr

end Channel

/-! ### The invariants of the block -/

/-- The block has the invariants after reset. -/
theorem inv_resetWith (q : Params) (pending : List Input) : Inv (State.resetWith q pending) where
  channel m := by rw [resetWith_ch]; exact channelInv_reset _ _
  pendBusy := nofun
  rxPartial := Nat.zero_le 7

/-- post_event leaves no mode pending while both channels are Idle, from every state (R116). -/
theorem postEvent_pendBusy (s : State) (h : s.postEvent.drv.modePend = true) : s.postEvent.bothIdle = false := by
  rcases postEvent_cases s with ⟨-, -, e⟩ | ⟨hnot, e⟩ <;> rw [e] at h ⊢
  · cases h
  · exact hnot.resolve_left (by rw [h]; decide)

section Event

variable {s t : State} {x : Input} {rest : List Input}

/-- After any event a pending mode means a busy channel (R36). -/
theorem event_pendBusy (h : s.inputs = x :: rest) (hx : ∀ b, x ≠ .cmdByte b) (ht : step s = .next t) :
    t.drv.modePend = true → t.bothIdle = false := by
  rcases step_cases h hx ht with ⟨-, rfl⟩ | ⟨i, u, -, -, rfl⟩ | ⟨k, -, rfl⟩ | ⟨-, -, rfl⟩
  · exact nofun
  all_goals exact postEvent_pendBusy _

/-- An event keeps the invariants of each channel, one update of a channel at a time (R32, R36). -/
theorem event_channelInv (h : s.inputs = x :: rest) (hx : ∀ b, x ≠ .cmdByte b) (ht : step s = .next t) {m : Chan}
    (hs : ChannelInv s.cfg.fTick (s.cfg.invert m) (s.ch m)) :
    ChannelInv s.cfg.fTick (s.cfg.invert m) (t.ch m) := by
  by_cases hreset : x = .reset
  · subst hreset
    cases (step_reset h).symm.trans ht
    exact (inv_resetWith s.cfg rest).channel m
  rcases step_ch_cases h hx hreset ht m with
    e | ⟨a, -, e⟩ | ⟨v, -, e⟩ | ⟨n, -, -, hn, e⟩ | ⟨-, -, e⟩ | ⟨b, -, -, e⟩ | ⟨-, e⟩ <;> rw [e]
  · exact hs
  · exact hs.setAccel a
  · exact hs.setTspeed v
  · exact channelInv_startMove (fTick_lt s.cfg) (fTick_pos s.cfg) hn _ _
  · exact channelInv_clearMove hs.speedCap hs.pinFollows
  · exact hs.setDirection b
  · exact channelInv_genTick (fTick_lt s.cfg) hs

/-- Every event keeps the invariants of R36. -/
theorem event_inv (hs : Inv s) (h : s.inputs = x :: rest) (hx : ∀ b, x ≠ .cmdByte b) (ht : step s = .next t) :
    Inv t where
  channel m := by rw [event_cfg h hx ht]; exact event_channelInv h hx ht (hs.channel m)
  pendBusy := event_pendBusy h hx ht
  rxPartial := by
    rcases event_rx h hx ht with e | e <;> rw [e]
    · exact hs.rxPartial
    · exact Nat.zero_le 7

end Event

/-- The invariants read the transport only through the length of its partial word. -/
theorem Inv.withTransport {s : State} (hs : Inv s) (ins : List Input) {rx : List Byte} (hrx : rx.length ≤ 7) :
    Inv { s with inputs := ins, rx := rx } where
  channel m := by cases m <;> exact hs.channel _
  pendBusy := hs.pendBusy
  rxPartial := hrx

/-- Settles O58: waiting changes nothing, a byte only lengthens a partial word of at most 6 bytes, and the events keep the
invariants. -/
theorem stepKeepsTheInvariants : Obligations.StepKeepsTheInvariants := by
  intro s t hs ht
  rcases step_event_cases ht with rfl | ⟨b, rest, hl, rfl⟩ | ⟨x, rest, rx, hrx, hx, he⟩
  · exact hs
  · exact hs.withTransport rest (by simpa using hl)
  · have hlen : rx.length ≤ 7 := by
      rcases hrx with rfl | rfl
      · exact hs.rxPartial
      · exact Nat.zero_le 7
    exact event_inv (hs.withTransport (x :: rest) hlen) rfl hx he

/-- A channel right after reset has the profile invariants (R135, R139, R148 d). -/
theorem profileInv_reset (f : Nat) (invert : Bool) : ProfileInv f (.reset invert) where
  cruiseSpeed := nofun
  clampedCap := nofun
  moveSize := Nat.zero_le _
  decelCovers := nofun
  noDefect := rfl

/-- Settles O57: the reset values (R39) have both sets of invariants, for every value of the parameters. -/
theorem resetHasTheInvariants : Obligations.ResetHasTheInvariants := by
  refine ⟨inv_resetWith _ _, fun q pending => ⟨inv_resetWith q pending, inv_resetWith q pending, fun m => ?_⟩⟩
  rw [resetWith_ch]
  exact profileInv_reset _ _

end Sys2Proof.Machine
end

section
/-! The writers of each piece of state (R32). -/

namespace Sys2Proof.Machine

open Sys2Proof

/-- What post_event can do to MODE and MODE_PEND: the pending mode is applied, or both stay (R116). -/
theorem postEvent_mode_cases (u : State) :
    (u.drv.modePend = true ∧ u.bothIdle = true ∧ u.postEvent.drv.mode = u.drv.modeNext ∧
        u.postEvent.drv.modePend = false) ∨
      (u.postEvent.drv.mode = u.drv.mode ∧ u.postEvent.drv.modePend = u.drv.modePend) := by
  rcases postEvent_cases u with ⟨hp, hb, e⟩ | ⟨-, e⟩ <;> rw [e]
  · exact .inl ⟨hp, hb, rfl, rfl⟩
  · exact .inr ⟨rfl, rfl⟩

section Writers

variable {s t : State} {x : Input} {rest : List Input}

/-- The writers of the driver configuration: the command's own effect, and the post_event after it. -/
theorem drv_writers (h : s.inputs = x :: rest) (hx : ∀ b, x ≠ .cmdByte b) (hr : x ≠ .reset) (ht : step s = .next t) :
    (t.drv.en ≠ s.drv.en → ∃ e, inputCommand x = some (.enable e)) ∧
    (t.drv.spr ≠ s.drv.spr → ∃ n, inputCommand x = some (.setspr n)) ∧
    (t.drv.mode ≠ s.drv.mode →
      (∃ k, inputCommand x = some (.setmode k)) ∨
        (s.drv.modePend = true ∧ t.bothIdle = true ∧ t.drv.mode = s.drv.modeNext)) ∧
    (t.drv.modeNext ≠ s.drv.modeNext → ∃ k, inputCommand x = some (.setmode k)) ∧
    (t.drv.modePend ≠ s.drv.modePend →
      (∃ k, inputCommand x = some (.setmode k)) ∨
        (s.drv.modePend = true ∧ t.bothIdle = true ∧ t.drv.modePend = false)) := by
  obtain ⟨u, rfl, -, hu⟩ := step_drv_cases h hx hr ht
  have hkept : (∃ k, inputCommand x = some (.setmode k)) ∨
      (u.drv.mode = s.drv.mode ∧ u.drv.modePend = s.drv.modePend ∧ u.drv.modeNext = s.drv.modeNext) := by
    rcases hu with e | ⟨b, -, e⟩ | ⟨n, -, -, e⟩ | ⟨k, md, hi, -⟩ | ⟨k, md, hi, -⟩
    · exact .inr (by simp [e])
    · exact .inr (by simp [e])
    · exact .inr (by simp [e])
    · exact .inl ⟨k, hi⟩
    · exact .inl ⟨k, hi⟩
  rw [postEvent_en, postEvent_spr, postEvent_modeNext, postEvent_bothIdle]
  refine ⟨?en, ?spr, fun hne => hkept.imp_right ?mode, fun hne => ?next, fun hne => hkept.imp_right ?pend⟩
  case en =>
    rcases hu with e | ⟨b, hi, -⟩ | ⟨n, -, -, e⟩ | ⟨k, md, -, -, -, e⟩ | ⟨k, md, -, -, -, e⟩
    case inr.inl => exact fun _ => ⟨b, hi⟩
    all_goals exact absurd (by rw [e])
  case spr =>
    rcases hu with e | ⟨b, -, e⟩ | ⟨n, hi, -⟩ | ⟨k, md, -, -, -, e⟩ | ⟨k, md, -, -, -, e⟩
    case inr.inr.inl => exact fun _ => ⟨n, hi⟩
    all_goals exact absurd (by rw [e])
  case mode =>
    rintro ⟨hmode, hpend, hnext⟩
    rcases postEvent_mode_cases u with ⟨hp, hb, e, -⟩ | ⟨e, -⟩
    · exact ⟨hpend ▸ hp, hb, e.trans hnext⟩
    · exact absurd (e.trans hmode) hne
  case next => exact hkept.resolve_right fun ⟨_, _, hnext⟩ => hne hnext
  case pend =>
    rintro ⟨-, hpend, -⟩
    rcases postEvent_mode_cases u with ⟨hp, hb, -, e⟩ | ⟨-, e⟩
    · exact ⟨hpend ▸ hp, hb, e⟩
    · exact absurd (e.trans hpend) hne

/-- The writers of a channel: each update of a channel with the fields it writes. -/
theorem ch_writers (h : s.inputs = x :: rest) (hx : ∀ b, x ≠ .cmdByte b) (hr : x ≠ .reset) (ht : step s = .next t)
    (m : Chan) :
    ((t.ch m).accel ≠ (s.ch m).accel → ∃ a, inputCommand x = some (.setacc m a)) ∧
    ((t.ch m).tspeed ≠ (s.ch m).tspeed → ∃ v, inputCommand x = some (.setspd m v)) ∧
    ((t.ch m).aAct ≠ (s.ch m).aAct ∨ (t.ch m).vAct ≠ (s.ch m).vAct ∨ (t.ch m).clamped ≠ (s.ch m).clamped →
      ∃ n, inputCommand x = some (.move m n) ∧ n ≠ 0) ∧
    ((t.ch m).phase ≠ (s.ch m).phase ∨ (t.ch m).remain ≠ (s.ch m).remain ∨ (t.ch m).u ≠ (s.ch m).u ∨
        (t.ch m).p ≠ (s.ch m).p →
      (∃ n, inputCommand x = some (.move m n)) ∨ inputTicks x m ∨ inputCommand x = some (.stop m)) ∧
    ((t.ch m).dirLog ≠ (s.ch m).dirLog ∨ (t.ch m).dirPin ≠ (s.ch m).dirPin →
      (∃ n, inputCommand x = some (.move m n)) ∨ inputCommand x = some (.dirfwd m) ∨
        inputCommand x = some (.dirbwd m)) ∧
    ((t.ch m).defect ≠ (s.ch m).defect → inputTicks x m) ∧
    ((t.ch m).pulseCnt ≠ (s.ch m).pulseCnt → inputTicks x m) := by
  rcases step_ch_cases h hx hr ht m with
    e | ⟨a, hi, e⟩ | ⟨v, hi, e⟩ | ⟨n, hi, -, hn, e⟩ | ⟨hi, -, e⟩ | ⟨b, hi, -, e⟩ | ⟨hi, e⟩ <;> rw [e]
  · simp
  · simp [hi]
  · simp [hi]
  · exact ⟨absurd rfl, absurd rfl, fun _ => ⟨n, hi, hn⟩, fun _ => .inl ⟨n, hi⟩, fun _ => .inl ⟨n, hi⟩, absurd rfl,
      absurd rfl⟩
  · simp [hi]
  · cases b <;> simp [hi]
  · obtain ⟨hacc, hspd, ha, hv, hlog, hpin, hcl⟩ := genTick_keeps s.cfg.fTick (s.ch m)
    simp [hi, hacc, hspd, ha, hv, hlog, hpin, hcl]

end Writers

/-- Settles O18, from the writers of the driver configuration and of each channel. -/
theorem onlyTheListedWritersWrite : Obligations.OnlyTheListedWritersWrite := by
  intro s t x rest h hx hr ht
  obtain ⟨hen, hspr, hmode, hnext, hpend⟩ := drv_writers h hx hr ht
  have hch := ch_writers h hx hr ht
  simp only [forall_and] at hch
  exact ⟨hen, hspr, hmode, hnext, hpend, hch⟩

end Sys2Proof.Machine
end

section
/-! The registers as RDREG reads them (R24 to R30). -/

namespace Sys2Proof.Machine

open Sys2Proof

/-! ### The register-number space (R30) -/

/-- A register is read at its own number (R29, R30). -/
theorem regRead_regNumber (s : State) (r : Reg) : s.regRead (regNumber r) = some (s.readReg r) := by
  rw [State.regRead, regOfNumber_regNumber, Option.map_some]

/-- A channel's register is read at 0x10 + 0x10*m + offset (R29). -/
theorem regRead_chan (s : State) (m : Chan) (r : ChanReg) :
    s.regRead (BitVec.ofNat 8 (chanBase m + chanRegOffset r)) = some ((s.ch m).readReg r) :=
  regRead_regNumber s (.chan m r)

theorem regRead_none_iff (s : State) (r : Byte) : s.regRead r = none ↔ ¬ definedNumber r := by
  rw [State.regRead, Option.map_eq_none_iff, regOfNumber_none_iff]

/-! ### The fields of the packed registers

A field is reached by dropping the fields below it, one concatenation at a time. -/

/-- The fields of DRVCFG (R24). -/
theorem drvcfg_fields (s : State) :
    s.drvcfg.getLsbD 0 = s.drv.en ∧ s.drvcfg.extractLsb' 1 3 = s.drv.mode.code ∧ s.drvcfg.getLsbD 4 = s.drv.modePend ∧
      s.drvcfg.extractLsb' 5 3 = s.drv.modeNext.code ∧ s.drvcfg.extractLsb' 8 3 = s.msOut ∧
      s.drvcfg.getLsbD 11 = s.enOut ∧ s.drvcfg.extractLsb' 12 20 = 0 := by
  unfold State.drvcfg
  refine ⟨?en, ?mode, ?pend, ?next, ?ms, ?enOut, ?rsv⟩
  case en | pend | enOut => simp only [BitVec.getLsbD_append]; simp
  case mode | next | ms =>
    repeat rw [BitVec.extractLsb'_append_eq_of_le (by decide)]
    exact BitVec.extractLsb'_append_eq_right
  case rsv =>
    repeat rw [BitVec.extractLsb'_append_eq_of_le (by decide)]
    exact BitVec.extractLsb'_zero

/-- The fields of PARAMS (R26). -/
theorem paramsReg_fields (s : State) :
    s.paramsReg.getLsbD 0 = s.cfg.invert0 ∧ s.paramsReg.getLsbD 1 = s.cfg.invert1 ∧
      s.paramsReg.getLsbD 2 = s.cfg.enActiveLow ∧ s.paramsReg.extractLsb' 3 29 = 0 := by
  unfold State.paramsReg
  refine ⟨?inv0, ?inv1, ?low, ?rsv⟩
  case inv0 | inv1 | low => simp only [BitVec.getLsbD_append]; simp
  case rsv =>
    repeat rw [BitVec.extractLsb'_append_eq_of_le (by decide)]
    exact BitVec.extractLsb'_zero

/-- The fields of MSTAT[m] (R27). -/
theorem mstat_fields (c : Channel) :
    c.mstat.extractLsb' 0 3 = c.phase.code ∧ c.mstat.getLsbD 3 = c.busy ∧ c.mstat.getLsbD 4 = c.dirLog ∧
      c.mstat.getLsbD 5 = c.dirPin ∧ c.mstat.getLsbD 6 = c.defect ∧ c.mstat.getLsbD 7 = c.clamped ∧
      c.mstat.extractLsb' 8 24 = 0 := by
  unfold Channel.mstat
  refine ⟨?phase, ?busy, ?log, ?pin, ?defect, ?clamped, ?rsv⟩
  case phase => exact BitVec.extractLsb'_append_eq_right
  case busy | log | pin | defect | clamped => simp only [BitVec.getLsbD_append]; simp
  case rsv =>
    repeat rw [BitVec.extractLsb'_append_eq_of_le (by decide)]
    exact BitVec.extractLsb'_zero

/-- FTICK holds the whole of F_TICK (R5, R26). -/
theorem ftickReg_toNat (s : State) : s.ftickReg.toNat = s.cfg.fTick :=
  Nat.mod_eq_of_lt (fTick_lt s.cfg)

/-- A 64-bit quantity is its two halves, HI above LO (R29). -/
theorem hi_append_lo (v : BitVec 64) : v.extractLsb' 32 32 ++ v.extractLsb' 0 32 = v :=
  BitVec.extractLsb'_append_extractLsb' (w := 32) (len := 32)

/-! ### The statements -/

/-- Settles O28, field by field. -/
theorem drvcfgBits : Obligations.DrvcfgBits := by
  intro s
  obtain ⟨hen, hmode, hpend, hnext, hms, henOut, hrsv⟩ := drvcfg_fields s
  refine ⟨s.drvcfg, regRead_regNumber s .drvcfg, hen, ?_, hpend, ?_, hms, henOut, hrsv⟩
  · rw [hmode]; cases s.drv.mode <;> rfl
  · rw [hnext]; cases s.drv.modeNext <;> rfl

/-- Settles O29: SPR is read whole, PARAMS field by field, and F_TICK fits its 32 bits. -/
theorem sprParamsFtickRead : Obligations.SprParamsFtickRead := fun s =>
  ⟨regRead_regNumber s .spr, ⟨_, regRead_regNumber s .params, paramsReg_fields s⟩,
    ⟨_, regRead_regNumber s .ftick, ftickReg_toNat s⟩⟩

/-- Settles O30, field by field. -/
theorem mstatBits : Obligations.MstatBits := by
  intro s m
  obtain ⟨hphase, hbusy, hlog, hpin, hdefect, hclamped, hrsv⟩ := mstat_fields (s.ch m)
  refine ⟨(s.ch m).mstat, ?_, ?_, ?_, hlog, hpin, hdefect, hclamped, hrsv⟩
  · cases m
    · exact regRead_chan s .m0 .mstat
    · exact regRead_chan s .m1 .mstat
  · rw [hphase]; cases (s.ch m).phase <;> rfl
  · rw [hbusy]; exact channel_busy_iff _

/-- Settles O31: base + offset is the number of the register, for each channel. -/
theorem channelRegistersRead : Obligations.ChannelRegistersRead := by
  intro s m base hbase
  have hread : ∀ r, s.regRead (base + BitVec.ofNat 8 (chanRegOffset r)) = some ((s.ch m).readReg r) := by
    intro r
    rw [← regRead_chan, hbase, BitVec.ofNat_add]
    cases m <;> rfl
  exact ⟨hread .accel, hread .tspeed, hread .aAct, hread .vAct, hread .remain,
    ⟨_, _, hread .speedLo, hread .speedHi, hi_append_lo _⟩, ⟨_, _, hread .phaccLo, hread .phaccHi, hi_append_lo _⟩,
    hread .pulseCnt⟩

/-- Settles O32: RegRead is undefined exactly outside R30's ranges. -/
theorem registerNumbersExactly : Obligations.RegisterNumbersExactly := by
  intro s r
  rw [← Option.isSome_iff_exists, ← Option.ne_none_iff_isSome, Ne, regRead_none_iff, not_not]
  rfl

end Sys2Proof.Machine
end

section
/-! The transport (R61, R62): the byte order of a command word and of a response, and the partial word. -/

namespace Sys2Proof.Machine

open Sys2Proof

/-! ### The bytes of a number -/

theorem bytesOfNat_length (n v : Nat) : (bytesOfNat n v).length = n := by
  induction n generalizing v with
  | zero => rfl
  | succ n ih => simp [bytesOfNat, ih]

/-- Reading back the n low bytes of a number gives the number modulo 256^n (R61). -/
theorem natOfBytes_bytesOfNat (n v : Nat) : natOfBytes (bytesOfNat n v) = v % 256 ^ n := by
  induction n generalizing v with
  | zero => simp [bytesOfNat, natOfBytes, Nat.mod_one]
  | succ n ih =>
    rw [bytesOfNat, natOfBytes, ih, BitVec.toNat_ofNat, pow_succ' 256 n]
    exact Nat.mod_mul.symm

/-- Byte i of a number is the number without its i low bytes, cut to 8 bits. -/
theorem bytesOfNat_getElem (n v i : Nat) (h : i < (bytesOfNat n v).length) :
    (bytesOfNat n v)[i] = BitVec.ofNat 8 (v / 256 ^ i) := by
  induction n generalizing v i with
  | zero => cases h
  | succ n ih =>
    cases i with
    | zero => simp [bytesOfNat]
    | succ i => simp [bytesOfNat, ih, Nat.div_div_eq_div_mul, Nat.pow_succ']

/-- A field of 8 bits from bit 8i up is byte i of the number. -/
theorem extractLsb'_byte {n : Nat} (w : BitVec n) (i : Nat) :
    w.extractLsb' (8 * i) 8 = BitVec.ofNat 8 (w.toNat / 256 ^ i) := by
  rw [BitVec.extractLsb', Nat.shiftRight_eq_div_pow, Nat.pow_mul]

/-- Settles O9: a command word has exactly 8 bytes, so reading it back loses nothing. -/
theorem wordBytesLittleEndian : Obligations.WordBytesLittleEndian := by
  refine ⟨fun w => ⟨?_, bytesOfNat_length 8 w.toNat, fun i h => ?_⟩, fun ⟨status, data⟩ => ?_⟩
  · have hlt : w.toNat < 256 ^ 8 := w.isLt
    rw [wordOfBytes, bytesOfWord, natOfBytes_bytesOfNat, Nat.mod_eq_of_lt hlt, BitVec.ofNat_toNat, BitVec.setWidth_eq]
  · rw [extractLsb'_byte]
    exact bytesOfNat_getElem 8 w.toNat i h
  · have hdata : bytesOfNat 4 data.toNat =
        [data.extractLsb' 0 8, data.extractLsb' 8 8, data.extractLsb' 16 8, data.extractLsb' 24 8] := by
      rw [extractLsb'_byte data 0, extractLsb'_byte data 1, extractLsb'_byte data 2, extractLsb'_byte data 3]
      simp [bytesOfNat, Nat.div_div_eq_div_mul]
    rw [Response.bytes, hdata]
    cases status <;> rfl

/-! ### The partial word -/

/-- A byte that leaves the word incomplete waits (R62). -/
theorem step_byte_waits {s : State} {b : Byte} {rest : List Input} (h : s.inputs = .cmdByte b :: rest)
    (hl : s.rx.length < 7) : step s = .next { s with inputs := rest, rx := s.rx ++ [b] } := by
  rw [step_cons s h]
  exact if_pos hl

/-- The byte that completes the word is the event of that word, with the partial word emptied (R61, R62). -/
theorem step_byte_completes {s : State} {b : Byte} {rest : List Input} (h : s.inputs = .cmdByte b :: rest)
    (hl : 7 ≤ s.rx.length) :
    step s = step { s with rx := [], inputs := .cmd (wordOfBytes (s.rx ++ [b])) :: rest } := by
  rw [step_cons s h, step_cons _ rfl]
  exact if_neg (Nat.not_lt.2 hl)

/-- Settles O10, a byte that waits and a byte that completes the word. -/
theorem lastByteDeliversTheCommand : Obligations.LastByteDeliversTheCommand := fun _ _ _ h =>
  ⟨step_byte_waits h, fun hl => step_byte_completes h hl.ge⟩

end Sys2Proof.Machine
end

section
/-! The pulses of two channels (R69): what a tick returns and leaves depends on the profile state alone, and each
channel sees only the ticks that select it. -/

namespace Sys2Proof.Machine

open Sys2Proof

/-! ### A tick reads only the profile state (R137) -/

section SameProfile

variable {c d : Channel}

theorem SameProfile.target_eq (h : SameProfile c d) (f : Nat) : c.target f = d.target f := by
  obtain ⟨-, -, hv, -⟩ := h
  rw [Channel.target, Channel.target, hv]

theorem SameProfile.decelNeeded_eq (h : SameProfile c d) (f : Nat) : c.decelNeeded f = d.decelNeeded f := by
  obtain ⟨-, ha, -, hr, hu, -⟩ := h
  rw [Channel.decelNeeded, Channel.decelNeeded, ha, hr, hu]

theorem SameProfile.crosses_eq (h : SameProfile c d) (f : Nat) : c.crosses f = d.crosses f := by
  obtain ⟨-, -, -, -, hu, hp⟩ := h
  rw [Channel.crosses, Channel.crosses, hu, hp]

theorem SameProfile.rampUp (h : SameProfile c d) (f : Nat) : SameProfile (c.rampUp f) (d.rampUp f) := by
  have htarget := h.target_eq f
  obtain ⟨hph, ha, hv, hr, hu, hp⟩ := h
  unfold Channel.rampUp
  rw [hph, ha, hu, htarget]
  split
  · exact ⟨rfl, rfl, hv, hr, rfl, hp⟩
  · exact ⟨hph, ha, hv, hr, hu, hp⟩

theorem SameProfile.advance (h : SameProfile c d) (f : Nat) : SameProfile (c.advance f) (d.advance f) := by
  have hcrosses := h.crosses_eq f
  obtain ⟨hph, ha, hv, hr, hu, hp⟩ := h
  unfold Channel.advance
  rw [hcrosses, hr, hu, hp]
  split
  · exact ⟨hph, ha, hv, rfl, rfl, rfl⟩
  · exact ⟨hph, ha, hv, rfl, rfl, rfl⟩

theorem SameProfile.rampDown (h : SameProfile c d) : SameProfile c.rampDown d.rampDown := by
  obtain ⟨hph, ha, hv, hr, hu, hp⟩ := h
  unfold Channel.rampDown
  rw [hph, ha, hu]
  split
  · exact ⟨rfl, rfl, hv, hr, rfl, hp⟩
  · exact ⟨hph, ha, hv, hr, hu, hp⟩

theorem SameProfile.clearMove (h : SameProfile c d) : SameProfile c.clearMove d.clearMove := by
  obtain ⟨-, ha, hv, -⟩ := h
  exact ⟨rfl, ha, hv, rfl, rfl, rfl⟩

/-- The end of a tick: both channels take the same one of its branches. -/
theorem SameProfile.settle (h : SameProfile c d) (f : Nat) (pulse : Bool) :
    SameProfile (c.settle f pulse).1 (d.settle f pulse).1 ∧ (c.settle f pulse).2 = (d.settle f pulse).2 := by
  have hdecel := h.decelNeeded_eq f
  have htarget := h.target_eq f
  have ⟨hph, ha, hv, hr, hu, hp⟩ := h
  unfold Channel.settle
  rw [hph, hr, hu, hdecel, htarget]
  split
  · exact ⟨h.clearMove, rfl⟩
  cases d.phase with
  | accelerating =>
    dsimp only
    split
    · exact ⟨⟨rfl, ha, hv, rfl, rfl, hp⟩, rfl⟩
    · split
      · exact ⟨⟨rfl, ha, hv, rfl, rfl, hp⟩, rfl⟩
      · exact ⟨h, rfl⟩
  | cruising =>
    dsimp only
    split
    · exact ⟨⟨rfl, ha, hv, rfl, rfl, hp⟩, rfl⟩
    · exact ⟨h, rfl⟩
  | decelerating =>
    dsimp only
    split
    · exact ⟨h.clearMove, rfl⟩
    · exact ⟨h, rfl⟩
  | idle | stopped => exact ⟨h, rfl⟩

/-- A tick keeps two channels in the same profile state and returns the same bits for both. -/
theorem SameProfile.tick (h : SameProfile c d) (f : Nat) :
    SameProfile (genTick f c).1 (genTick f d).1 ∧ (genTick f c).2 = (genTick f d).2 := by
  have ⟨hph, _⟩ := h
  by_cases hidle : c.phase = .idle
  · rw [genTick_idle hidle, genTick_idle (hph ▸ hidle)]
    exact ⟨h, rfl⟩
  · rw [genTick_busy hidle, genTick_busy (hph ▸ hidle), (h.rampUp f).crosses_eq f]
    exact ((h.rampUp f).advance f).rampDown.settle f _

theorem SameProfile.afterTicks (h : SameProfile c d) (f k : Nat) :
    SameProfile (Channel.afterTicks f k c) (Channel.afterTicks f k d) := by
  induction k generalizing c d with
  | zero => exact h
  | succ k ih => exact ih (h.tick f).1

theorem SameProfile.pulsesIn_eq (h : SameProfile c d) (f k : Nat) :
    Channel.pulsesIn f k c = Channel.pulsesIn f k d := by
  induction k generalizing c d with
  | zero => rfl
  | succ k ih =>
    obtain ⟨hnext, hbits⟩ := h.tick f
    rw [Channel.pulsesIn, Channel.pulsesIn, hbits, ih hnext]

end SameProfile

/-! ### PULSECNT counts the pulses (R141) -/

theorem advance_pulseCnt (f : Nat) (c : Channel) :
    (c.advance f).pulseCnt = c.pulseCnt + if c.crosses f then 1 else 0 := by
  unfold Channel.advance
  split
  · rfl
  · exact (BitVec.add_zero _).symm

theorem genTick_pulseCnt (f : Nat) (c : Channel) :
    (genTick f c).1.pulseCnt = c.pulseCnt + if (genTick f c).2.pulse then 1 else 0 := by
  by_cases hidle : c.phase = .idle
  · rw [genTick_idle hidle]
    exact (BitVec.add_zero _).symm
  · obtain ⟨-, -, -, -, -, -, -, hcnt⟩ :=
      settle_keeps f ((c.rampUp f).advance f).rampDown ((c.rampUp f).crosses f)
    rw [genTick_busy hidle, settle_pulse, hcnt, rampDown_pulseCnt, advance_pulseCnt, rampUp_pulseCnt]

/-- Over any number of ticks PULSECNT rises by the number of pulses, modulo 2^32. -/
theorem afterTicks_pulseCnt (f k : Nat) (c : Channel) :
    (Channel.afterTicks f k c).pulseCnt = c.pulseCnt + BitVec.ofNat 32 (Channel.pulsesIn f k c) := by
  induction k generalizing c with
  | zero => exact (BitVec.add_zero _).symm
  | succ k ih =>
    rw [Channel.afterTicks, ih, genTick_pulseCnt, Channel.pulsesIn, BitVec.ofNat_add, BitVec.add_assoc]
    split <;> rfl

/-! ### Strobes in any order (R207) -/

/-- A strobe ticks each channel that its mask selects, and nothing else of the channels. -/
theorem step_strobe {s : State} {k : BitVec 2} {rest : List Input} (h : s.inputs = .strobe k :: rest) :
    ∃ t, step s = .next t ∧ t.inputs = rest ∧ t.cfg = s.cfg ∧
      ∀ m, t.ch m = if maskSelects k m then (genTick s.cfg.fTick (s.ch m)).1 else s.ch m := by
  refine ⟨_, step_cons s h, by simp, by simp, fun m => ?_⟩
  rw [postEvent_ch, tickMask_ch, beginEvent_ch, beginEvent_cfg]
  cases m <;> rfl

/-- A run takes its steps one after the other. -/
theorem run_succ (M : Host.Core) {s u : M.State} (h : M.step s = .next u) (n : Nat) : M.run (n + 1) s = M.run n u := by
  rw [Host.Core.run, h]

/-- A run over strobes ticks each channel as often as a mask selects it, in whatever order the masks come. -/
theorem run_strobes (ks : List (BitVec 2)) {s : State} {rest : List Input}
    (h : s.inputs = ks.map .strobe ++ rest) :
    ∃ t, Sys2Proof.core.run ks.length s = .next t ∧ t.inputs = rest ∧
      ∀ m, t.ch m = Channel.afterTicks s.cfg.fTick (ks.countP (fun k => maskSelects k m)) (s.ch m) := by
  induction ks generalizing s with
  | nil => exact ⟨s, rfl, h, fun _ => rfl⟩
  | cons k ks ih =>
    obtain ⟨u, hstep, hinputs, hcfg, hu⟩ := step_strobe h
    obtain ⟨t, hrun, hrest, ht⟩ := ih hinputs
    refine ⟨t, (run_succ Sys2Proof.core hstep ks.length).trans hrun, hrest, fun m => ?_⟩
    rw [ht, hu, hcfg, List.countP_cons]
    split <;> rfl

/-! ### The same MOVE for both channels (R153) -/

/-- A MOVE by a non-zero count starts an Idle channel. -/
theorem execMove_idle {s : State} {m : Chan} {n : Data} (hidle : (s.ch m).phase = .idle) (hn : n ≠ 0) :
    execMove m n s =
      .next ((s.setCh m ((s.ch m).startMove s.cfg.fTick (s.cfg.invert m) (operandS32 n))).respond .ok 0) := by
  have hb : s.busy m = false := (channel_not_busy_iff _).2 hidle
  rcases execMove_cases s m n with ⟨hbusy, -⟩ | ⟨-, hzero, -⟩ | ⟨-, -, h⟩
  · cases hb.symm.trans hbusy
  · exact absurd hzero hn
  · exact h

/-- A started move depends on the shadow profile and the count, and not on the channel's direction pin. -/
theorem sameProfile_startMove {c d : Channel} (haccel : c.accel = d.accel) (htspeed : c.tspeed = d.tspeed) (f : Nat)
    (invert invert' : Bool) (n : Int) : SameProfile (c.startMove f invert n) (d.startMove f invert' n) :=
  ⟨rfl, haccel, congrArg (fun v : Data => BitVec.ofNat 32 (min v.toNat f)) htspeed, rfl, rfl, rfl⟩

/-- Settles O56: PULSECNT rises by the pulses, so that the counts agree too, and the second MOVE finds its channel as the
first one found it. -/
theorem sameTicksSamePulses : Obligations.SameTicksSamePulses := by
  refine ⟨fun f c d k h => ⟨h.afterTicks f k, ((h.afterTicks f k).tick f).2, h.pulsesIn_eq f k, ?_⟩,
    fun s ks rest h => run_strobes ks h, fun s n hidle0 hidle1 haccel htspeed hn => ?_⟩
  · rw [afterTicks_pulseCnt, afterTicks_pulseCnt, h.pulsesIn_eq f k, add_sub_cancel_left, add_sub_cancel_left]
  · have hn0 : n ≠ 0 := mt (operandS32_eq_zero_iff n).2 hn
    refine ⟨_, _, execMove_idle (m := .m0) hidle0 hn0, execMove_idle (m := .m1) ?_ hn0, ?_⟩
    · simpa using hidle1
    · simpa using sameProfile_startMove haccel htspeed _ _ _ _

end Sys2Proof.Machine
end

section
/-! A command repeated at once (R63): the second time finds nothing left to write and gives the same answer. -/

namespace Sys2Proof.Machine

open Sys2Proof

/-! ### A command does not look at the inputs still to come -/

section Inputs

variable (s : State) (ins : List Input) (m : Chan)

theorem withInputs_ch : ({ s with inputs := ins } : State).ch m = s.ch m := by cases m <;> rfl

theorem withInputs_busy : ({ s with inputs := ins } : State).busy m = s.busy m := by
  rw [busy_eq, busy_eq, withInputs_ch]

theorem withInputs_setCh (c : Channel) :
    ({ s with inputs := ins } : State).setCh m c = { s.setCh m c with inputs := ins } := by cases m <;> rfl

theorem withInputs_steer (b : Bool) :
    ({ s with inputs := ins } : State).steer m b = { s.steer m b with inputs := ins } := by
  unfold State.steer
  rw [withInputs_busy, withInputs_ch, withInputs_setCh]
  split <;> rfl

theorem withInputs_selectMode (md : StepMode) :
    ({ s with inputs := ins } : State).selectMode md = { s.selectMode md with inputs := ins } := by
  have hidle : ({ s with inputs := ins } : State).bothIdle = s.bothIdle := rfl
  unfold State.selectMode
  rw [hidle]
  split <;> rfl

theorem withInputs_readReg (r : Reg) : ({ s with inputs := ins } : State).readReg r = s.readReg r := by
  cases r with
  | chan m r => exact congrArg (Channel.readReg · r) (withInputs_ch s ins m)
  | drvcfg | spr | params | ftick => rfl

theorem withInputs_regRead (r : Byte) : ({ s with inputs := ins } : State).regRead r = s.regRead r := by
  simp only [State.regRead, funext (withInputs_readReg s ins)]

theorem withInputs_tickIf (k : BitVec 2) :
    ({ s with inputs := ins } : State).tickIf k m = { s.tickIf k m with inputs := ins } := by
  unfold State.tickIf
  rw [tickChan_eq, tickChan_eq, withInputs_ch, withInputs_setCh]
  split
  · split <;> cases m <;> rfl
  · rfl

theorem withInputs_tickMask (k : BitVec 2) :
    ({ s with inputs := ins } : State).tickMask k = { s.tickMask k with inputs := ins } := by
  rw [State.tickMask, withInputs_tickIf s ins .m0, withInputs_tickIf (s.tickIf k .m0)]
  rfl

theorem withInputs_tickWord (k : BitVec 2) : ({ s with inputs := ins } : State).tickWord k = s.tickWord k := by
  simp only [tickWord_eq, State.bitsIf, State.tickBits, withInputs_ch]

end Inputs

/-- A command's meaning neither reads nor writes the inputs still to come. -/
theorem exec_withInputs {i : Instr} {s t : State} (h : exec i s = .next t) (ins : List Input) :
    exec i { s with inputs := ins } = .next { t with inputs := ins } := by
  cases i with
  | nop | enable => cases h; rfl
  | setacc m _ | setspd m _ | busy m => cases h; cases m <;> rfl
  | move m n =>
    simp only [exec, execMove, withInputs_busy, withInputs_ch, withInputs_setCh] at h ⊢
    split_ifs at h ⊢ <;> cases h <;> rfl
  | stop m =>
    simp only [exec, execStop, withInputs_busy, withInputs_ch, withInputs_setCh] at h ⊢
    split_ifs at h ⊢ <;> cases h <;> rfl
  | dirfwd m | dirbwd m => cases h; exact congrArg Host.Outcome.next (withInputs_steer s ins m _)
  | setmode k =>
    simp only [exec, execSetmode, withInputs_selectMode] at h ⊢
    split at h <;> cases h <;> rfl
  | setspr n =>
    simp only [exec, execSetspr] at h ⊢
    split_ifs at h ⊢ <;> cases h <;> rfl
  | rdreg r =>
    simp only [exec, execRdreg, withInputs_regRead] at h ⊢
    split at h <;> cases h <;> rfl
  | tick k =>
    cases h
    simp only [exec, execTick, withInputs_tickMask, withInputs_tickWord]
    rfl

/-! ### Writing the same again -/

theorem setCh_setCh (s : State) (m : Chan) (c d : Channel) : (s.setCh m c).setCh m d = s.setCh m d := by
  cases m <;> rfl

/-- Writing a channel without its phase leaves the busy tests alone. -/
theorem setCh_phase {s : State} {m : Chan} {c : Channel} (h : c.phase = (s.ch m).phase) (n : Chan) :
    ((s.setCh m c).ch n).phase = (s.ch n).phase := by
  by_cases hn : n = m
  · subst hn; rw [setCh_ch_same, h]
  · rw [setCh_ch_of_ne s c hn]

/-- A mode selected twice is selected once: at once or pending, as both times the same channels are busy (R115). -/
theorem selectMode_selectMode (s : State) (md : StepMode) : (s.selectMode md).selectMode md = s.selectMode md := by
  rcases selectMode_cases s md with ⟨hb, e⟩ | ⟨hb, e⟩ <;> rw [e]
  · exact if_pos hb
  · exact if_neg (Bool.eq_false_iff.1 hb)

/-- Selecting a mode keeps the pending mode's invariant (R36). -/
theorem selectMode_pendBusy {s : State} (h : s.drv.modePend = true → s.bothIdle = false) (md : StepMode) :
    (s.selectMode md).drv.modePend = true → (s.selectMode md).bothIdle = false := by
  rcases selectMode_cases s md with ⟨-, e⟩ | ⟨hb, e⟩ <;> rw [e]
  · exact h
  · exact fun _ => hb

/-! ### Repeating a command -/

/-- A command whose repetition changes nothing: it writes a state `w` and answers, and where post_event has left that
state, the command writes nothing and answers the same. -/
def Repeats (i : Instr) (s : State) : Prop :=
  ∃ (w : State) (e : Status) (d : Data), w.out = .none ∧ exec i s = .next (w.respond e d) ∧
    exec i w.postEvent = .next (w.postEvent.respond e d)

section Repeats

variable {i : Instr} {s : State}

/-- Where the written state keeps the pending mode's invariant (R36), post_event does not come between. -/
theorem repeats_of_pendBusy {w : State} {e : Status} {d : Data} (hout : w.out = .none)
    (hpend : w.drv.modePend = true → w.bothIdle = false) (h : exec i s = .next (w.respond e d))
    (hagain : exec i w = .next (w.respond e d)) : Repeats i s :=
  ⟨w, e, d, hout, h, by rwa [postEvent_of_pendBusy hpend]⟩

variable (hout : s.out = .none) (hpend : s.drv.modePend = true → s.bothIdle = false)
include hout hpend

/-- A command that only answers repeats. -/
theorem repeats_of_answer {e : Status} {d : Data} (h : exec i s = .next (s.respond e d)) : Repeats i s :=
  repeats_of_pendBusy hout hpend h h

/-- An idempotent write of one channel that keeps its phase repeats, where only the parameters and the busy test of the
channel decide that it is made. -/
theorem repeats_of_setCh {m : Chan} {g : Channel → Channel} (hphase : ∀ c, (g c).phase = c.phase)
    (hidem : ∀ c, g (g c) = g c)
    (h : ∀ x : State, x.cfg = s.cfg → x.busy m = s.busy m →
      exec i x = .next ((x.setCh m (g (x.ch m))).respond .ok 0)) : Repeats i s := by
  have hph := setCh_phase (s := s) (m := m) (hphase (s.ch m))
  refine repeats_of_pendBusy (by rwa [setCh_out]) ?_ (h s rfl rfl) ?_
  · rw [setCh_drv, bothIdle_of_channels hph]
    exact hpend
  · have hbusy : (s.setCh m (g (s.ch m))).busy m = s.busy m := by
      rw [busy_eq, busy_eq, Channel.busy, Channel.busy, hph]
    rw [h _ (setCh_cfg ..) hbusy, setCh_ch_same, hidem, setCh_setCh]

/-- DIRFWD and DIRBWD repeat, refused or not (R183, R184). -/
theorem repeats_of_steer {m : Chan} {b : Bool} (h : ∀ x : State, exec i x = .next (x.steer m b)) : Repeats i s := by
  rcases steer_cases s m b with ⟨-, e⟩ | ⟨hidle, -⟩
  · exact repeats_of_answer hout hpend ((h s).trans (congrArg _ e))
  · refine repeats_of_setCh hout hpend (m := m) (g := (Channel.setDirection · (s.cfg.invert m) b)) (fun _ => rfl)
      (fun _ => rfl) fun x hcfg hbusy => ?_
    rw [h, State.steer, hbusy, hidle, hcfg]
    rfl

/-- STOP leaves the channel Idle, so the second STOP only answers, also where the first let post_event apply a mode
(R116, R154). -/
theorem repeats_stop (m : Chan) : Repeats (.stop m) s := by
  rcases execStop_cases s m with ⟨-, h⟩ | ⟨-, h⟩
  · refine ⟨_, _, _, by rwa [setCh_out], h, ?_⟩
    have hidle : (s.setCh m (s.ch m).clearMove).postEvent.busy m = false := by
      rw [busy_eq, postEvent_ch, setCh_ch_same, clearMove_busy]
    rcases execStop_cases (s.setCh m (s.ch m).clearMove).postEvent m with ⟨hbusy, -⟩ | ⟨-, hagain⟩
    · cases hidle.symm.trans hbusy
    · exact hagain
  · exact repeats_of_answer hout hpend h

/-- SETMODE repeats: at once, pending or refused (R115). -/
theorem repeats_setmode (k : Data) : Repeats (.setmode k) s := by
  cases hk : StepMode.ofCode (operandU32 k) with
  | none => exact repeats_of_answer hout hpend (by simp only [exec, execSetmode, hk]; rfl)
  | some md =>
    have h : ∀ x : State, exec (.setmode k) x = .next ((x.selectMode md).respond .ok 0) := fun x => by
      simp only [exec, execSetmode, hk]
    have hkept : (s.selectMode md).out = .none := by
      rcases selectMode_cases s md with ⟨-, e⟩ | ⟨-, e⟩ <;> rw [e] <;> exact hout
    exact repeats_of_pendBusy hkept (selectMode_pendBusy hpend md) (h s) (by rw [h, selectMode_selectMode])

/-- Every command repeats but MOVE with a count and TICK with a mask (R63). -/
theorem repeats_of_exec (hmove : ∀ m n, i = .move m n → n = 0) (htick : ∀ k, i = .tick k → k = 0) : Repeats i s := by
  cases i with
  | nop => exact repeats_of_answer hout hpend rfl
  | setacc m a =>
    exact repeats_of_setCh hout hpend (g := ({ · with accel := a })) (fun _ => rfl) (fun _ => rfl) fun _ _ _ => rfl
  | setspd m v =>
    exact repeats_of_setCh hout hpend (g := ({ · with tspeed := v })) (fun _ => rfl) (fun _ => rfl) fun _ _ _ => rfl
  | move m n =>
    rcases execMove_cases s m n with ⟨-, h⟩ | ⟨-, -, h⟩ | ⟨-, hn, -⟩
    · exact repeats_of_answer hout hpend h
    · exact repeats_of_answer hout hpend h
    · exact absurd (hmove m n rfl) hn
  | stop m => exact repeats_stop hout hpend m
  | dirfwd m => exact repeats_of_steer hout hpend (b := false) fun _ => rfl
  | dirbwd m => exact repeats_of_steer hout hpend (b := true) fun _ => rfl
  | busy m => exact repeats_of_answer hout hpend rfl
  | enable e => exact repeats_of_pendBusy (w := { s with drv := { s.drv with en := e } }) hout hpend rfl rfl
  | setmode k => exact repeats_setmode hout hpend k
  | setspr n =>
    rcases execSetspr_cases s n with ⟨-, h⟩ | ⟨hn, h⟩
    · exact repeats_of_answer hout hpend h
    · rcases execSetspr_cases { s with drv := { s.drv with spr := n } } n with ⟨hzero, -⟩ | ⟨-, hagain⟩
      · exact absurd hzero hn
      · exact repeats_of_pendBusy (w := { s with drv := { s.drv with spr := n } }) hout hpend h hagain
  | rdreg r =>
    rcases execRdreg_cases s r with ⟨-, v, -, h⟩ | ⟨-, -, h⟩ <;> exact repeats_of_answer hout hpend h
  | tick k =>
    cases htick k rfl
    exact repeats_of_answer hout hpend rfl

end Repeats

/-! ### Two command events in a row -/

/-- An event takes one input and leaves the later ones (R67). -/
theorem event_inputs {s t : State} {x : Input} {rest : List Input} (h : s.inputs = x :: rest) (hx : ∀ b, x ≠ .cmdByte b)
    (ht : step s = .next t) : t.inputs = rest := by
  rcases step_cases h hx ht with ⟨-, rfl⟩ | ⟨i, u, -, he, rfl⟩ | ⟨k, -, rfl⟩ | ⟨-, -, rfl⟩
  · rfl
  · obtain ⟨-, hinputs, -⟩ := exec_keepsSurroundings he
    rw [postEvent_inputs, hinputs]
  · simp
  · simp

/-- post_event after post_event changes nothing, wherever the inputs stand (R116). -/
theorem postEvent_again (s : State) (ins : List Input) :
    ({ s.postEvent with inputs := ins } : State).postEvent = { s.postEvent with inputs := ins } :=
  postEvent_of_pendBusy (postEvent_pendBusy s)

/-- An event that gives the answer of the event before it, with no pulse, leaves the outputs as they were. -/
theorem beginEvent_respond_of_out {s : State} {e : Status} {d : Data} (h : s.out = ⟨some ⟨e, d⟩, false, false⟩) :
    s.beginEvent.respond e d = s :=
  congrArg (fun o => ({ s with out := o } : State)) h.symm

/-- A command word that repeats, delivered again in the state that it left, changes nothing but the inputs. -/
theorem runCmd_again {c : Word} {i : Instr} (hd : decode c = .instr i) {s t : State} (h : Repeats i s.beginEvent)
    (ht : s.runCmd c = .next t) (ins : List Input) :
    ({ t with inputs := ins } : State).runCmd c = .next { t with inputs := ins } := by
  obtain ⟨w, e, d, hout, hfirst, hagain⟩ := h
  rw [runCmd_instr s hd, hfirst, finishEvent_next] at ht
  cases ht
  have hbegin : ({ (w.respond e d).postEvent with inputs := ins } : State).beginEvent =
      { w.postEvent with inputs := ins } := by
    rw [postEvent_respond]
    exact congrArg (fun o => ({ w.postEvent with inputs := ins, out := o } : State)) ((postEvent_out w).trans hout).symm
  rw [runCmd_instr _ hd, hbegin, exec_withInputs hagain, finishEvent_next, ← postEvent_respond, postEvent_again]

/-- An illegal word repeated answers ILLEGAL_COMMAND again (R87, R221). -/
theorem runCmd_illegal_again {c : Word} {why : Illegal} (hd : decode c = .illegal why) {s t : State}
    (ht : s.runCmd c = .next t) (ins : List Input) :
    ({ t with inputs := ins } : State).runCmd c = .next { t with inputs := ins } := by
  rw [runCmd_illegal s hd] at ht
  cases ht
  rw [runCmd_illegal _ hd, beginEvent_respond_of_out, postEvent_again]
  exact postEvent_out _

/-- Settles O21: the first event leaves the second command word, and nothing else of the two, at the inputs. -/
theorem repeatedCommandChangesNothing : Obligations.RepeatedCommandChangesNothing := by
  intro s t t2 c rest hpend hmove htick h1 h2
  have hinputs : t.inputs = .cmd c :: rest := event_inputs rfl (by simp) h1
  have hfirst : ({ s with inputs := .cmd c :: rest } : State).runCmd c = .next t := h1
  rw [step_cons t hinputs] at h2
  have hagain : ({ t with inputs := rest } : State).runCmd c = .next { t with inputs := rest } := by
    cases hd : decode c with
    | instr i =>
      refine runCmd_again (s := { s with inputs := .cmd c :: rest }) hd (repeats_of_exec rfl hpend ?_ ?_) hfirst rest
      · exact fun m n hi => hmove m n (hi ▸ hd)
      · exact fun k hi => htick k (hi ▸ hd)
    | illegal why => exact runCmd_illegal_again hd hfirst rest
  cases hagain.symm.trans h2
  rfl

end Sys2Proof.Machine
end

section
/-! The round trips of encoding (R81 to R86, R91): the IMM field and the M bit of a command and of its word carry the same
operands in both directions. -/

namespace Sys2Proof

/-! ### From a command to its word's fields -/

/-- The must-be-zero bits of a command's IMM field are 0 (R84). -/
theorem zeroBitsOk_imm (i : Instr) : i.op.immForm.zeroBitsOk i.imm = true := by
  cases i with
  | setacc | setspd | move | setmode | setspr => rfl
  | nop | stop | dirfwd | dirbwd | busy => rfl
  | enable e => exact beq_iff_eq.2 BitVec.extractLsb'_append_eq_left
  | rdreg r => exact beq_iff_eq.2 BitVec.extractLsb'_append_eq_left
  | tick k => exact beq_iff_eq.2 BitVec.extractLsb'_append_eq_left

/-- A class G command's word has M = 0 (R83). -/
theorem mBit_of_global {i : Instr} (h : i.op.cmdClass = .global) : i.mBit = false := by
  cases i with
  | nop | enable | setmode | setspr | rdreg | tick => rfl
  | setacc | setspd | move | stop | dirfwd | dirbwd | busy => cases h

/-- A command is built again from its mnemonic, its M bit and its IMM field (R83, R84). -/
theorem build_of_fields (i : Instr) : i.op.build (Chan.ofBit i.mBit) i.imm = i := by
  cases i with
  | nop | setmode | setspr => rfl
  | setacc m | setspd m | move m | stop m | dirfwd m | dirbwd m | busy m => cases m <;> rfl
  | enable e => cases e <;> rfl
  | rdreg r => exact congrArg Instr.rdreg BitVec.extractLsb'_append_eq_right
  | tick k => exact congrArg Instr.tick BitVec.extractLsb'_append_eq_right

/-- The reserved fields of a command's word are legal (R83, R84, R86). -/
theorem fieldsLegal_encode (i : Instr) : fieldsLegal i.op.cmdClass i.op.immForm (encode i) := by
  obtain ⟨-, hrsv, hselr, -, himm, hsel⟩ := encode_fields i
  refine ⟨hrsv, fun _ => hselr, fun hg => ?_, himm ▸ zeroBitsOk_imm i⟩
  rw [hsel, mBit_of_global hg]
  rfl

/-- Settles O2: the fields of a command's word are legal, and they build the command. -/
theorem decodeOfEncode : Obligations.DecodeOfEncode := by
  intro i
  obtain ⟨hopc, -, -, hm, himm, -⟩ := encode_fields i
  refine (decode_instr_iff _ i).2 ⟨i.op, ?_, fieldsLegal_encode i, ?_⟩
  · rw [hopc, ofOpc_opc]
  · rw [hm, himm, build_of_fields]

/-! ### From a word's fields to its command -/

/-- A value is its high part and its low part. -/
theorem high_append_low {n k : Nat} (x : BitVec (n + k)) : x.extractLsb' k n ++ x.extractLsb' 0 k = x := by
  rw [BitVec.extractLsb'_append_extractLsb'_eq_extractLsb' (Nat.zero_add k).symm, BitVec.extractLsb'_eq_self]

/-- A value whose high part is 0 is its low part under zeros. -/
theorem zeros_append_low {n k : Nat} {x : BitVec (n + k)} (h : x.extractLsb' k n = 0#n) :
    0#n ++ x.extractLsb' 0 k = x := by
  rw [← h, high_append_low]

/-- The lowest bit as a field of one bit. -/
theorem ofBool_getLsbD_zero {n : Nat} (x : BitVec n) : BitVec.ofBool (x.getLsbD 0) = x.extractLsb' 0 1 := by
  apply BitVec.eq_of_getLsbD_eq
  simp

/-- A built command holds every bit of an IMM field whose must-be-zero bits are 0 (R84). -/
theorem imm_build {op : Op} {imm : Data} (m : Chan) (h : op.immForm.zeroBitsOk imm = true) :
    (op.build m imm).imm = imm := by
  cases op with
  | setacc | setspd | move | setmode | setspr => rfl
  | nop | stop | dirfwd | dirbwd | busy => exact (beq_iff_eq.1 h).symm
  | enable =>
    refine Eq.trans ?_ (zeros_append_low (n := 31) (k := 1) (beq_iff_eq.1 h))
    exact congrArg (0#31 ++ ·) (ofBool_getLsbD_zero imm)
  | rdreg => exact zeros_append_low (n := 24) (k := 8) (beq_iff_eq.1 h)
  | tick => exact zeros_append_low (n := 30) (k := 2) (beq_iff_eq.1 h)

/-- A class P command holds its channel in the M bit (R83). -/
theorem mBit_build_of_perChannel {op : Op} (m : Chan) (imm : Data) (h : op.cmdClass = .perChannel) :
    (op.build m imm).mBit = m.bit := by
  cases op with
  | setacc | setspd | move | stop | dirfwd | dirbwd | busy => rfl
  | nop | enable | setmode | setspr | rdreg | tick => cases h

/-- SEL is 0 exactly when SELR and M are 0 (R81). -/
theorem selField_eq_zero_iff (w : Word) : selField w = 0 ↔ selrField w = 0 ∧ mField w = false := by
  rw [selField_eq]
  generalize selrField w = r
  cases mField w <;> revert r <;> decide

/-- The two parts of SEL in a legal word: SELR is 0, and M is the M bit of the command it builds (R83). -/
theorem sel_of_fieldsLegal {op : Op} {w : Word} (h : fieldsLegal op.cmdClass op.immForm w) :
    selrField w = 0 ∧ (op.build (Chan.ofBit (mField w)) (immField w)).mBit = mField w := by
  obtain ⟨-, hp, hg, -⟩ := h
  cases hc : op.cmdClass with
  | perChannel => exact ⟨hp hc, (mBit_build_of_perChannel _ _ hc).trans (bit_ofBit _)⟩
  | global =>
    obtain ⟨hr, hm⟩ := (selField_eq_zero_iff w).1 (hg hc)
    exact ⟨hr, (mBit_of_global (by rw [build_op, hc])).trans hm.symm⟩

/-- Settles O3: a legal word is the concatenation of its five fields, and the encoder writes each of them back. -/
theorem encodeOfDecode : Obligations.EncodeOfDecode := by
  intro w i h
  obtain ⟨op, hop, hl, rfl⟩ := (decode_instr_iff w i).1 h
  obtain ⟨hselr, hm⟩ := sel_of_fieldsLegal hl
  obtain ⟨hrsv, -, -, himm⟩ := hl
  rw [encode_eq_fieldsWord, build_op, hm, imm_build _ himm, opc_of_ofOpc hop]
  conv_rhs => rw [word_eq_fields w, hselr, hrsv]
  rfl

/-- Settles O1: each word is the one its command encodes to (R85). -/
theorem tableWordsDecode : Obligations.TableWordsDecode :=
  ⟨decodeOfEncode .nop, decodeOfEncode (.setacc .m0 0xFFFFFFFF), decodeOfEncode (.setspd .m1 800),
    decodeOfEncode (.move .m0 0x80000000), decodeOfEncode (.stop .m1), decodeOfEncode (.dirfwd .m0),
    decodeOfEncode (.dirbwd .m1), decodeOfEncode (.busy .m1), decodeOfEncode (.enable true), decodeOfEncode (.setmode 5),
    decodeOfEncode (.setspr 200), decodeOfEncode (.rdreg 0xFF), decodeOfEncode (.tick 2)⟩

end Sys2Proof
end

section
/-! The opcode map as masks and matches against the field tests (R85, R86), and the list of the illegal encodings (R87). -/

namespace Sys2Proof

open Machine

/-! ### A mask, field by field -/

/-- The bits of IMM that an operand form wants to be 0 (R84). -/
def ImmForm.zeroMask : ImmForm → Data
  | .u32 | .s32 => 0#32
  | .b1 => BitVec.allOnes 31 ++ 0#1
  | .r8 => BitVec.allOnes 24 ++ 0#8
  | .m2 => BitVec.allOnes 30 ++ 0#2
  | .z => BitVec.allOnes 32

/-- The bit of a mask at M: a class P command leaves M free (R83). -/
def CmdClass.mMask : CmdClass → BitVec 1
  | .perChannel => 0#1
  | .global => 1#1

/-- Equal concatenations have equal parts. -/
theorem append_eq_append_iff {n k : Nat} (a b : BitVec n) (c d : BitVec k) : a ++ c = b ++ d ↔ a = b ∧ c = d := by
  refine ⟨fun h => ⟨?_, ?_⟩, fun ⟨hab, hcd⟩ => hab ▸ hcd ▸ rfl⟩
  · simpa only [BitVec.extractLsb'_append_eq_left] using congrArg (·.extractLsb' k n) h
  · simpa only [BitVec.extractLsb'_append_eq_right] using congrArg (·.extractLsb' 0 k) h

/-- A value with its low part masked away is 0 exactly when its high part is. -/
theorem and_high_eq_zero_iff {n k : Nat} (x : BitVec (n + k)) :
    x &&& (BitVec.allOnes n ++ 0#k) = 0#(n + k) ↔ x.extractLsb' k n = 0#n := by
  conv_lhs => rw [← high_append_low x, BitVec.and_append, BitVec.and_allOnes, BitVec.and_zero, ← BitVec.zero_append_zero]
  rw [append_eq_append_iff]
  exact and_iff_left rfl

/-- The must-be-zero bits of IMM, as a mask (R84). -/
theorem and_zeroMask_iff (form : ImmForm) (imm : Data) :
    imm &&& form.zeroMask = 0#32 ↔ form.zeroBitsOk imm = true := by
  cases form with
  | u32 | s32 => exact iff_of_true BitVec.and_zero rfl
  | b1 => exact (and_high_eq_zero_iff (n := 31) (k := 1) imm).trans beq_iff_eq.symm
  | r8 => exact (and_high_eq_zero_iff (n := 24) (k := 8) imm).trans beq_iff_eq.symm
  | m2 => exact (and_high_eq_zero_iff (n := 30) (k := 2) imm).trans beq_iff_eq.symm
  | z => exact (Eq.congr_left BitVec.and_allOnes).trans beq_iff_eq.symm

/-- The tests of SELR and SEL are one test: SELR is 0, and M is 0 unless the class leaves it free (R83). -/
theorem sel_legal_iff (cls : CmdClass) (w : Word) :
    (selrField w = 0 ∧ BitVec.ofBool (mField w) &&& cls.mMask = 0#1) ↔
      (cls = .perChannel → selrField w = 0) ∧ (cls = .global → selField w = 0) := by
  have hm : BitVec.ofBool (mField w) &&& 1#1 = 0#1 ↔ mField w = false := by cases mField w <;> decide
  cases cls with
  | perChannel => simp [CmdClass.mMask]
  | global =>
    rw [selField_eq_zero_iff]
    simp [CmdClass.mMask, hm]

/-- Each row's mask and match by their fields, from the class and the form of its mnemonic (R85). -/
theorem opcodeMap_fields : ∀ row ∈ opcodeMap,
    row.mask = BitVec.allOnes 8 ++ BitVec.allOnes 7 ++ row.op.cmdClass.mMask ++ BitVec.allOnes 16 ++
      row.op.immForm.zeroMask ∧
    row.matchWord = row.op.opc ++ 0#7 ++ 0#1 ++ 0#16 ++ 0#32 := by decide

/-- What a mask leaves of a word: OPC, SELR and RSV whole, and the bits of M and IMM that must be 0 (R85). -/
theorem and_mask_fields (w : Word) (cls : CmdClass) (form : ImmForm) :
    w &&& (BitVec.allOnes 8 ++ BitVec.allOnes 7 ++ cls.mMask ++ BitVec.allOnes 16 ++ form.zeroMask) =
      opcField w ++ selrField w ++ (BitVec.ofBool (mField w) &&& cls.mMask) ++ rsvField w ++
        (immField w &&& form.zeroMask) := by
  conv_lhs => rw [word_eq_fields w]
  refine (Laws.MatchesRow.fields_and ..).trans ?_
  rw [BitVec.and_allOnes, BitVec.and_allOnes, BitVec.and_allOnes]

/-- Two words of five fields are equal exactly when the fields are (R81). -/
theorem fields_eq_iff (o1 o2 : Byte) (r1 r2 : BitVec 7) (m1 m2 : BitVec 1) (v1 v2 : BitVec 16) (i1 i2 : Data) :
    o1 ++ r1 ++ m1 ++ v1 ++ i1 = o2 ++ r2 ++ m2 ++ v2 ++ i2 ↔ o1 = o2 ∧ r1 = r2 ∧ m1 = m2 ∧ v1 = v2 ∧ i1 = i2 := by
  rw [append_eq_append_iff, append_eq_append_iff, append_eq_append_iff, append_eq_append_iff, and_assoc, and_assoc,
    and_assoc]

/-- A row selects a word exactly when the word has its opcode and legal reserved fields (R86). -/
theorem row_selects_iff {row : OpcodeRow} (hrow : row ∈ opcodeMap) (w : Word) :
    w &&& row.mask = row.matchWord ↔
      row.op.opc = opcField w ∧ fieldsLegal row.op.cmdClass row.op.immForm w := by
  obtain ⟨hmask, hmatch⟩ := opcodeMap_fields row hrow
  rw [hmask, hmatch, and_mask_fields]
  refine (fields_eq_iff ..).trans ?_
  rw [and_zeroMask_iff]
  have hsel := sel_legal_iff row.op.cmdClass w
  constructor
  · rintro ⟨hopc, hselr, hm, hrsv, himm⟩
    obtain ⟨hp, hg⟩ := hsel.1 ⟨hselr, hm⟩
    exact ⟨hopc.symm, hrsv, hp, hg, himm⟩
  · rintro ⟨hopc, hrsv, hp, hg, himm⟩
    obtain ⟨hselr, hm⟩ := hsel.2 ⟨hp, hg⟩
    exact ⟨hopc.symm, hselr, hm, hrsv, himm⟩

/-! ### The selected rows -/

/-- The opcode map has one row of each mnemonic (R85). -/
theorem opcodeMap_filter_op (op : Op) : ∃ row, opcodeMap.filter (fun r => r.op == op) = [row] ∧ row.op = op := by
  cases op <;> exact ⟨_, rfl, rfl⟩

/-- The opcode byte that a row wants is its mnemonic's (R85). -/
theorem opc_eq_iff_ofOpc (op : Op) (b : Byte) : op.opc = b ↔ Op.ofOpc b = some op :=
  ⟨fun h => h ▸ ofOpc_opc op, opc_of_ofOpc⟩

/-- A legal word selects the one row of its opcode's mnemonic (R86). -/
theorem selectedRows_of_legal {op : Op} {w : Word} (hop : Op.ofOpc (opcField w) = some op)
    (hl : fieldsLegal op.cmdClass op.immForm w) : ∃ row, selectedRows w = [row] ∧ row.op = op := by
  obtain ⟨row, hfilter, hrow⟩ := opcodeMap_filter_op op
  refine ⟨row, ?_, hrow⟩
  rw [← hfilter]
  refine List.filter_congr fun r hr => ?_
  rw [Bool.eq_iff_iff, beq_iff_eq, beq_iff_eq, row_selects_iff hr, opc_eq_iff_ofOpc, hop, Option.some.injEq]
  exact ⟨fun ⟨h, _⟩ => h.symm, fun h => ⟨h.symm, h ▸ hl⟩⟩

/-- An illegal word selects no row (R86). -/
theorem selectedRows_of_illegal {w : Word}
    (h : ∀ op, Op.ofOpc (opcField w) = some op → ¬ fieldsLegal op.cmdClass op.immForm w) : selectedRows w = [] := by
  refine List.filter_eq_nil_iff.2 fun r hr => ?_
  rw [beq_iff_eq, row_selects_iff hr, opc_eq_iff_ofOpc]
  exact fun ⟨hop, hl⟩ => h r.op hop hl

/-- Settles O4: a word selects one row exactly when its fields are legal, and then both forms build the same command. -/
theorem decoderFormsAgree : Obligations.DecoderFormsAgree := by
  intro w
  cases hd : decode w with
  | instr i =>
    obtain ⟨op, hop, hl, rfl⟩ := (decode_instr_iff w i).1 hd
    obtain ⟨row, hrows, rfl⟩ := selectedRows_of_legal hop hl
    exact ⟨by simp only [decodeByMap, hrows, Decoded.toOption], by simp [hrows]⟩
  | illegal why =>
    have hrows := selectedRows_of_illegal ((decode_illegal_iff w).1 ⟨why, hd⟩)
    exact ⟨by simp only [decodeByMap, hrows, Decoded.toOption], by simp [hrows]⟩

/-! ### The illegal encodings -/

/-- The class P opcodes (R85). -/
theorem perChannel_iff_opc (op : Op) : op.cmdClass = .perChannel ↔ 0x01 ≤ op.opc.toNat ∧ op.opc.toNat ≤ 0x07 := by
  cases op <;> decide

/-- The two classes (R83). -/
theorem global_iff_not_perChannel (cls : CmdClass) : cls = .global ↔ ¬ cls = .perChannel := by cases cls <;> decide

/-- A value has a bit set from bit k on exactly when it is 2^k or more. -/
theorem extractLsb'_high_ne_zero_iff {n k : Nat} (x : BitVec (n + k)) :
    (x.extractLsb' k n == 0#n) = false ↔ 2 ^ k - 1 < x.toNat := by
  have hlt : x.toNat / 2 ^ k < 2 ^ n := Nat.div_lt_of_lt_mul (by simpa only [Nat.pow_add, Nat.mul_comm] using x.isLt)
  rw [beq_eq_false_iff_ne, ne_eq, ← BitVec.toNat_inj, BitVec.extractLsb'_toNat, Nat.shiftRight_eq_div_pow,
    Nat.mod_eq_of_lt hlt, BitVec.toNat_zero, Nat.div_eq_zero_iff_lt (Nat.two_pow_pos k), Nat.not_lt]
  have := Nat.two_pow_pos k
  omega

/-- Which IMM fields have a must-be-zero bit set, by the opcode of the mnemonic (R84, R87). -/
theorem zeroBitsOk_false_iff (op : Op) (imm : Data) : op.immForm.zeroBitsOk imm = false ↔
    ((op.opc.toNat = 0x00 ∨ (0x04 ≤ op.opc.toNat ∧ op.opc.toNat ≤ 0x07)) ∧ imm ≠ 0) ∨
      (op.opc.toNat = 0x10 ∧ 1 < imm.toNat) ∨ (op.opc.toNat = 0x20 ∧ 255 < imm.toNat) ∨
      (op.opc.toNat = 0x30 ∧ 3 < imm.toNat) := by
  have hb1 := extractLsb'_high_ne_zero_iff (n := 31) (k := 1) imm
  have hr8 := extractLsb'_high_ne_zero_iff (n := 24) (k := 8) imm
  have hm2 := extractLsb'_high_ne_zero_iff (n := 30) (k := 2) imm
  cases op with
  | setacc | setspd | move | setmode | setspr => simp [Op.immForm, ImmForm.zeroBitsOk, Op.opc]
  | nop | stop | dirfwd | dirbwd | busy => simp [Op.immForm, ImmForm.zeroBitsOk, Op.opc]
  | enable => simpa [Op.immForm, ImmForm.zeroBitsOk, Op.opc, -beq_eq_false_iff_ne] using hb1
  | rdreg => simpa [Op.immForm, ImmForm.zeroBitsOk, Op.opc, -beq_eq_false_iff_ne] using hr8
  | tick => simpa [Op.immForm, ImmForm.zeroBitsOk, Op.opc, -beq_eq_false_iff_ne] using hm2

/-- The reserved fields are not legal exactly when one of the four tests of R86 fails. -/
theorem not_fieldsLegal_iff (cls : CmdClass) (form : ImmForm) (w : Word) :
    ¬ fieldsLegal cls form w ↔ rsvField w ≠ 0 ∨ (cls = .perChannel ∧ selrField w ≠ 0) ∨
      (¬ cls = .perChannel ∧ selField w ≠ 0) ∨ form.zeroBitsOk (immField w) = false := by
  unfold fieldsLegal
  rw [global_iff_not_perChannel, not_and_or, not_and_or, not_and_or, Classical.not_imp, Classical.not_imp,
    Bool.not_eq_true]

/-- A step whose input is an illegal word answers ILLEGAL_COMMAND with DATA 0 (R86). -/
theorem step_illegal {s : State} {w : Word} {rest : List Input} {why : Illegal} (hd : decode w = .illegal why)
    (h : s.inputs = .cmd w :: rest) : ∃ t, step s = .next t ∧ t.out.rsp = some ⟨.illegalCommand, 0⟩ :=
  ⟨_, (step_cons s h).trans (runCmd_illegal _ hd), by simp⟩

/-- Settles O5: by the opcode, which is unassigned or a mnemonic's, and then by the four tests of the reserved fields. -/
theorem illegalWordsExactly : Obligations.IllegalWordsExactly := by
  refine ⟨fun w why s rest hd h => step_illegal hd h, fun w => ?_⟩
  rw [decode_illegal_iff, ← ofOpc_none_iff]
  cases hop : Op.ofOpc (opcField w) with
  | none => simp
  | some op =>
    have hzero := zeroBitsOk_false_iff op (immField w)
    have hclass := perChannel_iff_opc op
    rw [opc_of_ofOpc hop] at hzero hclass
    simp only [Option.some.injEq, forall_eq', not_fieldsLegal_iff, hclass, hzero, reduceCtorEq, false_or]

end Sys2Proof
end

section
/-! The responses (R82): what a command may answer, and that a strobe and a reset answer nothing. -/

namespace Sys2Proof.Machine

open Sys2Proof

/-- A command whose response carries a datum (R82). -/
def AnswersData (i : Instr) : Prop := (∃ m, i = .busy m) ∨ (∃ n, i = .rdreg n) ∨ (∃ k, i = .tick k)

/-- A response that R82 allows for the command of an input: DATA is 0 unless the status is OK and the command is one of the
three that answer data. -/
def ResponseAllowed (i : Option Instr) (r : Response) : Prop :=
  (r.status ≠ .ok → r.data = 0) ∧ (r.data ≠ 0 → ∃ j, i = some j ∧ AnswersData j)

/-- A response with DATA 0 is allowed for every input. -/
theorem responseAllowed_zero (i : Option Instr) (e : Status) : ResponseAllowed i ⟨e, 0⟩ :=
  ⟨fun _ => rfl, fun h => absurd rfl h⟩

/-- An OK response of a command that answers data is allowed. -/
theorem responseAllowed_ok {i : Instr} (h : AnswersData i) (d : Data) : ResponseAllowed (some i) ⟨.ok, d⟩ :=
  ⟨fun h => absurd rfl h, fun _ => ⟨i, rfl, h⟩⟩

/-- DIRFWD and DIRBWD answer with DATA 0 (R183, R184). -/
theorem steer_rsp (s : State) (m : Chan) (b : Bool) : ∃ e, (s.steer m b).out.rsp = some ⟨e, 0⟩ := by
  rcases steer_cases s m b with ⟨-, h⟩ | ⟨-, h⟩ <;> rw [h] <;> exact ⟨_, rfl⟩

/-- What a command answers is allowed for it (R82). -/
theorem exec_response {i : Instr} {s t : State} (h : exec i s = .next t) :
    ∃ r, t.out.rsp = some r ∧ ResponseAllowed (some i) r := by
  have zero : (∃ e, t.out.rsp = some ⟨e, 0⟩) → ∃ r, t.out.rsp = some r ∧ ResponseAllowed (some i) r :=
    fun ⟨e, he⟩ => ⟨_, he, responseAllowed_zero _ e⟩
  cases i with
  | nop | setacc | setspd | enable => cases h; exact zero ⟨_, rfl⟩
  | move m n =>
    rcases execMove_cases s m n with ⟨-, e⟩ | ⟨-, -, e⟩ | ⟨-, -, e⟩ <;> cases e.symm.trans h <;> exact zero ⟨_, rfl⟩
  | stop m => rcases execStop_cases s m with ⟨-, e⟩ | ⟨-, e⟩ <;> cases e.symm.trans h <;> exact zero ⟨_, rfl⟩
  | dirfwd m => cases h; exact zero (steer_rsp s m false)
  | dirbwd m => cases h; exact zero (steer_rsp s m true)
  | setmode k =>
    rcases execSetmode_cases s k with ⟨-, e⟩ | ⟨-, md, -, e⟩ <;> cases e.symm.trans h <;> exact zero ⟨_, rfl⟩
  | setspr n => rcases execSetspr_cases s n with ⟨-, e⟩ | ⟨-, e⟩ <;> cases e.symm.trans h <;> exact zero ⟨_, rfl⟩
  | busy m => cases h; exact ⟨_, rfl, responseAllowed_ok (.inl ⟨m, rfl⟩) _⟩
  | rdreg r =>
    rcases execRdreg_cases s r with ⟨-, v, -, e⟩ | ⟨-, -, e⟩ <;> cases e.symm.trans h
    · exact ⟨_, rfl, responseAllowed_ok (.inr (.inl ⟨r, rfl⟩)) v⟩
    · exact zero ⟨_, rfl⟩
  | tick k => cases h; exact ⟨_, rfl, responseAllowed_ok (.inr (.inr ⟨k, rfl⟩)) _⟩

/-- A command word is answered with an allowed response, an illegal one with (ILLEGAL_COMMAND, 0) (R82, R86). -/
theorem step_command_response {s t : State} {w : Word} {rest : List Input} (h : s.inputs = .cmd w :: rest)
    (ht : step s = .next t) : ∃ r, t.out.rsp = some r ∧ ResponseAllowed (decode w).toOption r := by
  rw [step_cons s h] at ht
  rcases runCmd_cases { s with inputs := rest } w with ⟨i, u, hd, he, e⟩ | ⟨why, -, e⟩ <;> cases e.symm.trans ht <;>
    rw [postEvent_out]
  · rw [hd]
    exact exec_response he
  · exact ⟨_, rfl, responseAllowed_zero _ _⟩

/-- A strobe answers nothing (R207). -/
theorem step_strobe_rsp {s t : State} {k : BitVec 2} {rest : List Input} (h : s.inputs = .strobe k :: rest)
    (ht : step s = .next t) : t.out.rsp = none := by
  rw [step_cons s h] at ht
  cases ht
  simp [EventOut.none]

/-- A reset answers nothing (R250). -/
theorem step_reset_rsp {s t : State} {rest : List Input} (h : s.inputs = .reset :: rest) (ht : step s = .next t) :
    t.out.rsp = none := by
  cases (step_reset h).symm.trans ht
  rfl

/-- The command of a word is the one it decodes to. -/
theorem toOption_eq_some_iff (d : Decoded) (i : Instr) : d.toOption = some i ↔ d = .instr i := by
  cases d <;> simp [Decoded.toOption]

/-- Settles O13: by the three kinds of event. -/
theorem everyCommandAnswersOnce : Obligations.EveryCommandAnswersOnce := by
  rintro s t x rest h ht
  refine ⟨?_, ?_, ?_⟩
  · rintro w rfl
    obtain ⟨r, hr, herror, hdata⟩ := step_command_response h ht
    refine ⟨r, hr, by cases r.status <;> rfl, herror, fun hne => ?_⟩
    obtain ⟨i, hi, hanswers⟩ := hdata hne
    exact ⟨i, (toOption_eq_some_iff _ _).1 hi, hanswers⟩
  · rintro k rfl
    exact step_strobe_rsp h ht
  · rintro rfl
    exact step_reset_rsp h ht

end Sys2Proof.Machine
end

section
/-! The assembler (R90 to R93): a line is assembled or refused by its operands' ranges, and an operand field holds the
written number. -/

namespace Sys2Proof.Machine

open Sys2Proof

/-! ### Lines -/

/-- A well-formed line gives the words of its commands (R91). -/
theorem assembleLine_of_wellFormed {l : AsmLine} (h : l.wellFormed = true) :
    assembleLine l = some ((AsmLine.expand l).map encode) := if_pos h

/-- A line that is not well formed is refused (R91). -/
theorem assembleLine_of_not_wellFormed {l : AsmLine} (h : l.wellFormed ≠ true) : assembleLine l = none := if_neg h

/-- A line gives words only where it is well formed, and then those of its commands (R91). -/
theorem assembleLine_eq_some_iff (l : AsmLine) (ws : List Word) :
    assembleLine l = some ws ↔ l.wellFormed = true ∧ (AsmLine.expand l).map encode = ws := by
  by_cases h : l.wellFormed = true
  · simp [assembleLine_of_wellFormed h, h]
  · simp [assembleLine_of_not_wellFormed h, h]

/-- Lines with the same commands and the same refusals assemble alike (R93). -/
theorem assembleLine_congr {l k : AsmLine} (hwf : l.wellFormed = k.wellFormed)
    (hexp : AsmLine.expand l = AsmLine.expand k) : assembleLine l = assembleLine k := by
  unfold assembleLine
  rw [hwf, hexp]

/-- A line that stands for two lines gives their words in order, and is refused when one of them is (R93). -/
theorem assembleLine_eq_both {l a b : AsmLine} (hwf : l.wellFormed = (a.wellFormed && b.wellFormed))
    (hexp : AsmLine.expand l = AsmLine.expand a ++ AsmLine.expand b) :
    assembleLine l = both (assembleLine a) (assembleLine b) := by
  unfold assembleLine
  rw [hwf, hexp, List.map_append]
  cases a.wellFormed <;> cases b.wellFormed <;> rfl

/-- Settles O7: each pseudo-instruction has the ranges and the commands of the lines it stands for. -/
theorem pseudoInstructionsExpand : Obligations.PseudoInstructionsExpand :=
  ⟨assembleLine_congr rfl rfl, assembleLine_congr rfl rfl, assembleLine_congr rfl rfl, assembleLine_congr rfl rfl,
    assembleLine_congr rfl rfl, assembleLine_congr rfl rfl, assembleLine_eq_both rfl rfl,
    fun _ _ _ => assembleLine_eq_both rfl rfl, fun _ => assembleLine_eq_both (Bool.and_self _).symm rfl,
    fun _ _ => assembleLine_eq_both rfl rfl⟩

/-! ### Operand ranges and fields -/

/-- The U32 operands (R84, R91). -/
theorem u32Range_iff (a : Int) : u32Range a = true ↔ 0 ≤ a ∧ a ≤ 2 ^ 32 - 1 := by
  simp only [u32Range, Bool.and_eq_true, decide_eq_true_eq]
  omega

/-- The S32 operand (R84, R91). -/
theorem s32Range_iff (a : Int) : s32Range a = true ↔ -(2 ^ 31) ≤ a ∧ a ≤ 2 ^ 31 - 1 := by
  simp only [s32Range, Bool.and_eq_true, decide_eq_true_eq]
  omega

/-- The B1 operand (R84, R91). -/
theorem b1Range_iff (a : Int) : b1Range a = true ↔ 0 ≤ a ∧ a ≤ 1 := by
  simp only [b1Range, Bool.and_eq_true, decide_eq_true_eq]

/-- The M2 operand (R84, R91). -/
theorem m2Range_iff (a : Int) : m2Range a = true ↔ 0 ≤ a ∧ a ≤ 3 := by
  simp only [m2Range, Bool.and_eq_true, decide_eq_true_eq]

/-- A field of n bits holds every number below 2^n. -/
theorem toNat_ofInt_of_lt {n : Nat} {a : Int} (h0 : 0 ≤ a) (h : a < 2 ^ n) : ((BitVec.ofInt n a).toNat : Int) = a := by
  rw [BitVec.toNat_ofInt, Nat.cast_pow, Nat.cast_ofNat, Int.emod_eq_of_lt h0 h, Int.toNat_of_nonneg h0]

/-- Zeros above a field do not change its number. -/
theorem toNat_zero_append {n k : Nat} (x : BitVec k) : (0#n ++ x).toNat = x.toNat := by
  simp [BitVec.toNat_append]

/-- A line is assembled exactly: where its checked range is lo to hi, and where in that range its one command's word holds
the operand. -/
theorem assemblesExactly_of {line : Int → AsmLine} {value : Data → Int} {lo hi : Int} {word : Data → Word}
    (hrange : ∀ a, (line a).wellFormed = true ↔ lo ≤ a ∧ a ≤ hi)
    (hword : ∀ a, lo ≤ a ∧ a ≤ hi → ∃ x, value x = a ∧ (AsmLine.expand (line a)).map encode = [word x]) :
    AssemblesExactly line value lo hi word := by
  refine fun a => ⟨fun ha => ?_, fun ha => assembleLine_of_not_wellFormed (mt (hrange a).1 ha)⟩
  obtain ⟨x, hx, hw⟩ := hword a ha
  exact ⟨x, hx, (assembleLine_eq_some_iff _ _).2 ⟨(hrange a).2 ha, hw⟩⟩

/-- A line with a U32 operand (R84, R91): its one command's word has the operand as its IMM field. -/
theorem assemblesExactly_u32 {line : Int → AsmLine} {word : Data → Word}
    (hrange : ∀ a, (line a).wellFormed = u32Range a)
    (hword : ∀ a, (AsmLine.expand (line a)).map encode = [word (BitVec.ofInt 32 a)]) :
    AssemblesExactly line (fun x => x.toNat) 0 (2 ^ 32 - 1) word :=
  assemblesExactly_of (fun a => by rw [hrange, u32Range_iff])
    fun a ⟨h0, h⟩ => ⟨_, toNat_ofInt_of_lt h0 (by omega), hword a⟩

/-- MOVE's S32 operand (R84, R91). -/
theorem assemblesExactly_move (m : Chan) :
    AssemblesExactly (.move m) (fun x => x.toInt) (-(2 ^ 31)) (2 ^ 31 - 1) (fieldsWord 0x03 m.bit) :=
  assemblesExactly_of s32Range_iff fun a ⟨hlo, hhi⟩ =>
    ⟨BitVec.ofInt 32 a, BitVec.toInt_ofInt_eq_self (by decide) (by omega) (by omega), rfl⟩

/-- ENABLE's B1 operand (R84, R91). -/
theorem assemblesExactly_enable : AssemblesExactly .enable (fun x => x.toNat) 0 1 (fieldsWord 0x10 false) := by
  refine assemblesExactly_of b1Range_iff fun a ⟨h0, h1⟩ => ⟨0#31 ++ BitVec.ofBool (decide (a = 1)), ?_, rfl⟩
  rcases (by omega : a = 0 ∨ a = 1) with rfl | rfl <;> rfl

/-- TICK's M2 operand (R84, R91). -/
theorem assemblesExactly_tick : AssemblesExactly .tick (fun x => x.toNat) 0 3 (fieldsWord 0x30 false) :=
  assemblesExactly_of m2Range_iff fun a ⟨h0, h3⟩ => ⟨0#30 ++ BitVec.ofInt 2 a,
    (congrArg Nat.cast (toNat_zero_append _)).trans (toNat_ofInt_of_lt h0 (by omega)), rfl⟩

/-- RDREG's R8 operand as a number (R84, R91). -/
theorem assembleLine_rdreg_number (n : Nat) :
    (n ≤ 255 → ∃ x : Data, x.toNat = n ∧ assembleLine (.rdreg (.number n)) = some [fieldsWord 0x20 false x]) ∧
      (255 < n → assembleLine (.rdreg (.number n)) = none) := by
  have hrange : (AsmLine.rdreg (.number n)).wellFormed = true ↔ n ≤ 255 := decide_eq_true_iff
  refine ⟨fun h => ⟨0#24 ++ BitVec.ofNat 8 n, ?_, assembleLine_of_wellFormed (hrange.2 h)⟩, fun h => ?_⟩
  · rw [toNat_zero_append, BitVec.toNat_ofNat]
    exact Nat.mod_eq_of_lt (by omega)
  · exact assembleLine_of_not_wellFormed (mt hrange.1 (by omega))

/-- The mode names of R91, each with its number. -/
theorem assembleText_setmode_name :
    ∀ p ∈ [("full", (0 : Data)), ("half", 1), ("quarter", 2), ("eighth", 3), ("sixteenth", 4)],
      assembleText ("setmode ".toList ++ p.1.toList) = some [fieldsWord 0x11 false p.2] := by decide +kernel

/-- The words that a line gives decode to its commands (R91). -/
theorem decode_assembleLine {l : AsmLine} {ws : List Word} (h : assembleLine l = some ws) :
    ws.map decode = (AsmLine.expand l).map Decoded.instr := by
  obtain ⟨-, rfl⟩ := (assembleLine_eq_some_iff l ws).1 h
  rw [List.map_map]
  exact List.map_congr_left fun i _ => decodeOfEncode i

/-- Settles O6: one clause for each operand of R91's table. -/
theorem assemblerNeverTruncates : Obligations.AssemblerNeverTruncates := by
  unfold Obligations.AssemblerNeverTruncates
  simp only [← bit_eq_decide]
  exact ⟨fun m => assemblesExactly_u32 (fun _ => rfl) fun _ => rfl,
    fun m => assemblesExactly_u32 (fun _ => rfl) fun _ => rfl,
    assemblesExactly_move, assemblesExactly_enable,
    assemblesExactly_u32 (fun _ => rfl) fun _ => rfl, assemblesExactly_u32 (fun _ => rfl) fun _ => rfl,
    assemblesExactly_tick, assembleLine_rdreg_number, rfl, fun m => ⟨rfl, rfl, rfl, rfl⟩,
    fun name k h => assembleText_setmode_name (name, k) h, fun l ws => decode_assembleLine⟩

/-! ### Register names -/

/-- The names of the block's registers (R92). -/
theorem assembleText_rdreg_name :
    ∀ p ∈ [("drvcfg", (0x00 : Byte)), ("spr", 0x01), ("params", 0x02), ("ftick", 0x03)],
      assembleText ("rdreg ".toList ++ p.1.toList) = some [encode (.rdreg p.2)] := by decide +kernel

/-- The names of the two channels' registers (R92). -/
theorem assembleText_rdreg_chanName :
    ∀ p ∈ [("mstat", (0x10 : Byte)), ("accel", 0x11), ("tspeed", 0x12), ("aact", 0x13), ("vact", 0x14), ("remain", 0x15),
        ("speedlo", 0x16), ("speedhi", 0x17), ("phacclo", 0x18), ("phacchi", 0x19), ("pulsecnt", 0x1A)],
      assembleText ("rdreg ".toList ++ p.1.toList ++ ['0']) = some [encode (.rdreg p.2)] ∧
        assembleText ("rdreg ".toList ++ p.1.toList ++ ['1']) = some [encode (.rdreg (p.2 + 0x10))] := by decide +kernel

/-- Settles O8: each name of R92's two lists is read and assembled. -/
theorem registerNamesStandForNumbers : Obligations.RegisterNamesStandForNumbers :=
  ⟨fun name n h => assembleText_rdreg_name (name, n) h, fun name n h => assembleText_rdreg_chanName (name, n) h⟩

end Sys2Proof.Machine
end

section
/-! The heading of a command rule (R85): what the words with an assigned opcode mean. -/

namespace Sys2Proof

/-- A word with the opcode of a mnemonic is that command, built from its M and IMM fields, when its reserved fields are
legal, and an illegal word otherwise (R83 to R87). -/
theorem wordMeans_op (op : Op) : WordMeans op.opc op.cmdClass op.immForm op.build := by
  intro w hw
  have hop : Op.ofOpc (opcField w) = some op := by rw [hw, ofOpc_opc]
  refine ⟨fun hl => (decode_instr_iff w _).2 ⟨op, hop, hl, rfl⟩, fun hl => (decode_illegal_iff w).2 fun op' hop' => ?_⟩
  cases hop.symm.trans hop'
  exact hl

end Sys2Proof
end

section
/-! The commands of the driver configuration (R110 to R117): ENABLE, SETMODE and SETSPR write no channel and no
surroundings. -/

namespace Sys2Proof.Machine

open Sys2Proof

/-- Writing the driver configuration leaves the channels alone. -/
theorem writeDrv_ch (s : State) (d : DriverConfig) (m : Chan) : ({ s with drv := d } : State).ch m = s.ch m := by
  cases m <;> rfl

/-- Settles O41: ENABLE writes EN without a test. -/
theorem enableDrivesTheEnableLine : Obligations.EnableDrivesTheEnableLine :=
  ⟨wordMeans_op .enable, fun e s =>
    ⟨_, rfl, rfl, rfl, writeDrv_ch s { s.drv with en := e }, rfl, rfl, rfl, rfl⟩⟩

/-- Settles O43: SETSPR refuses 0, and the register that it writes drives no level (R117). -/
theorem setsprStoresAPositive : Obligations.SetsprStoresAPositive := by
  refine ⟨wordMeans_op .setspr, fun n s => ?_⟩
  rcases execSetspr_cases s n with ⟨hzero, h⟩ | ⟨hpos, h⟩
  · exact ⟨fun _ => h, absurd hzero⟩
  · exact ⟨(absurd · hpos), fun _ =>
      ⟨_, h, rfl, writeDrv_ch s { s.drv with spr := n }, rfl, rfl, rfl, rfl, rfl, rfl⟩⟩

/-- Settles O42: a refused value only answers, and a supported one is written as the busy tests say (R115). -/
theorem setmodeAppliesOrDefers : Obligations.SetmodeAppliesOrDefers := by
  refine ⟨wordMeans_op .setmode, fun k s => ?_⟩
  rcases execSetmode_cases s k with ⟨hk, h⟩ | ⟨hk, md, hcode, h⟩
  · exact ⟨fun _ => h, fun hle => absurd hk (Nat.not_lt.2 hle)⟩
  refine ⟨fun hgt => absurd hk (Nat.not_le.2 hgt), fun _ => ⟨md, _, ?_, h, ?_⟩⟩
  · rw [← hcode]; cases md <;> rfl
  rcases selectMode_cases s md with ⟨hidle, e⟩ | ⟨hbusy, e⟩ <;> rw [e]
  · exact ⟨fun _ => ⟨rfl, rfl⟩, fun hb => (nomatch hidle.symm.trans hb),
      writeDrv_ch s { s.drv with mode := md }, rfl, rfl, rfl, rfl⟩
  · exact ⟨fun hi => (nomatch hbusy.symm.trans hi), fun _ => rfl,
      writeDrv_ch s { s.drv with modeNext := md, modePend := true }, rfl, rfl, rfl, rfl⟩

end Sys2Proof.Machine
end

section
/-! The deferred mode application (R116): post_event is what ends the wait of a pending mode. -/

namespace Sys2Proof.Machine

open Sys2Proof

/-- post_event with a mode pending and both channels Idle applies the mode (R116). -/
theorem postEvent_of_pending_idle {s : State} (hp : s.drv.modePend = true) (hb : s.bothIdle = true) :
    s.postEvent = { s with drv := { s.drv with mode := s.drv.modeNext, modePend := false } } := by
  simp [State.postEvent, hp, hb]

/-- An event other than SETMODE and reset reaches the three mode registers only through its post_event (R32, R116). -/
theorem event_keeps_mode {s t : State} {x : Input} {rest : List Input} (h : s.inputs = x :: rest)
    (hx : ∀ b, x ≠ .cmdByte b) (hr : x ≠ .reset) (hmode : ∀ k, inputCommand x ≠ some (.setmode k))
    (ht : step s = .next t) :
    ∃ u : State, t = u.postEvent ∧ u.drv.mode = s.drv.mode ∧ u.drv.modePend = s.drv.modePend ∧
      u.drv.modeNext = s.drv.modeNext := by
  obtain ⟨u, rfl, -, hu⟩ := step_drv_cases h hx hr ht
  refine ⟨u, rfl, ?_⟩
  rcases hu with e | ⟨_, -, e⟩ | ⟨_, -, -, e⟩ | ⟨k, _, hi, -⟩ | ⟨k, _, hi, -⟩
  case inr.inr.inr.inl | inr.inr.inr.inr => exact absurd hi (hmode k)
  all_goals simp [e]

/-- Settles O17: post_event ends every event, and only SETMODE and reset write the mode registers before it. -/
theorem pendingModeAppliedWhenBothIdle : Obligations.PendingModeAppliedWhenBothIdle := by
  intro s t x rest h hx ht
  refine ⟨event_pendBusy h hx ht, fun hpend hr hset => ?pending, fun hpend hr hset => ?settled⟩
  case pending =>
    obtain ⟨u, rfl, hmode, hp, hnext⟩ := event_keeps_mode h hx hr hset ht
    rw [postEvent_modeNext, postEvent_bothIdle]
    refine ⟨hnext, fun hidle => ?applied, fun hbusy => ?waiting⟩
    case applied =>
      rw [postEvent_of_pending_idle (hp.trans hpend) hidle]
      exact ⟨hnext, rfl⟩
    case waiting =>
      rw [postEvent_of_busy hbusy]
      exact ⟨hmode, hp.trans hpend⟩
  case settled =>
    obtain ⟨u, rfl, hmode, hp, hnext⟩ := event_keeps_mode h hx hr hset ht
    rw [postEvent_of_not_pending (hp.trans hpend)]
    exact ⟨hmode, hp.trans hpend, hnext⟩

end Sys2Proof.Machine
end

section
/-! EN reaches nothing but the enable output (R112): a state with another EN runs the same. -/

namespace Sys2Proof.Machine

open Sys2Proof

/-- The state with another EN. -/
def State.withEn (s : State) (b : Bool) : State := { s with drv := { s.drv with en := b } }

/-! ### The operations of a command do not look at EN -/

section En

variable (s : State) (b : Bool) (m : Chan)

@[simp] theorem withEn_ch : (s.withEn b).ch m = s.ch m := writeDrv_ch s _ m

@[simp] theorem withEn_cfg : (s.withEn b).cfg = s.cfg := rfl

@[simp] theorem withEn_busy : (s.withEn b).busy m = s.busy m := by rw [busy_eq, busy_eq, withEn_ch]

@[simp] theorem withEn_bothIdle : (s.withEn b).bothIdle = s.bothIdle := rfl

@[simp] theorem withEn_setCh (c : Channel) : (s.withEn b).setCh m c = (s.setCh m c).withEn b := by cases m <;> rfl

@[simp] theorem withEn_respond (e : Status) (d : Data) : (s.withEn b).respond e d = (s.respond e d).withEn b := rfl

@[simp] theorem withEn_emit : (s.withEn b).emit m = (s.emit m).withEn b := by cases m <;> rfl

@[simp] theorem withEn_beginEvent : (s.withEn b).beginEvent = s.beginEvent.withEn b := rfl

theorem withEn_postEvent : (s.withEn b).postEvent = s.postEvent.withEn b := by
  unfold State.postEvent
  have hpend : (s.withEn b).drv.modePend = s.drv.modePend := rfl
  rw [withEn_bothIdle, hpend]
  split <;> rfl

theorem withEn_steer (backwards : Bool) : (s.withEn b).steer m backwards = (s.steer m backwards).withEn b := by
  simp only [State.steer, raise_eq, withEn_busy, withEn_ch, withEn_cfg, withEn_setCh, withEn_respond]
  split <;> rfl

theorem withEn_selectMode (md : StepMode) : (s.withEn b).selectMode md = (s.selectMode md).withEn b := by
  unfold State.selectMode
  rw [withEn_bothIdle]
  split <;> rfl

theorem withEn_tickIf (k : BitVec 2) : (s.withEn b).tickIf k m = (s.tickIf k m).withEn b := by
  simp only [State.tickIf, tickChan_eq, withEn_ch, withEn_cfg, withEn_setCh, withEn_emit]
  split_ifs <;> rfl

theorem withEn_tickMask (k : BitVec 2) : (s.withEn b).tickMask k = (s.tickMask k).withEn b := by
  rw [State.tickMask, withEn_tickIf, withEn_tickIf, State.tickMask]

theorem withEn_tickWord (k : BitVec 2) : (s.withEn b).tickWord k = s.tickWord k := by
  simp only [tickWord_eq, State.bitsIf, State.tickBits, withEn_ch, withEn_cfg]

/-- DRVCFG is the one register that shows EN (R24). -/
theorem withEn_readReg {r : Reg} (hr : r ≠ .drvcfg) : (s.withEn b).readReg r = s.readReg r := by
  cases r with
  | drvcfg => exact absurd rfl hr
  | spr | params | ftick => rfl
  | chan m r => exact congrArg (Channel.readReg · r) (withEn_ch s b m)

/-- Number 0 is the one that reads DRVCFG (R30). -/
theorem withEn_regRead {r : Byte} (hr : r ≠ 0) : (s.withEn b).regRead r = s.regRead r := by
  unfold State.regRead
  cases h : regOfNumber r with
  | none => rfl
  | some reg =>
    have hnum : regNumber reg = r := by simpa using List.find?_some h
    have hreg : reg ≠ .drvcfg := fun e => hr (hnum.symm.trans (congrArg regNumber e))
    exact congrArg some (withEn_readReg s b hreg)

end En

/-! ### Commands and events -/

/-- A command other than ENABLE and the RDREG of DRVCFG does the same with another EN, and keeps it. -/
theorem exec_withEn {i : Instr} {s t : State} (hen : ∀ e, i ≠ .enable e) (hread : i ≠ .rdreg 0)
    (h : exec i s = .next t) (b : Bool) : exec i (s.withEn b) = .next (t.withEn b) := by
  cases i with
  | nop => cases h; rfl
  | setacc m _ | setspd m _ | busy m => cases h; simp [exec, execSetacc, execSetspd, execBusy]
  | move m n =>
    simp only [exec, execMove, raise_eq, withEn_busy, withEn_ch, withEn_cfg, withEn_setCh, withEn_respond] at h ⊢
    split_ifs at h ⊢ <;> cases h <;> rfl
  | stop m =>
    simp only [exec, execStop, withEn_busy, withEn_ch, withEn_setCh, withEn_respond] at h ⊢
    split_ifs at h ⊢ <;> cases h <;> rfl
  | dirfwd m | dirbwd m => cases h; exact congrArg Host.Outcome.next (withEn_steer s b m _)
  | enable e => exact absurd rfl (hen e)
  | setmode k =>
    simp only [exec, execSetmode, withEn_selectMode] at h ⊢
    split at h <;> cases h <;> rfl
  | setspr n =>
    simp only [exec, execSetspr] at h ⊢
    split_ifs at h ⊢ <;> cases h <;> rfl
  | rdreg r =>
    have hr : r ≠ 0 := fun e => hread (congrArg Instr.rdreg e)
    simp only [exec, execRdreg, withEn_regRead s b hr] at h ⊢
    split at h <;> cases h <;> rfl
  | tick k =>
    cases h
    simp only [exec, execTick, withEn_tickMask, withEn_tickWord, withEn_respond]

/-- A command word does the same with another EN, an illegal word too. -/
theorem runCmd_withEn {w : Word} {s t : State} (hen : ∀ e, inputCommand (.cmd w) ≠ some (.enable e))
    (hread : inputCommand (.cmd w) ≠ some (.rdreg 0)) (h : s.runCmd w = .next t) (b : Bool) :
    (s.withEn b).runCmd w = .next (t.withEn b) := by
  rcases runCmd_cases s w with ⟨i, u, hd, he, e⟩ | ⟨why, hd, e⟩ <;> cases e.symm.trans h
  · have hi : inputCommand (.cmd w) = some i := (toOption_eq_some_iff _ _).2 hd
    rw [hi] at hen hread
    rw [runCmd_instr _ hd, withEn_beginEvent, exec_withEn (by simpa using hen) (by simpa using hread) he,
      finishEvent_next, withEn_postEvent]
  · rw [runCmd_illegal _ hd, withEn_beginEvent, withEn_respond, withEn_postEvent]

/-- A strobe does the same with another EN (R207). -/
theorem runStrobe_withEn {k : BitVec 2} {s t : State} (h : s.runStrobe k = .next t) (b : Bool) :
    (s.withEn b).runStrobe k = .next (t.withEn b) := by
  cases h
  rw [State.runStrobe, withEn_beginEvent, withEn_tickMask, withEn_postEvent]

/-- Settles O20: neither a command word nor a strobe looks at EN. -/
theorem enableOnlyReachesItsOutput : Obligations.EnableOnlyReachesItsOutput := by
  intro s t x rest b h hx hr hen hread ht
  rw [step_cons s h] at ht
  refine (step_cons (s.withEn b) h).trans ?_
  cases x with
  | cmd w => exact runCmd_withEn hen hread ht b
  | cmdByte y => exact absurd rfl (hx y)
  | strobe k => exact runStrobe_withEn ht b
  | reset => exact absurd rfl hr

end Sys2Proof.Machine
end

section
/-! One tick before its end (R137 to R141): the channel that the end of the tick sees, and how far the tick moves it. -/

namespace Sys2Proof.Machine

open Sys2Proof

/-- The channel of a tick after its updates and before its end: speed first, position, position first (R138 to R141). -/
def Channel.stages (f : Nat) (c : Channel) : Channel := ((c.rampUp f).advance f).rampDown

section Stages

variable (f : Nat) (c : Channel)

@[simp] theorem stages_phase : (c.stages f).phase = c.phase := by simp [Channel.stages]
@[simp] theorem stages_aAct : (c.stages f).aAct = c.aAct := by simp [Channel.stages]
@[simp] theorem stages_vAct : (c.stages f).vAct = c.vAct := by simp [Channel.stages]
@[simp] theorem stages_clamped : (c.stages f).clamped = c.clamped := by simp [Channel.stages]
@[simp] theorem stages_defect : (c.stages f).defect = c.defect := by simp [Channel.stages]
@[simp] theorem stages_target (g : Nat) : (c.stages f).target g = c.target g := by simp [Channel.stages]

end Stages

theorem toNat_eq_zero_iff {n : Nat} (x : BitVec n) : x.toNat = 0 ↔ x = 0 :=
  ⟨fun h => BitVec.eq_of_toNat_eq h, fun h => h ▸ rfl⟩

section Tick

variable {f : Nat} {invert : Bool} {c : Channel}

/-- A tick of a busy channel is its stages and then its end (R137). -/
theorem genTick_stages (hb : c.phase ≠ .idle) :
    genTick f c = (c.stages f).settle f ((c.rampUp f).crosses f) := genTick_busy hb

theorem genTick_pulse (hb : c.phase ≠ .idle) : (genTick f c).2.pulse = (c.rampUp f).crosses f := by
  rw [genTick_stages hb, settle_pulse]

/-- The steps left fall by the pulse of the tick (R141). -/
theorem stages_remain (hf : f < 2 ^ 32) (hi : ChannelInv f invert c) (hb : c.phase ≠ .idle) :
    (c.stages f).remain.toNat + (if (c.rampUp f).crosses f then 1 else 0) = c.remain.toNat := by
  obtain ⟨-, -, -, -, -, -, hr, -⟩ := stages_exact hf hi hb
  obtain ⟨hpos, -⟩ := hi.busyBounds hb
  rw [Channel.stages, hr]
  split <;> omega

theorem stages_p (hf : f < 2 ^ 32) (hi : ChannelInv f invert c) (hb : c.phase ≠ .idle) :
    (c.stages f).p.toNat = c.p.toNat + (c.rampUp f).u.toNat - (if (c.rampUp f).crosses f then f * f else 0) := by
  obtain ⟨hu1, -, -, -, hp, -⟩ := stages_exact hf hi hb
  rw [Channel.stages, hp, hu1]

theorem stages_p_lt (hf : f < 2 ^ 32) (hi : ChannelInv f invert c) (hb : c.phase ≠ .idle) :
    (c.stages f).p.toNat < f * f := by
  obtain ⟨-, -, -, -, -, hp, -⟩ := stages_exact hf hi hb
  exact hp

/-- The speed after the stages: lowered by A in Decelerating, after the tick moved at the speed before it (R140). -/
theorem stages_u (f : Nat) (c : Channel) :
    (c.stages f).u.toNat =
      if c.phase = .decelerating then (c.rampUp f).u.toNat - c.aAct.toNat else (c.rampUp f).u.toNat := by
  rw [Channel.stages, rampDown_u_toNat, advance_u, advance_phase, rampUp_phase, advance_aAct, rampUp_aAct]

/-- With R*F^2 - P as the distance left, a tick travels the speed that it uses: the pulse only moves F^2 from one term to
the other (R141). -/
theorem stages_travel (hf : f < 2 ^ 32) (hi : ChannelInv f invert c) (hb : c.phase ≠ .idle) :
    c.p.toNat + (c.rampUp f).u.toNat + f * f * (c.stages f).remain.toNat =
      (c.stages f).p.toNat + f * f * c.remain.toNat := by
  have hcross := crosses_iff f (c.rampUp f)
  rw [rampUp_p] at hcross
  rw [← stages_remain hf hi hb, stages_p hf hi hb, Nat.mul_add]
  split
  case isTrue hc => have := hcross.1 hc; omega
  case isFalse => omega

/-- Only Accelerating raises the speed before the position update (R138). -/
theorem rampUp_of_ne (hph : c.phase ≠ .accelerating) : c.rampUp f = c := by simp [Channel.rampUp, hph]

end Tick

end Sys2Proof.Machine
end

section
/-! The profile invariants under a tick (R139, R148 d): a deceleration that covers the steps left goes on covering them,
so that it never reaches zero speed with a step to go. -/

namespace Sys2Proof.Machine

open Sys2Proof

/-! ### The arithmetic of one decelerating tick (R148 d)

`A` is the deceleration, `F2` is F^2, `U` the speed of the tick, and `R P`, `R' P'` the steps left and the accumulator
before and after it. -/

section Arithmetic

variable {A F2 U R P R' P' : Nat}

/-- A tick at speed U spends 2*A*U of what covers the steps left. -/
theorem cover_after_travel (hcov : 2 * A * F2 * R ≤ 2 * A * P + U * U) (htravel : P + U + F2 * R' = P' + F2 * R) :
    2 * A * F2 * R' + 2 * A * U ≤ 2 * A * P' + U * U := by
  have h := congrArg (2 * A * ·) htravel
  simp only [Nat.mul_add, ← Nat.mul_assoc] at h
  omega

/-- Lowering the speed by A afterwards takes no more than that from its square. -/
theorem cover_after_decrement (h : 2 * A * F2 * R' + 2 * A * U ≤ 2 * A * P' + U * U) :
    2 * A * F2 * R' ≤ 2 * A * P' + (U - A) * (U - A) := by
  rcases Nat.le_total A U with hle | hle
  · obtain ⟨d, rfl⟩ := Nat.exists_eq_add_of_le hle
    rw [Nat.add_sub_cancel_left]
    nlinarith
  · have hsq : U * U ≤ A * U := Nat.mul_le_mul_right U hle
    nlinarith

/-- With a step still to go the speed does not reach 0: the accumulator alone is less than one step. -/
theorem speed_left_of_cover (h : 2 * A * F2 * R' + 2 * A * U ≤ 2 * A * P' + U * U) (hA : 0 < A) (hR : 0 < R')
    (hP : P' < F2) : 0 < U - A := by
  by_contra hU
  have hle : U ≤ A := by omega
  have hsq : U * U ≤ A * U := Nat.mul_le_mul_right U hle
  have hstep : 2 * A * P' < 2 * A * F2 := Nat.mul_lt_mul_of_pos_left hP (by omega)
  have hmore : 2 * A * F2 ≤ 2 * A * F2 * R' := Nat.le_mul_of_pos_right _ hR
  nlinarith

end Arithmetic

/-! ### A tick and the profile invariants -/

section Tick

variable {f : Nat} {invert : Bool} {c : Channel}

theorem ProfileInv.setAccel (h : ProfileInv f c) (a : Data) : ProfileInv f { c with accel := a } := { h with }

theorem ProfileInv.setTspeed (h : ProfileInv f c) (v : Data) : ProfileInv f { c with tspeed := v } := { h with }

theorem ProfileInv.setDirection (h : ProfileInv f c) (invert backwards : Bool) :
    ProfileInv f (c.setDirection invert backwards) := { h with }

/-- Leaving the move needs only what the latched profile and DEFECT keep (R147, R154). -/
theorem profileInv_clearMove (hc : c.clamped = true → c.vAct.toNat = f) (hd : c.defect = false) :
    ProfileInv f c.clearMove where
  cruiseSpeed := nofun
  clampedCap := hc
  moveSize := Nat.zero_le _
  decelCovers := nofun
  noDefect := hd

/-- A started move accelerates from 0 with at most 2^31 steps, clamped exactly where V_ACT was cut (R135, R153). -/
theorem profileInv_startMove (hf : f < 2 ^ 32) (h : ProfileInv f c) (invert : Bool) (n : Data) :
    ProfileInv f (c.startMove f invert (operandS32 n)) := by
  obtain ⟨hv, hph, -, hr, -, -, -, -, hcl, -, -, hdef, -⟩ := startMove_exact hf invert (operandS32 n) c
  constructor
  case cruiseSpeed => rw [hph]; exact nofun
  case clampedCap =>
    rw [hcl, hv, decide_eq_true_iff]
    omega
  case moveSize => rw [hr, magnitude_toNat]; exact operandS32_natAbs_le n
  case decelCovers => rw [hph]; exact nofun
  case noDefect => rw [hdef]; exact h.noDefect

/-- While a step is left, the stages of a decelerating tick leave a speed, and it still covers the steps left (R148 d). -/
theorem stages_decelCovers (hf : f < 2 ^ 32) (hi : ChannelInv f invert c) (hp : ProfileInv f c)
    (hd : c.phase = .decelerating) (hr : (c.stages f).remain ≠ 0) :
    0 < (c.stages f).u.toNat ∧
      2 * c.aAct.toNat * (f * f) * (c.stages f).remain.toNat ≤
        2 * c.aAct.toNat * (c.stages f).p.toNat + (c.stages f).u.toNat * (c.stages f).u.toNat := by
  have hb : c.phase ≠ .idle := by rw [hd]; decide
  obtain ⟨hA, -, hcov⟩ := hp.decelCovers hd
  have hup : c.rampUp f = c := rampUp_of_ne (by rw [hd]; decide)
  have htravel := stages_travel hf hi hb
  rw [hup] at htravel
  have hspent := cover_after_travel hcov htravel
  have hpos : 0 < (c.stages f).remain.toNat := Nat.pos_of_ne_zero (mt (toNat_eq_zero_iff _).1 hr)
  rw [stages_u, if_pos hd, hup]
  exact ⟨speed_left_of_cover hspent hA hpos (stages_p_lt hf hi hb), cover_after_decrement hspent⟩

/-- A deceleration that is due covers the steps left (R143, R148 d). -/
theorem cover_of_decelNeeded (hpos : 0 < f) (hd : c.decelNeeded f = true) (hr : c.remain ≠ 0) :
    0 < c.aAct.toNat ∧ 0 < c.u.toNat ∧
      2 * c.aAct.toNat * (f * f) * c.remain.toNat ≤ 2 * c.aAct.toNat * c.p.toNat + c.u.toNat * c.u.toNat := by
  obtain ⟨hA, hle⟩ := (decelNeeded_iff f c).1 hd
  have hrem : 0 < c.remain.toNat := Nat.pos_of_ne_zero (mt (toNat_eq_zero_iff _).1 hr)
  have hprod : 0 < 2 * c.aAct.toNat * (f * f) * c.remain.toNat := by positivity
  exact ⟨hA, Nat.pos_of_mul_pos_left (hprod.trans_le hle), hle.trans (Nat.le_add_left _ _)⟩

/-- What a tick of a busy channel can do under both sets of invariants: end the move with the last step, begin to
decelerate, begin to cruise, or stay in its phase. The zero-speed ending is not among them (R142 to R148 d). -/
theorem genTick_cases (hf : f < 2 ^ 32) (hi : ChannelInv f invert c) (hp : ProfileInv f c) (hb : c.phase ≠ .idle) :
    ((c.stages f).remain = 0 ∧ genTick f c = ((c.stages f).clearMove, ⟨(c.rampUp f).crosses f, true, false⟩)) ∨
      ((c.stages f).remain ≠ 0 ∧ (c.phase = .accelerating ∨ c.phase = .cruising) ∧ (c.stages f).decelNeeded f = true ∧
        genTick f c = ({ c.stages f with phase := .decelerating }, ⟨(c.rampUp f).crosses f, false, false⟩)) ∨
      ((c.stages f).remain ≠ 0 ∧ c.phase = .accelerating ∧ (c.stages f).decelNeeded f = false ∧
        (c.stages f).u.toNat = c.target f ∧
        genTick f c = ({ c.stages f with phase := .cruising }, ⟨(c.rampUp f).crosses f, false, false⟩)) ∨
      ((c.stages f).remain ≠ 0 ∧ genTick f c = (c.stages f, ⟨(c.rampUp f).crosses f, false, false⟩)) := by
  have hsettle := settle_cases f (c.stages f) ((c.rampUp f).crosses f)
  rw [← genTick_stages hb, stages_phase, stages_target] at hsettle
  rcases hsettle with h | h | h | ⟨hr, hd, hu, -⟩ | ⟨hr, -, -, -, h⟩
  · exact .inl h
  · exact .inr (.inl h)
  · exact .inr (.inr (.inl h))
  · obtain ⟨hpos, -⟩ := stages_decelCovers hf hi hp hd hr
    exact absurd ((toNat_eq_zero_iff _).2 hu) hpos.ne'
  · exact .inr (.inr (.inr ⟨hr, h⟩))

/-- A tick keeps the profile invariants of its channel, whichever way it ends (R139, R148). -/
theorem profileInv_genTick (hf : f < 2 ^ 32) (hpos : 0 < f) (hi : ChannelInv f invert c) (hp : ProfileInv f c) :
    ProfileInv f (genTick f c).1 := by
  by_cases hb : c.phase = .idle
  · rw [genTick_idle hb]; exact hp
  have hclamped : (c.stages f).clamped = true → (c.stages f).vAct.toNat = f := by simpa using hp.clampedCap
  have hdefect : (c.stages f).defect = false := by simpa using hp.noDefect
  have hsize : (c.stages f).remain.toNat ≤ 2 ^ 31 :=
    (Nat.le.intro (stages_remain hf hi hb)).trans hp.moveSize
  rcases genTick_cases hf hi hp hb with ⟨-, e⟩ | ⟨hr, -, hd, e⟩ | ⟨-, -, -, hu, e⟩ | ⟨hr, e⟩ <;> rw [e]
  · exact profileInv_clearMove hclamped hdefect
  · exact ⟨nofun, hclamped, hsize, fun _ => cover_of_decelNeeded hpos hd hr, hdefect⟩
  · exact ⟨fun _ => hu.trans (stages_target f c f).symm, hclamped, hsize, nofun, hdefect⟩
  · refine ⟨fun hcruise => ?cruise, hclamped, hsize, fun hdecel => ?decel, hdefect⟩
    case cruise =>
      rw [stages_phase] at hcruise
      rw [stages_u, hcruise, if_neg (by decide), rampUp_of_ne (by rw [hcruise]; decide), stages_target]
      exact hp.cruiseSpeed hcruise
    case decel =>
      rw [stages_phase] at hdecel
      obtain ⟨hA, -⟩ := hp.decelCovers hdecel
      rw [stages_aAct]
      exact ⟨hA, stages_decelCovers hf hi hp hdecel hr⟩

/-- No tick reports DEFECT (R148 d). -/
theorem genTick_defect (hf : f < 2 ^ 32) (hi : ChannelInv f invert c) (hp : ProfileInv f c) :
    (genTick f c).2.defect = false := by
  by_cases hb : c.phase = .idle
  · rw [genTick_idle hb]; rfl
  rcases genTick_cases hf hi hp hb with ⟨-, e⟩ | ⟨-, -, -, e⟩ | ⟨-, -, -, -, e⟩ | ⟨-, e⟩ <;> rw [e]

end Tick

/-! ### Every step and the profile invariants -/

/-- An event keeps the profile invariants of each channel, one update of a channel at a time (R32). -/
theorem event_profileInv {s t : State} {x : Input} {rest : List Input} (h : s.inputs = x :: rest)
    (hx : ∀ b, x ≠ .cmdByte b) (ht : step s = .next t) {m : Chan}
    (hi : ChannelInv s.cfg.fTick (s.cfg.invert m) (s.ch m)) (hp : ProfileInv s.cfg.fTick (s.ch m)) :
    ProfileInv s.cfg.fTick (t.ch m) := by
  by_cases hreset : x = .reset
  · subst hreset
    cases (step_reset h).symm.trans ht
    rw [resetWith_ch]
    exact profileInv_reset _ _
  rcases step_ch_cases h hx hreset ht m with
    e | ⟨a, -, e⟩ | ⟨v, -, e⟩ | ⟨n, -, -, -, e⟩ | ⟨-, -, e⟩ | ⟨b, -, -, e⟩ | ⟨-, e⟩ <;> rw [e]
  · exact hp
  · exact hp.setAccel a
  · exact hp.setTspeed v
  · exact profileInv_startMove (fTick_lt s.cfg) hp _ n
  · exact profileInv_clearMove hp.clampedCap hp.noDefect
  · exact hp.setDirection _ b
  · exact profileInv_genTick (fTick_lt s.cfg) (fTick_pos s.cfg) hi hp

/-- The transport holds no channel. -/
theorem withTransport_ch (s : State) (ins : List Input) (rx : List Byte) (m : Chan) :
    ({ s with inputs := ins, rx := rx } : State).ch m = s.ch m := by cases m <;> rfl

theorem FullInv.withTransport {s : State} (hs : FullInv s) (ins : List Input) {rx : List Byte} (hrx : rx.length ≤ 7) :
    FullInv { s with inputs := ins, rx := rx } where
  inv := hs.inv.withTransport ins hrx
  profile m := by rw [withTransport_ch]; exact hs.profile m

/-- Every event keeps both sets of invariants. -/
theorem event_fullInv {s t : State} {x : Input} {rest : List Input} (hs : FullInv s) (h : s.inputs = x :: rest)
    (hx : ∀ b, x ≠ .cmdByte b) (ht : step s = .next t) : FullInv t where
  inv := event_inv hs.inv h hx ht
  profile m := by
    rw [event_cfg h hx ht]
    exact event_profileInv h hx ht (hs.inv.channel m) (hs.profile m)

/-- Settles O59: waiting changes nothing, a byte writes the transport alone, and the events keep both sets of
invariants. -/
theorem stepKeepsTheProfile : Obligations.StepKeepsTheProfile := by
  intro s t hs ht
  rcases step_event_cases ht with rfl | ⟨b, rest, hl, rfl⟩ | ⟨x, rest, rx, hrx, hx, he⟩
  · exact hs
  · exact hs.withTransport rest (by simpa using hl)
  · have hlen : rx.length ≤ 7 := by
      rcases hrx with rfl | rfl
      · exact hs.inv.rxPartial
      · exact Nat.zero_le 7
    exact event_fullInv (hs.withTransport (x :: rest) hlen) rfl hx he

/-- Settles O60: the deceleration that the profile invariants describe ends with its last step. -/
theorem noDefectEver : Obligations.NoDefectEver := fun s hs =>
  ⟨fun m => genTick_defect (fTick_lt s.cfg) (hs.inv.channel m) (hs.profile m),
    fun t ht m => ((stepKeepsTheProfile s t hs ht).profile m).noDefect⟩

end Sys2Proof.Machine
end

section
/-! One tick of a channel (R136 to R148): the exact values, the bounds, and the bits that it returns. -/

namespace Sys2Proof.Machine

open Sys2Proof

/-- Settles O46 (R136). -/
theorem idleTickDoesNothing : Obligations.IdleTickDoesNothing := fun _ _ h => genTick_idle h

section Tick

variable {f : Nat} {invert : Bool} {c : Channel}

/-- The position update read off the pulse condition: the accumulator, the steps left and PULSECNT (R141). -/
theorem stages_position (hf : f < 2 ^ 32) (hi : ChannelInv f invert c) (hb : c.phase ≠ .idle) {u1 p2 rem2 : Nat}
    {pulse : Prop} (hu1 : (c.rampUp f).u.toNat = u1) (hpulse : (c.rampUp f).crosses f = true ↔ pulse)
    (hyes : pulse → p2 = c.p.toNat + u1 - f * f ∧ rem2 + 1 = c.remain.toNat)
    (hno : ¬ pulse → p2 = c.p.toNat + u1 ∧ rem2 = c.remain.toNat) :
    (c.stages f).p.toNat = p2 ∧ (c.stages f).remain.toNat = rem2 ∧
      (pulse → (genTick f c).1.pulseCnt = c.pulseCnt + 1) ∧ (¬ pulse → (genTick f c).1.pulseCnt = c.pulseCnt) := by
  have hrem := stages_remain hf hi hb
  rw [stages_p hf hi hb, genTick_pulseCnt, genTick_pulse hb, hu1]
  by_cases hc : pulse
  · obtain ⟨hp2, hrem2⟩ := hyes hc
    rw [if_pos (hpulse.2 hc)] at hrem ⊢
    rw [if_pos (hpulse.2 hc)]
    exact ⟨hp2.symm, by omega, fun _ => rfl, absurd hc⟩
  · obtain ⟨hp2, hrem2⟩ := hno hc
    rw [if_neg (mt hpulse.1 hc)] at hrem ⊢
    rw [if_neg (mt hpulse.1 hc)]
    exact ⟨hp2.symm, by omega, (absurd · hc), fun _ => BitVec.add_zero _⟩

/-- A tick never raises REMAIN: an ending clears it (R147, R148 e). -/
theorem genTick_remain_le (hf : f < 2 ^ 32) (hi : ChannelInv f invert c) (hb : c.phase ≠ .idle) :
    (genTick f c).1.remain.toNat ≤ c.remain.toNat := by
  have hle : (c.stages f).remain.toNat ≤ c.remain.toNat := Nat.le.intro (stages_remain hf hi hb)
  rw [genTick_stages hb]
  rcases settle_cases f (c.stages f) ((c.rampUp f).crosses f) with
    ⟨-, e⟩ | ⟨-, -, -, e⟩ | ⟨-, -, -, -, e⟩ | ⟨-, -, -, e⟩ | ⟨-, -, -, -, e⟩ <;> rw [e]
  case inl | inr.inr.inr.inl => exact Nat.zero_le _
  all_goals exact hle

/-- The bits of a tick: DONE exactly where it ends the move, and DEFECT only with DONE (R133, R147, R208). -/
theorem genTick_done (f : Nat) (c : Channel) :
    ((genTick f c).2.done = true ↔ c.phase ≠ .idle ∧ (genTick f c).1.phase = .idle) ∧
      ((genTick f c).2.defect = true → (genTick f c).2.done = true) := by
  by_cases hb : c.phase = .idle
  · simp [genTick_idle hb, TickBits.zero, hb]
  rw [genTick_stages hb]
  rcases settle_cases f (c.stages f) ((c.rampUp f).crosses f) with
    ⟨-, e⟩ | ⟨-, -, -, e⟩ | ⟨-, -, -, -, e⟩ | ⟨-, -, -, e⟩ | ⟨-, -, -, -, e⟩ <;> rw [e] <;> simp [hb]

end Tick

/-- Settles O47: the stages hold the exact values (R137 to R141), and the end of the tick tests them in R142's order. -/
theorem tickFollowsThePseudocode : Obligations.TickFollowsThePseudocode := by
  intro q m c F A Ut u1 p2 rem2 u2 pulse decel hi hb hF hA hUt hu1 hpulse hyes hno hu2 hdecel
  subst hF hA hUt
  have hup : (c.rampUp q.fTick).u.toNat = u1 := (rampUp_u_toNat (fTick_lt q) c).trans hu1.symm
  have hbit : (c.rampUp q.fTick).crosses q.fTick = true ↔ pulse := by rw [crosses_iff, rampUp_p, hup, hpulse]
  have hu : (c.stages q.fTick).u.toNat = u2 := by rw [stages_u, hup, hu2]
  obtain ⟨hp, hrem, hcnt1, hcnt0⟩ := stages_position (fTick_lt q) hi hb hup hbit hyes hno
  have hdue : (c.stages q.fTick).decelNeeded q.fTick = true ↔ decel := by
    rw [decelNeeded_iff, stages_aAct, hrem, hu, hdecel]
  obtain ⟨hacc, hspd, ha, hv, hlog, hpin, hcl⟩ := genTick_keeps q.fTick c
  refine ⟨(genTick q.fTick c).1, (genTick q.fTick c).2, rfl, by rw [genTick_pulse hb, hbit], hcnt1, hcnt0, hacc, hspd, ha,
    hv, hlog, hpin, hcl, ?_⟩
  have hdefect := stages_defect q.fTick c
  have hphase := stages_phase q.fTick c
  have hsettle := settle_cases q.fTick (c.stages q.fTick) ((c.rampUp q.fTick).crosses q.fTick)
  rw [← genTick_stages hb] at hsettle
  simp only [ne_eq, ← toNat_eq_zero_iff, hrem, hu, ← Bool.not_eq_true, hdue, stages_phase, stages_target] at hsettle
  rcases hsettle with ⟨hr, e⟩ | ⟨hr, hph, hd, e⟩ | ⟨hr, hph, hd, ht, e⟩ | ⟨hr, hph, h0, e⟩ | ⟨hr, hacc, hcru, hdec, e⟩ <;>
    rw [e]
  case inl => exact ⟨fun _ => ⟨rfl, rfl, rfl, rfl, rfl, rfl, hdefect⟩, absurd hr, absurd hr⟩
  case inr.inl =>
    have hnot : c.phase ≠ .decelerating := by rcases hph with h | h <;> rw [h] <;> decide
    exact ⟨(absurd · hr), fun _ h => absurd h hnot, fun _ _ => ⟨hu, hp, hrem, rfl, rfl, hdefect, (absurd · hnot),
      fun _ _ => rfl, fun _ h => absurd hd h, fun _ h => absurd hd h, fun _ h => absurd hd h⟩⟩
  case inr.inr.inl =>
    have hnot : c.phase ≠ .decelerating := by rw [hph]; decide
    exact ⟨(absurd · hr), fun _ h => absurd h hnot, fun _ _ => ⟨hu, hp, hrem, rfl, rfl, hdefect, (absurd · hnot),
      fun _ h => absurd h hd, fun _ _ _ => rfl, fun _ _ h => absurd ht h, fun _ _ => rfl⟩⟩
  case inr.inr.inr.inl =>
    exact ⟨(absurd · hr), fun _ _ _ => ⟨rfl, rfl, rfl, rfl, rfl, rfl, rfl⟩, fun _ h => absurd h0 (h hph)⟩
  case inr.inr.inr.inr =>
    refine ⟨(absurd · hr), fun _ h h0 => absurd h0 (hdec h), fun _ _ => ⟨hu, hp, hrem, rfl, rfl, hdefect, hphase.trans,
      fun hne hd => ?_, fun h _ ht => absurd ht (hacc h).2, fun h _ _ => hphase.trans h, fun h _ => hphase.trans h⟩⟩
    cases hph : c.phase with
    | idle => exact absurd hph hb
    | accelerating => exact absurd hd (hacc hph).1
    | cruising => exact absurd hd (hcru hph)
    | decelerating => exact absurd hph hne
    | stopped => exact absurd hph hi.notStopped

/-- Settles O48: the bounds of R36 before the tick give (a), and R36 after it bounds the new speed and accumulator. -/
theorem tickBounds : Obligations.TickBounds := by
  intro q m c hi hb
  have hf := fTick_lt q
  obtain ⟨hu1, hle, hT, -⟩ := stages_exact hf hi hb
  obtain ⟨-, -, hp⟩ := hi.busyBounds hb
  refine ⟨by rw [rampUp_p, hu1]; omega, ?_⟩
  have hi' := channelInv_genTick hf hi
  obtain ⟨-, -, -, hv, -⟩ := genTick_keeps q.fTick c
  by_cases hb' : (genTick q.fTick c).1.phase = .idle
  · obtain ⟨hr, hu, hp⟩ := hi'.idleClear hb'
    rw [hr, hu, hp]
    exact ⟨Nat.zero_le _, Nat.zero_le _, Nat.mul_pos (fTick_pos q) (fTick_pos q)⟩
  · obtain ⟨-, hu, hp⟩ := hi'.busyBounds hb'
    rw [Channel.target, hv] at hu
    exact ⟨hu, genTick_remain_le hf hi hb, hp⟩

/-- Settles O49: the two endings of a tick are the branches that report DONE, and the other branches leave a busy phase. -/
theorem doneMeansTheMoveEnded : Obligations.DoneMeansTheMoveEnded := by
  intro q m c hi
  obtain ⟨hdone, hdefect⟩ := genTick_done q.fTick c
  exact ⟨hdone, hdefect, (channelInv_genTick (fTick_lt q) hi).notStopped⟩

end Sys2Proof.Machine
end

section
/-! The phases under an event (R131): what a ticking event leaves in its channel and on STEP[m], and every phase change. -/

namespace Sys2Proof.Machine

open Sys2Proof

@[simp] theorem postEvent_stepOut (s : State) (m : Chan) : s.postEvent.stepOut m = s.stepOut m := by
  cases m <;> simp [State.stepOut]

/-- An event that ticks channel m leaves the ticked channel, and pulses STEP[m] exactly as the tick says (R206, R207). -/
theorem event_ticks {s t : State} {x : Input} {rest : List Input} {m : Chan} (h : s.inputs = x :: rest)
    (hx : ∀ b, x ≠ .cmdByte b) (ht : step s = .next t) (hm : inputTicks x m) :
    t.ch m = (genTick s.cfg.fTick (s.ch m)).1 ∧ t.stepOut m = (genTick s.cfg.fTick (s.ch m)).2.pulse := by
  have hch : ({ s with inputs := rest, out := .none } : State).ch m = s.ch m := by cases m <;> rfl
  have hout : ({ s with inputs := rest, out := .none } : State).stepOut m = false := by cases m <;> rfl
  rcases step_cases h hx ht with ⟨rfl, -⟩ | ⟨i, u, hi, he, rfl⟩ | ⟨k, rfl, rfl⟩ | ⟨hnone, ⟨w, _, rfl, -⟩, -⟩
  case inl => obtain ⟨k, hk, -⟩ | ⟨k, hk, -⟩ := hm <;> cases hk
  case inr.inl =>
    obtain ⟨k, rfl, -⟩ | ⟨k, hk, hsel⟩ := hm
    · cases hi
    · cases hi.symm.trans hk
      cases he
      simp [tickMask_ch, tickMask_stepOut, hch, hout, hsel]
  case inr.inr.inl =>
    obtain ⟨_, hk, hsel⟩ | ⟨_, hk, -⟩ := hm <;> cases hk
    simp [tickMask_ch, tickMask_stepOut, hch, hout, hsel]
  case inr.inr.inr =>
    obtain ⟨k, hk, -⟩ | ⟨k, hk, -⟩ := hm
    · cases hk
    · cases hnone.symm.trans hk

/-- A tick that changes the phase made one of the four transitions of a tick, under R131's condition on what it leaves.
The move ends only with the pulse of its last step (R142 to R145). -/
theorem genTick_phase_change {f : Nat} {invert : Bool} {c : Channel} (hf : f < 2 ^ 32) (hi : ChannelInv f invert c)
    (hp : ProfileInv f c) (hne : (genTick f c).1.phase ≠ c.phase) :
    (c.phase = .accelerating ∧ (genTick f c).1.phase = .cruising ∧
        (genTick f c).1.u.toNat = (genTick f c).1.vAct.toNat * f ∧ ¬ DecelDue f (genTick f c).1) ∨
      (c.phase = .accelerating ∧ (genTick f c).1.phase = .decelerating ∧ DecelDue f (genTick f c).1) ∨
      (c.phase = .cruising ∧ (genTick f c).1.phase = .decelerating ∧ DecelDue f (genTick f c).1) ∨
      (c.phase ≠ .idle ∧ (genTick f c).1.phase = .idle ∧ c.remain = 1 ∧ (genTick f c).2.pulse = true) := by
  have hb : c.phase ≠ .idle := fun hidle => hne (by rw [genTick_idle hidle])
  have hdue := decelNeeded_iff f (c.stages f)
  rcases genTick_cases hf hi hp hb with ⟨hr, e⟩ | ⟨-, hph, hd, e⟩ | ⟨-, hph, hd, hu, e⟩ | ⟨-, e⟩ <;> rw [e] at hne ⊢
  case inl =>
    obtain ⟨hpos, -⟩ := hi.busyBounds hb
    have hrem := stages_remain hf hi hb
    rw [hr] at hrem
    cases hcross : (c.rampUp f).crosses f <;> rw [hcross] at hrem
    · exact absurd hrem (Nat.ne_of_lt hpos)
    · exact .inr (.inr (.inr ⟨hb, rfl, BitVec.eq_of_toNat_eq hrem.symm, rfl⟩))
  case inr.inl =>
    rcases hph with hph | hph
    · exact .inr (.inl ⟨hph, rfl, hdue.1 hd⟩)
    · exact .inr (.inr (.inl ⟨hph, rfl, hdue.1 hd⟩))
  case inr.inr.inl =>
    refine .inl ⟨hph, rfl, ?_, fun h => Bool.false_ne_true (hd.symm.trans (hdue.2 h))⟩
    rw [← stages_target f c f] at hu
    exact hu
  case inr.inr.inr => exact absurd (stages_phase f c) hne

/-- Settles O50: of the updates of a channel only MOVE, STOP, a tick and reset write the phase, and a tick changes it as
`genTick_phase_change` says. -/
theorem onlyTheListedPhaseChanges : Obligations.OnlyTheListedPhaseChanges := by
  intro s t x rest m hs h hx ht hne
  by_cases hreset : x = .reset
  · have hidle : (t.ch m).phase = .idle := by
      subst hreset
      cases (step_reset h).symm.trans ht
      rw [resetWith_ch]
      rfl
    exact .inr (.inr (.inr (.inr ⟨fun hb => hne (hidle.trans hb.symm), hidle, .inr (.inr hreset)⟩)))
  rcases step_ch_cases h hx hreset ht m with
    e | ⟨a, -, e⟩ | ⟨v, -, e⟩ | ⟨n, hn, hidle, hn0, e⟩ | ⟨hstop, hbusy, e⟩ | ⟨b, -, -, e⟩ | ⟨htick, -⟩
  case inr.inr.inr.inl => exact .inl ⟨(channel_not_busy_iff _).1 hidle, by rw [e]; rfl, n, hn, hn0⟩
  case inr.inr.inr.inr.inl =>
    exact .inr (.inr (.inr (.inr ⟨(channel_busy_iff _).1 hbusy, by rw [e]; rfl, .inr (.inl hstop)⟩)))
  case inr.inr.inr.inr.inr.inr =>
    obtain ⟨e, hstep⟩ := event_ticks h hx ht htick
    rw [e] at hne
    rw [hstep, e]
    rcases genTick_phase_change (fTick_lt s.cfg) (hs.inv.channel m) (hs.profile m) hne with
      ⟨hc, hc', hu, hd⟩ | ⟨hc, hc', hd⟩ | ⟨hc, hc', hd⟩ | ⟨hb, hc', hr, hpulse⟩
    · exact .inr (.inl ⟨hc, hc', htick, hu, hd⟩)
    · exact .inr (.inr (.inl ⟨hc, hc', htick, hd⟩))
    · exact .inr (.inr (.inr (.inl ⟨hc, hc', htick, hd⟩)))
    · exact .inr (.inr (.inr (.inr ⟨hb, hc', .inl ⟨htick, hr, hpulse⟩⟩)))
  all_goals exact absurd (by simp [e]) hne

end Sys2Proof.Machine
end

section
/-! A move with a zero profile (R156) never ends. -/

namespace Sys2Proof.Machine

open Sys2Proof

/-- A move at speed 0 that nothing speeds up: the profile is zero, and the phase is one that a zero profile reaches. -/
structure Stuck (c : Channel) : Prop where
  moving : c.phase = .accelerating ∨ c.phase = .cruising
  speed : c.u = 0
  position : c.p = 0
  left : c.remain ≠ 0
  zeroProfile : c.aAct = 0 ∨ c.vAct = 0

section Stuck

variable {f : Nat} {c : Channel}

/-- min(0 + A, V*F) is 0. -/
theorem Stuck.rampUp (h : Stuck c) : c.rampUp f = c := by
  have hmin : min (c.u.toNat + c.aAct.toNat) (c.target f) = 0 := by
    rcases h.zeroProfile with h0 | h0 <;> simp [Channel.target, h0, h.speed]
  have hu : BitVec.ofNat 64 0 = c.u := h.speed.symm
  unfold Channel.rampUp
  rw [hmin, hu]
  split <;> rfl

theorem Stuck.crosses (h : Stuck c) (hpos : 0 < f) : c.crosses f = false := by
  have := Nat.mul_pos hpos hpos
  simp [Channel.crosses, h.speed, h.position]
  omega

/-- The stages of a tick move a stuck channel nowhere. -/
theorem Stuck.stages (h : Stuck c) (hpos : 0 < f) : c.stages f = c := by
  have hp : BitVec.ofNat 64 (c.p.toNat + c.u.toNat) = c.p := by rw [h.speed, h.position]; rfl
  have hadvance : c.advance f = c := by
    rw [Channel.advance, h.crosses hpos, hp]
    rfl
  have hnot : c.phase ≠ .decelerating := by rcases h.moving with e | e <;> rw [e] <;> decide
  rw [Channel.stages, h.rampUp, hadvance, Channel.rampDown, if_neg hnot]

theorem Stuck.decelNeeded (h : Stuck c) (hpos : 0 < f) : c.decelNeeded f = false := by
  have hrem : 0 < c.remain.toNat := Nat.pos_of_ne_zero (mt (toNat_eq_zero_iff _).1 h.left)
  rw [← Bool.not_eq_true, decelNeeded_iff, h.speed]
  rintro ⟨hA, hle⟩
  have : 0 < 2 * c.aAct.toNat * (f * f) * c.remain.toNat := by positivity
  exact absurd hle (Nat.not_le.2 this)

theorem Stuck.atTarget_iff (h : Stuck c) (hpos : 0 < f) : c.u.toNat = c.target f ↔ c.vAct = 0 := by
  rw [h.speed, Channel.target, ← toNat_eq_zero_iff]
  constructor <;> simp <;> omega

/-- A tick of a stuck move leaves the test of the target speed, and that alone (R144, R156). -/
theorem Stuck.genTick_eq (h : Stuck c) (hpos : 0 < f) :
    genTick f c = (if c.phase = .accelerating ∧ c.vAct = 0 then { c with phase := .cruising } else c, .zero) := by
  have hb : c.phase ≠ .idle := by rcases h.moving with e | e <;> rw [e] <;> decide
  have htarget := h.atTarget_iff hpos
  have hdecel := h.decelNeeded hpos
  rw [genTick_stages hb, h.stages hpos, h.rampUp, h.crosses hpos]
  rcases settle_cases f c false with ⟨hr, -⟩ | ⟨-, -, hd, -⟩ | ⟨-, hph, -, hu, e⟩ | ⟨-, hph, -, -⟩ | ⟨-, hacc, -, -, e⟩
  · exact absurd hr h.left
  · cases hdecel.symm.trans hd
  · rw [e, if_pos ⟨hph, htarget.1 hu⟩]
    rfl
  · rcases h.moving with e | e <;> cases e.symm.trans hph
  · rw [e, if_neg fun ⟨hph, hv⟩ => (hacc hph).2 (htarget.2 hv)]
    rfl

end Stuck

/-- A channel that a tick leaves as it is, without a pulse, stays so over any number of ticks. -/
theorem afterTicks_of_fixed {f : Nat} {c : Channel} (h : genTick f c = (c, .zero)) (k : Nat) :
    Channel.pulsesIn f k c = 0 ∧ Channel.afterTicks f k c = c := by
  induction k with
  | zero => exact ⟨rfl, rfl⟩
  | succ k ih =>
    rw [Channel.pulsesIn, Channel.afterTicks, h]
    simpa [TickBits.zero] using ih

/-- Settles O52: a fresh move with a zero profile is stuck. With V_ACT = 0 its first tick lets it cruise, and every other
tick leaves it as it is. -/
theorem zeroProfileNeverEnds : Obligations.ZeroProfileNeverEnds := by
  intro q c k hph hu hp hr hzero
  have hstuck : Stuck c := ⟨.inl hph, hu, hp, hr, hzero⟩
  have htick := hstuck.genTick_eq (fTick_pos q)
  by_cases hv : c.vAct = 0
  · rw [if_pos ⟨hph, hv⟩] at htick
    cases k with
    | zero => exact ⟨rfl, by rw [if_pos (.inl rfl), ← hph]; rfl⟩
    | succ k =>
      have hcruise : Stuck { c with phase := .cruising } := { hstuck with moving := .inr rfl }
      have hnext := hcruise.genTick_eq (fTick_pos q)
      rw [if_neg fun ⟨h, _⟩ => nomatch h] at hnext
      obtain ⟨hpulses, hafter⟩ := afterTicks_of_fixed hnext k
      have hnot : ¬ (k + 1 = 0 ∨ c.vAct ≠ 0) := by simp [hv]
      rw [Channel.pulsesIn, Channel.afterTicks, htick, hpulses, hafter, if_neg hnot]
      exact ⟨rfl, rfl⟩
  · rw [if_neg fun ⟨_, h⟩ => hv h] at htick
    rw [if_pos (.inr hv), ← hph]
    exact afterTicks_of_fixed htick k

end Sys2Proof.Machine
end

section
/-! A move with a non-zero profile ends (R148 b, c): every tick travels, so that the distance left runs out, and each step
of it is one pulse. -/

namespace Sys2Proof.Machine

open Sys2Proof

/-- The distance left, R*F^2 - P: what the speeds of the ticks to come still have to add up to (R141). -/
def Channel.distance (f : Nat) (c : Channel) : Nat := f * f * c.remain.toNat - c.p.toNat

section Tick

variable {f : Nat} {invert : Bool} {c : Channel}

/-- With a non-zero profile every tick of a busy channel moves at a speed above 0 (R138 to R140). -/
theorem rampUp_u_pos (hf : f < 2 ^ 32) (hpos : 0 < f) (hi : ChannelInv f invert c) (hp : ProfileInv f c)
    (hb : c.phase ≠ .idle) (hA : c.aAct ≠ 0) (hV : c.vAct ≠ 0) : 0 < (c.rampUp f).u.toNat := by
  have hA' : 0 < c.aAct.toNat := Nat.pos_of_ne_zero (mt (toNat_eq_zero_iff _).1 hA)
  have hV' : 0 < c.vAct.toNat := Nat.pos_of_ne_zero (mt (toNat_eq_zero_iff _).1 hV)
  have htarget : 0 < c.target f := Nat.mul_pos hV' hpos
  rw [rampUp_u_toNat hf]
  cases hph : c.phase with
  | idle => exact absurd hph hb
  | accelerating => rw [if_pos rfl]; exact Nat.lt_min.2 ⟨Nat.add_pos_right _ hA', htarget⟩
  | cruising => rw [if_neg (by decide), hp.cruiseSpeed hph]; exact htarget
  | decelerating =>
    obtain ⟨-, hu, -⟩ := hp.decelCovers hph
    rwa [if_neg (by decide)]
  | stopped => exact absurd hph hi.notStopped

/-- A tick ends the move or shortens the distance left. -/
theorem genTick_distance (hf : f < 2 ^ 32) (hpos : 0 < f) (hi : ChannelInv f invert c) (hp : ProfileInv f c)
    (hb : c.phase ≠ .idle) (hA : c.aAct ≠ 0) (hV : c.vAct ≠ 0) :
    (genTick f c).1.phase = .idle ∨ (genTick f c).1.distance f < c.distance f := by
  have hspeed := rampUp_u_pos hf hpos hi hp hb hA hV
  have htravel := stages_travel hf hi hb
  obtain ⟨hrem, -, hpc⟩ := hi.busyBounds hb
  have hroom : f * f ≤ f * f * c.remain.toNat := Nat.le_mul_of_pos_right _ hrem
  have hshort : (c.stages f).remain ≠ 0 → (c.stages f).distance f < c.distance f := by
    intro hr
    have hroom' : f * f ≤ f * f * (c.stages f).remain.toNat :=
      Nat.le_mul_of_pos_right _ (Nat.pos_of_ne_zero (mt (toNat_eq_zero_iff _).1 hr))
    have hpc' := stages_p_lt hf hi hb
    rw [Channel.distance, Channel.distance]
    omega
  rcases genTick_cases hf hi hp hb with ⟨-, e⟩ | ⟨hr, -, -, e⟩ | ⟨hr, -, -, -, e⟩ | ⟨hr, e⟩ <;> rw [e]
  · exact .inl rfl
  all_goals exact .inr (hshort hr)

/-- The steps left fall by the pulse of the tick, also where the tick ends the move (R141, R147). -/
theorem genTick_remain (hf : f < 2 ^ 32) (hi : ChannelInv f invert c) (hp : ProfileInv f c) :
    (if (genTick f c).2.pulse then 1 else 0) + (genTick f c).1.remain.toNat = c.remain.toNat := by
  by_cases hb : c.phase = .idle
  · rw [genTick_idle hb]
    exact Nat.zero_add _
  have hrem := stages_remain hf hi hb
  rw [Nat.add_comm] at hrem
  rcases genTick_cases hf hi hp hb with ⟨hr, e⟩ | ⟨-, -, -, e⟩ | ⟨-, -, -, -, e⟩ | ⟨-, e⟩ <;> rw [e]
  · rwa [hr] at hrem
  all_goals exact hrem

end Tick

section Ticks

variable {f : Nat} {invert : Bool}

/-- Any number of ticks keeps both sets of invariants of the channel (R36, R148). -/
theorem afterTicks_inv (hf : f < 2 ^ 32) (hpos : 0 < f) {c : Channel} (hi : ChannelInv f invert c)
    (hp : ProfileInv f c) (k : Nat) :
    ChannelInv f invert (Channel.afterTicks f k c) ∧ ProfileInv f (Channel.afterTicks f k c) := by
  induction k generalizing c with
  | zero => exact ⟨hi, hp⟩
  | succ k ih => exact ih (channelInv_genTick hf hi) (profileInv_genTick hf hpos hi hp)

/-- The pulses of any number of ticks and the steps left after them make up the steps left before (R148 b). -/
theorem pulsesIn_add_remain (hf : f < 2 ^ 32) (hpos : 0 < f) {c : Channel} (hi : ChannelInv f invert c)
    (hp : ProfileInv f c) (k : Nat) :
    Channel.pulsesIn f k c + (Channel.afterTicks f k c).remain.toNat = c.remain.toNat := by
  induction k generalizing c with
  | zero => exact Nat.zero_add _
  | succ k ih =>
    rw [Channel.pulsesIn, Channel.afterTicks, Nat.add_assoc,
      ih (channelInv_genTick hf hi) (profileInv_genTick hf hpos hi hp), genTick_remain hf hi hp]

/-- Ticks write no direction (R32, R185). -/
theorem afterTicks_direction (f k : Nat) (c : Channel) :
    (Channel.afterTicks f k c).dirLog = c.dirLog ∧ (Channel.afterTicks f k c).dirPin = c.dirPin := by
  induction k generalizing c with
  | zero => exact ⟨rfl, rfl⟩
  | succ k ih =>
    obtain ⟨-, -, -, -, hlog, hpin, -⟩ := genTick_keeps f c
    rw [← hlog, ← hpin]
    exact ih _

/-- With a non-zero profile some number of ticks makes the channel Idle, by induction on the distance left (R148 c). -/
theorem afterTicks_idle (hf : f < 2 ^ 32) (hpos : 0 < f) {c : Channel} (hi : ChannelInv f invert c)
    (hp : ProfileInv f c) (hA : c.aAct ≠ 0) (hV : c.vAct ≠ 0) : ∃ k, (Channel.afterTicks f k c).phase = .idle := by
  induction hd : c.distance f using Nat.strong_induction_on generalizing c with
  | _ d ih =>
    subst hd
    by_cases hb : c.phase = .idle
    · exact ⟨0, hb⟩
    rcases genTick_distance hf hpos hi hp hb hA hV with hidle | hlt
    · exact ⟨1, hidle⟩
    · obtain ⟨-, -, ha, hv, -⟩ := genTick_keeps f c
      obtain ⟨k, hk⟩ := ih _ hlt (channelInv_genTick hf hi) (profileInv_genTick hf hpos hi hp) (ha ▸ hA) (hv ▸ hV) rfl
      exact ⟨k + 1, hk⟩

end Ticks

/-- Settles O53: the ticks end the move, and an Idle channel has no step left, so that each of its steps was a pulse. -/
theorem busyChannelFinishesExactly : Obligations.BusyChannelFinishesExactly := by
  intro q m c hi hp hb hA hV
  obtain ⟨k, hidle⟩ := afterTicks_idle (fTick_lt q) (fTick_pos q) hi hp hA hV
  obtain ⟨hi', hp'⟩ := afterTicks_inv (fTick_lt q) (fTick_pos q) hi hp k
  have hcount := pulsesIn_add_remain (fTick_lt q) (fTick_pos q) hi hp k
  obtain ⟨hr, -⟩ := hi'.idleClear hidle
  rw [hr] at hcount
  have hpulses : Channel.pulsesIn q.fTick k c = c.remain.toNat := hcount
  refine ⟨k, hidle, hpulses, ?_, hp'.noDefect⟩
  rw [afterTicks_pulseCnt, hpulses, BitVec.ofNat_toNat, BitVec.setWidth_eq]

/-- A started move with a non-zero profile ends after |n| pulses, in the direction of n (R148, R153). -/
theorem startMove_ends (q : Params) (m : Chan) {c : Channel} {n : Data} (hp : ProfileInv q.fTick c) (hn : n ≠ 0)
    (hA : c.accel ≠ 0) (hV : c.tspeed ≠ 0) :
    ∃ k d, Channel.afterTicks q.fTick k (c.startMove q.fTick (q.invert m) (operandS32 n)) = d ∧ d.phase = .idle ∧
      d.pulseCnt = c.pulseCnt + magnitude (operandS32 n) ∧ d.defect = false ∧ d.dirLog = decide (operandS32 n < 0) ∧
      d.dirPin = (decide (operandS32 n < 0) ^^ q.invert m) := by
  have hf := fTick_lt q
  obtain ⟨hv, hph, ha, hr, -, -, hlog, hpin, -, -, -, -, hcnt⟩ := startMove_exact hf (q.invert m) (operandS32 n) c
  have hvAct : (c.startMove q.fTick (q.invert m) (operandS32 n)).vAct ≠ 0 := by
    have htspeed := Nat.pos_of_ne_zero (mt (toNat_eq_zero_iff _).1 hV)
    exact mt (toNat_eq_zero_iff _).2 (hv ▸ (Nat.lt_min.2 ⟨htspeed, fTick_pos q⟩).ne')
  obtain ⟨k, hidle, -, hpulses, hdefect⟩ := busyChannelFinishesExactly q m _
    (channelInv_startMove hf (fTick_pos q) hn _ c) (profileInv_startMove hf hp _ n) (by rw [hph]; decide) (ha ▸ hA) hvAct
  obtain ⟨hlog', hpin'⟩ := afterTicks_direction q.fTick k (c.startMove q.fTick (q.invert m) (operandS32 n))
  exact ⟨k, _, rfl, hidle, hr ▸ hcnt ▸ hpulses, hdefect, hlog'.trans hlog, hpin'.trans hpin⟩

/-! ### The move in the machine -/

/-- A step with the word of a command at its head runs the command and then post_event (R209). -/
theorem step_encode {s u : State} {i : Instr} {rest : List Input} (h : s.inputs = .cmd (encode i) :: rest)
    (he : exec i ({ s with inputs := rest } : State).beginEvent = .next u) : step s = .next u.postEvent := by
  rw [step_cons s h, State.runInput, runCmd_instr _ (decodeOfEncode i), he, finishEvent_next]

/-- A MOVE word by a non-zero count starts the Idle channel that it names (R153). -/
theorem step_move {s : State} {m : Chan} {n : Data} {rest : List Input}
    (h : s.inputs = .cmd (encode (.move m n)) :: rest) (hidle : (s.ch m).phase = .idle) (hn : n ≠ 0) :
    ∃ t, step s = .next t ∧ t.inputs = rest ∧ t.cfg = s.cfg ∧
      t.ch m = (s.ch m).startMove s.cfg.fTick (s.cfg.invert m) (operandS32 n) := by
  have hch : ({ s with inputs := rest } : State).beginEvent.ch m = s.ch m := withInputs_ch s rest m
  have hexec := execMove_idle (m := m) (by rw [hch]; exact hidle) hn
  rw [hch] at hexec
  exact ⟨_, step_encode h hexec, by simp, by simp, by simp⟩

/-- Settles O54: the MOVE word starts the channel, and the strobes are the ticks that end its move. -/
theorem moveRunsToCompletion : Obligations.MoveRunsToCompletion := by
  intro s m n hs hidle hacc hspd hn
  have hn0 : n ≠ 0 := mt (operandS32_eq_zero_iff n).2 hn
  obtain ⟨k, d, hd, hend⟩ := startMove_ends s.cfg m (hs.profile m) hn0 hacc hspd
  have hch (ins : List Input) : ({ s with inputs := ins } : State).ch m = s.ch m := withInputs_ch s ins m
  obtain ⟨u, hstep, hins, hcfg, hu⟩ := step_move (s := (s.withStrobes m k).withCommand (encode (.move m n))) (m := m)
    rfl ((congrArg Channel.phase (hch _)).trans hidle) hn0
  obtain ⟨t, hrun, hrest, ht⟩ := run_strobes (List.replicate k (maskOf m)) (s := u) (rest := s.inputs)
    (hins.trans (by rw [List.map_replicate]; rfl))
  rw [List.length_replicate] at hrun
  have hcore : Sys2Proof.core.step ((s.withStrobes m k).withCommand (encode (.move m n))) = .next u := hstep
  have htm : t.ch m = d := by
    rw [ht, hu, hcfg, List.countP_replicate, maskSelects_maskOf, if_pos rfl]
    exact (congrArg (fun c => Channel.afterTicks _ k (Channel.startMove _ _ _ c)) (hch _)).trans hd
  obtain ⟨hphase, hcount, hdefect, hlog, hpin⟩ := hend
  rw [← htm] at hphase hcount hdefect hlog hpin
  exact ⟨k, t, (run_succ Sys2Proof.core hcore k).trans hrun, hphase, hcount, hdefect, hlog, hpin, hrest⟩

end Sys2Proof.Machine
end

section
/-! The generator commands of a channel (R150 to R155): SETACC, SETSPD, MOVE, STOP and BUSY write their own channel alone. -/

namespace Sys2Proof.Machine

open Sys2Proof

/-- Writing channel m and answering: the other channel, the driver configuration, the pulses and the surroundings stay. -/
theorem setCh_respond_frame (s : State) (m : Chan) (c : Channel) (e : Status) (d : Data) :
    ((s.setCh m c).respond e d).ch m = c ∧
      ((s.setCh m c).respond e d).ch (otherChan m) = s.ch (otherChan m) ∧ ((s.setCh m c).respond e d).drv = s.drv ∧
      Answers s ((s.setCh m c).respond e d) e d ∧ KeepsSurroundings s ((s.setCh m c).respond e d) := by
  refine ⟨by simp, by simp, by simp, ?_, by simp, by simp, by simp⟩
  cases m <;> rfl

/-- Settles O34. -/
theorem setaccWritesTheShadow : Obligations.SetaccWritesTheShadow := by
  refine ⟨wordMeans_op .setacc, fun m a s => ?_⟩
  obtain ⟨hch, hframe⟩ := setCh_respond_frame s m { s.ch m with accel := a } .ok 0
  exact ⟨_, rfl, by rw [hch], hch, hframe⟩

/-- Settles O35. -/
theorem setspdWritesTheShadow : Obligations.SetspdWritesTheShadow := by
  refine ⟨wordMeans_op .setspd, fun m v s => ?_⟩
  obtain ⟨hch, hframe⟩ := setCh_respond_frame s m { s.ch m with tspeed := v } .ok 0
  exact ⟨_, rfl, by rw [hch], hch, hframe⟩

/-- Settles O36: the busy test comes first, then the zero count, and a started move holds exact values. -/
theorem moveStartsAProfile : Obligations.MoveStartsAProfile := by
  refine ⟨wordMeans_op .move, fun m n s => ⟨fun hb => ?busy, fun hidle hz => ?zero, fun hidle hn => ?started⟩⟩
  case busy => exact if_pos ((channel_busy_iff _).2 hb)
  case zero =>
    have hb : s.busy m = false := (channel_not_busy_iff _).2 hidle
    rw [exec, execMove, hb, operandS32, hz]
    rfl
  case started =>
    have hn0 : n ≠ 0 := mt (operandS32_eq_zero_iff n).2 hn
    obtain ⟨hch, hframe⟩ := setCh_respond_frame s m
      ((s.ch m).startMove s.cfg.fTick (s.cfg.invert m) (operandS32 n)) .ok 0
    obtain ⟨hv, hph, ha, hr, hu, hp, hlog, hpin, hcl, hacc, hspd, hdef, hcnt⟩ :=
      startMove_exact (fTick_lt s.cfg) (s.cfg.invert m) (operandS32 n) (s.ch m)
    have hsteps := magnitude_toNat n
    refine ⟨_, execMove_idle hidle hn0, ?_⟩
    rw [hch]
    refine ⟨hph, hlog, hlog ▸ hpin, ha, hv, by rw [hcl, decide_eq_true_iff], by rw [hr, hsteps]; rfl, ?_, ?_, hu, hp, hacc,
      hspd, hdef, hcnt, hframe⟩
    · rw [hr, hsteps]
      exact Int.natAbs_pos.2 hn
    · rw [hr, hsteps]
      exact operandS32_natAbs_le n

/-- STOP leaves its channel Idle, and the other channel and the driver configuration as before (R154). -/
theorem execStop_idle (s : State) (m : Chan) :
    ∃ t, execStop m s = .next t ∧ (t.ch m).phase = .idle ∧ t.ch (otherChan m) = s.ch (otherChan m) ∧ t.drv = s.drv := by
  rcases execStop_cases s m with ⟨-, h⟩ | ⟨hb, h⟩
  · exact ⟨_, h, by simp, by simp, by simp⟩
  · exact ⟨_, h, by simpa using (channel_not_busy_iff _).1 hb, by simp, rfl⟩

/-- Settles O37: a STOP of a busy channel clears its move, and the post_event of the STOP word then finds both channels
Idle, whether or not the channel was busy. -/
theorem stopHaltsAbruptly : Obligations.StopHaltsAbruptly := by
  refine ⟨wordMeans_op .stop, fun m s => ⟨fun hb => ?busy, fun hidle => ?idle⟩, fun m s rest h hpend hother => ?pending⟩
  case busy =>
    obtain ⟨hch, hframe⟩ := setCh_respond_frame s m (s.ch m).clearMove .ok 0
    exact ⟨_, if_pos ((channel_busy_iff _).2 hb), hch, hframe⟩
  case idle => exact if_neg (Bool.eq_false_iff.1 ((channel_not_busy_iff _).2 hidle))
  case pending =>
    obtain ⟨u, hstop, hm, ho, hdrv⟩ := execStop_idle ({ s with inputs := rest } : State).beginEvent m
    have hidle : u.bothIdle = true := by
      refine (bothIdle_iff u).2 fun n => ?_
      by_cases hn : n = m
      · rw [hn]; exact hm
      · rw [ne_otherChan m n hn, ho, beginEvent_ch, withInputs_ch]; exact hother
    refine ⟨_, step_encode h hstop, ?_⟩
    rw [postEvent_of_pending_idle (by rw [hdrv]; exact hpend) hidle, hdrv]
    rfl

/-- The datum of BUSY tells the two busy levels apart (R155). -/
theorem busyDatum_iff (b : Bool) :
    ((if b then (1 : Data) else 0) = 1 ↔ b = true) ∧ ((if b then (1 : Data) else 0) = 0 ↔ b = false) := by
  cases b <;> decide

/-- Settles O38. -/
theorem busyReportsThePhase : Obligations.BusyReportsThePhase := by
  refine ⟨wordMeans_op .busy, fun m s => ?_⟩
  obtain ⟨hone, hzero⟩ := busyDatum_iff (s.busy m)
  exact ⟨_, hone.trans (channel_busy_iff _), hzero.trans (channel_not_busy_iff _), rfl⟩

end Sys2Proof.Machine
end

section
/-! The channels do not see each other (R69, R130): what an event does to channel m and to STEP[m] is a function of that
channel, of the parameters and of the event. -/

namespace Sys2Proof.Machine

open Sys2Proof

/-! ### A command as a function of one channel -/

/-- What a command makes of channel m, from that channel and the parameters alone (R130). -/
def commandOnChannel (q : Params) (m : Chan) (c : Channel) : Instr → Channel
  | .setacc n a => if n = m then { c with accel := a } else c
  | .setspd n v => if n = m then { c with tspeed := v } else c
  | .move n x => if n = m ∧ c.busy = false ∧ x ≠ 0 then c.startMove q.fTick (q.invert m) (operandS32 x) else c
  | .stop n => if n = m ∧ c.busy = true then c.clearMove else c
  | .dirfwd n => if n = m ∧ c.busy = false then c.setDirection (q.invert m) false else c
  | .dirbwd n => if n = m ∧ c.busy = false then c.setDirection (q.invert m) true else c
  | .tick k => if maskSelects k m then (genTick q.fTick c).1 else c
  | .nop | .busy _ | .enable _ | .setmode _ | .setspr _ | .rdreg _ => c

/-- Whether a command pulses STEP[m], from channel m and the parameters alone: only a tick does (R141). -/
def commandPulses (q : Params) (m : Chan) (c : Channel) : Instr → Bool
  | .tick k => maskSelects k m && (genTick q.fTick c).2.pulse
  | _ => false

section Command

variable (s : State) (n m : Chan)

/-- Writing a channel by a function of it, seen from channel m. -/
theorem setCh_ch_map (g : Chan → Channel → Channel) :
    (s.setCh n (g n (s.ch n))).ch m = if n = m then g m (s.ch m) else s.ch m := by
  split
  case isTrue h => subst h; exact setCh_ch_same ..
  case isFalse h => exact setCh_ch_of_ne s _ (Ne.symm h)

theorem steer_ch (b : Bool) :
    (s.steer n b).ch m =
      if n = m ∧ (s.ch m).busy = false then (s.ch m).setDirection (s.cfg.invert m) b else s.ch m := by
  rcases steer_cases s n b with ⟨hb, e⟩ | ⟨hb, e⟩ <;> rw [e, respond_ch]
  · rw [if_neg]
    rintro ⟨rfl, hb'⟩
    exact Bool.false_ne_true (hb'.symm.trans hb)
  · exact (setCh_ch_map s n m fun n c => c.setDirection (s.cfg.invert n) b).trans
      (if_congr ⟨fun h => ⟨h, h ▸ hb⟩, And.left⟩ rfl rfl)

theorem steer_stepOut (b : Bool) : (s.steer n b).stepOut m = s.stepOut m := by
  rcases steer_cases s n b with ⟨-, e⟩ | ⟨-, e⟩ <;> rw [e] <;> simp

theorem writeDrv_stepOut (d : DriverConfig) : ({ s with drv := d } : State).stepOut m = s.stepOut m := by cases m <;> rfl

variable {s} {i : Instr} {t : State}

/-- A command does to each channel what its function says. -/
theorem exec_ch (h : exec i s = .next t) : t.ch m = commandOnChannel s.cfg m (s.ch m) i := by
  cases i with
  | nop | busy | enable | setmode | setspr | rdreg => simpa [commandOnChannel] using exec_ch_cases h m
  | setacc n a => cases h; exact (respond_ch ..).trans (setCh_ch_map s n m fun _ c => { c with accel := a })
  | setspd n v => cases h; exact (respond_ch ..).trans (setCh_ch_map s n m fun _ c => { c with tspeed := v })
  | move n x =>
    rw [commandOnChannel]
    rcases execMove_cases s n x with ⟨hb, e⟩ | ⟨-, hx, e⟩ | ⟨hb, hx, e⟩ <;> cases e.symm.trans h <;> rw [respond_ch]
    · rw [if_neg]
      rintro ⟨rfl, hb', -⟩
      exact Bool.false_ne_true (hb'.symm.trans hb)
    · rw [if_neg fun ⟨_, _, hx'⟩ => hx' hx]
    · exact (setCh_ch_map s n m fun n c => c.startMove s.cfg.fTick (s.cfg.invert n) (operandS32 x)).trans
        (if_congr ⟨fun h => ⟨h, h ▸ hb, hx⟩, And.left⟩ rfl rfl)
  | stop n =>
    rw [commandOnChannel]
    rcases execStop_cases s n with ⟨hb, e⟩ | ⟨hb, e⟩ <;> cases e.symm.trans h <;> rw [respond_ch]
    · exact (setCh_ch_map s n m fun _ c => c.clearMove).trans (if_congr ⟨fun h => ⟨h, h ▸ hb⟩, And.left⟩ rfl rfl)
    · rw [if_neg]
      rintro ⟨rfl, hb'⟩
      exact Bool.false_ne_true (hb.symm.trans hb')
  | dirfwd n | dirbwd n => cases h; exact steer_ch s n m _
  | tick k => cases h; exact (respond_ch ..).trans (tickMask_ch s k m)

/-- A command pulses STEP[m] where its function says, and keeps the pulse that is there. -/
theorem exec_stepOut (h : exec i s = .next t) :
    t.stepOut m = (s.stepOut m || commandPulses s.cfg m (s.ch m) i) := by
  cases i with
  | nop | setacc | setspd | busy => cases h; simp [commandPulses]
  | enable e => cases h; simp [commandPulses, writeDrv_stepOut]
  | move n x =>
    rcases execMove_cases s n x with ⟨-, e⟩ | ⟨-, -, e⟩ | ⟨-, -, e⟩ <;> cases e.symm.trans h <;> simp [commandPulses]
  | stop n => rcases execStop_cases s n with ⟨-, e⟩ | ⟨-, e⟩ <;> cases e.symm.trans h <;> simp [commandPulses]
  | dirfwd n | dirbwd n => cases h; simp [commandPulses, steer_stepOut]
  | setmode k =>
    rcases execSetmode_cases s k with ⟨-, e⟩ | ⟨-, md, -, e⟩ <;> cases e.symm.trans h
    · simp [commandPulses]
    · rcases selectMode_cases s md with ⟨-, e⟩ | ⟨-, e⟩ <;> simp [e, commandPulses, writeDrv_stepOut]
  | setspr x =>
    rcases execSetspr_cases s x with ⟨-, e⟩ | ⟨-, e⟩ <;> cases e.symm.trans h <;> simp [commandPulses, writeDrv_stepOut]
  | rdreg r =>
    rcases execRdreg_cases s r with ⟨-, _, -, e⟩ | ⟨-, -, e⟩ <;> cases e.symm.trans h <;> simp [commandPulses]
  | tick k => cases h; simp [commandPulses, tickMask_stepOut]

end Command

/-! ### Two states that agree on a channel -/

section Agree

variable {s1 s2 t1 t2 : State} {m : Chan}

/-- A command word, an illegal one too, treats a channel that two states agree on alike, and its pulses too. -/
theorem runCmd_agree {w : Word} (h1 : s1.runCmd w = .next t1) (h2 : s2.runCmd w = .next t2)
    (hcfg : s1.cfg = s2.cfg) (hch : s1.ch m = s2.ch m) : t1.ch m = t2.ch m ∧ t1.stepOut m = t2.stepOut m := by
  have hout : s1.beginEvent.stepOut m = s2.beginEvent.stepOut m := by cases m <;> rfl
  rcases runCmd_cases s1 w with ⟨i, u1, hd1, he1, e1⟩ | ⟨why1, hd1, e1⟩ <;>
    rcases runCmd_cases s2 w with ⟨j, u2, hd2, he2, e2⟩ | ⟨why2, hd2, e2⟩ <;> cases hd1.symm.trans hd2 <;>
    cases e1.symm.trans h1 <;> cases e2.symm.trans h2
  · simp only [postEvent_ch, postEvent_stepOut, exec_ch m he1, exec_ch m he2, exec_stepOut m he1, exec_stepOut m he2,
      beginEvent_ch, beginEvent_cfg, hcfg, hch, hout, and_self]
  · simp [hch, hout]

/-- A strobe treats a channel that two states agree on alike, and its pulses too (R207). -/
theorem runStrobe_agree {k : BitVec 2} (h1 : s1.runStrobe k = .next t1) (h2 : s2.runStrobe k = .next t2)
    (hcfg : s1.cfg = s2.cfg) (hch : s1.ch m = s2.ch m) :
    t1.ch m = t2.ch m ∧ t1.stepOut m = t2.stepOut m := by
  have hout : s1.beginEvent.stepOut m = s2.beginEvent.stepOut m := by cases m <;> rfl
  cases h1
  cases h2
  simp [tickMask_ch, tickMask_stepOut, hcfg, hch, hout]

end Agree

/-- Settles O19: a byte that completes no word writes no channel and no pulse, and every event treats the channel
alike. -/
theorem channelsAreIndependent : Obligations.ChannelsAreIndependent := by
  intro s1 s2 t1 t2 m x rest1 rest2 h1 h2 hrx hcfg hch hout ht1 ht2
  rw [step_cons s1 h1] at ht1
  rw [step_cons s2 h2] at ht2
  have hch' (ins1 ins2 : List Input) (rx1 rx2 : List Byte) :
      ({ s1 with inputs := ins1, rx := rx1 } : State).ch m = ({ s2 with inputs := ins2, rx := rx2 } : State).ch m := by
    rw [withTransport_ch s1, withTransport_ch s2, hch]
  cases x with
  | cmd w => exact runCmd_agree ht1 ht2 hcfg (hch' ..)
  | cmdByte b =>
    simp only [State.runInput, State.runByte, hrx] at ht1 ht2
    split at ht1
    case isTrue hlen =>
      rw [if_pos hlen] at ht2
      cases ht1
      cases ht2
      refine ⟨hch' .., ?_⟩
      cases m <;> exact hout
    case isFalse hlen =>
      rw [if_neg hlen] at ht2
      exact runCmd_agree ht1 ht2 hcfg (hch' ..)
  | strobe k => exact runStrobe_agree ht1 ht2 hcfg (hch' ..)
  | reset =>
    cases (step_reset h1).symm.trans ((step_cons s1 h1).trans ht1)
    cases (step_reset h2).symm.trans ((step_cons s2 h2).trans ht2)
    rw [resetWith_ch, resetWith_ch, hcfg]
    exact ⟨rfl, by cases m <;> rfl⟩

end Sys2Proof.Machine
end

section
/-! The direction of a channel (R183 to R188): DIRFWD, DIRBWD and MOVE write it while the channel is Idle, and nothing but
reset writes it during a move. -/

namespace Sys2Proof.Machine

open Sys2Proof

/-! ### DIRFWD and DIRBWD -/

section Steer

variable {s : State} {m : Chan}

theorem steer_idle (h : (s.ch m).phase = .idle) (b : Bool) :
    s.steer m b = (s.setCh m ((s.ch m).setDirection (s.cfg.invert m) b)).respond .ok 0 :=
  if_neg (Bool.eq_false_iff.1 ((channel_not_busy_iff _).2 h))

theorem steer_busy (h : (s.ch m).phase ≠ .idle) (b : Bool) :
    s.steer m b = s.respond .motionAlreadyInProgress 0 :=
  if_pos ((channel_busy_iff _).2 h)

end Steer

theorem setDirection_forwards (c : Channel) (invert : Bool) :
    c.setDirection invert false = { c with dirLog := false, dirPin := invert } := by
  rw [Channel.setDirection, Bool.false_xor]

theorem setDirection_backwards (c : Channel) (invert : Bool) :
    c.setDirection invert true = { c with dirLog := true, dirPin := !invert } := by
  rw [Channel.setDirection, Bool.true_xor]

/-- Settles O39. -/
theorem dirfwdSetsForwards : Obligations.DirfwdSetsForwards := by
  refine ⟨wordMeans_op .dirfwd, fun m s => ⟨fun hidle => ?_, fun hb => congrArg Host.Outcome.next (steer_busy hb false)⟩⟩
  obtain ⟨hch, hframe⟩ := setCh_respond_frame s m ((s.ch m).setDirection (s.cfg.invert m) false) .ok 0
  exact ⟨_, congrArg Host.Outcome.next (steer_idle hidle false), hch.trans (setDirection_forwards ..), hframe⟩

/-- Settles O40. -/
theorem dirbwdSetsBackwards : Obligations.DirbwdSetsBackwards := by
  refine ⟨wordMeans_op .dirbwd, fun m s => ⟨fun hidle => ?_, fun hb => congrArg Host.Outcome.next (steer_busy hb true)⟩⟩
  obtain ⟨hch, hframe⟩ := setCh_respond_frame s m ((s.ch m).setDirection (s.cfg.invert m) true) .ok 0
  exact ⟨_, congrArg Host.Outcome.next (steer_idle hidle true), hch.trans (setDirection_backwards ..), hframe⟩

/-! ### A busy channel holds its direction (R185) -/

/-- Of the updates of a channel only MOVE and the direction commands write the direction, and they are refused while the
channel is busy. -/
theorem event_holds_direction {s t : State} {x : Input} {rest : List Input} {m : Chan} (h : s.inputs = x :: rest)
    (hx : ∀ b, x ≠ .cmdByte b) (hr : x ≠ .reset) (hb : s.busy m = true) (ht : step s = .next t) :
    (t.ch m).dirLog = (s.ch m).dirLog ∧ (t.ch m).dirPin = (s.ch m).dirPin := by
  rcases step_ch_cases h hx hr ht m with
    e | ⟨a, -, e⟩ | ⟨v, -, e⟩ | ⟨n, -, hidle, -⟩ | ⟨-, -, e⟩ | ⟨b, -, hidle, -⟩ | ⟨-, e⟩
  case inr.inr.inr.inl | inr.inr.inr.inr.inr.inl => exact absurd (hb.symm.trans hidle) (by decide)
  case inr.inr.inr.inr.inr.inr =>
    obtain ⟨-, -, -, -, hlog, hpin, -⟩ := genTick_keeps s.cfg.fTick (s.ch m)
    rw [e]
    exact ⟨hlog, hpin⟩
  all_goals rw [e]; exact ⟨rfl, rfl⟩

/-- Settles O51: a transport byte waits and writes no channel, or completes a command word, which is an event. -/
theorem directionHeldWhileBusy : Obligations.DirectionHeldWhileBusy := by
  intro s t x rest m h hr hb ht
  have hch (ins : List Input) (rx : List Byte) : ({ s with inputs := ins, rx := rx } : State).ch m = s.ch m :=
    withTransport_ch s ins rx m
  cases x with
  | cmd w => exact event_holds_direction h nofun hr hb ht
  | strobe k => exact event_holds_direction h nofun hr hb ht
  | reset => exact absurd rfl hr
  | cmdByte b =>
    rcases step_byte h ht with ⟨-, rfl⟩ | ⟨-, hword⟩
    · rw [hch]
      exact ⟨rfl, rfl⟩
    · have hheld := event_holds_direction (m := m) rfl (by simp) (by simp) (by rwa [busy_eq, hch]) hword
      rwa [hch] at hheld

/-! ### The direction that a move leaves (R188) -/

/-- A run of k + 1 steps that does not stop took a step and then ran on. -/
theorem run_succ_next (M : Host.Core) {k : Nat} {s t : M.State} (h : M.run (k + 1) s = .next t) :
    ∃ u, M.step s = .next u ∧ M.run k u = .next t := by
  rw [Host.Core.run] at h
  split at h
  case h_1 u hstep => exact ⟨u, hstep, h⟩
  all_goals cases h

/-- A run keeps the parameters, whatever its inputs (R23). -/
theorem run_keeps_cfg (k : Nat) {s t : State} (h : Sys2Proof.core.run k s = .next t) : t.cfg = s.cfg := by
  induction k generalizing s with
  | zero => cases h; rfl
  | succ k ih =>
    obtain ⟨u, hstep, hrun⟩ := run_succ_next Sys2Proof.core h
    exact (ih hrun).trans (parametersNeverChange s u hstep)

/-- A MOVE word of an Idle channel and any number of strobes leave the direction level of the sign of the count, also where
the move has ended. -/
theorem run_move_dirOut {s t : State} {m : Chan} {n : Data} {k : Nat} (hidle : (s.ch m).phase = .idle) (hn : n ≠ 0)
    (hrun : Sys2Proof.core.run (k + 1) ((s.withStrobes m k).withCommand (encode (.move m n))) = .next t) :
    t.dirOut m = (decide (n.toInt < 0) ^^ s.cfg.invert m) := by
  have hch (ins : List Input) : ({ s with inputs := ins } : State).ch m = s.ch m := withInputs_ch s ins m
  obtain ⟨u, hstep, hins, -, hu⟩ := step_move (s := (s.withStrobes m k).withCommand (encode (.move m n))) (m := m)
    rfl ((congrArg Channel.phase (hch _)).trans hidle) hn
  obtain ⟨t', hrun', -, ht⟩ := run_strobes (List.replicate k (maskOf m)) (s := u) (rest := s.inputs)
    (hins.trans (by rw [List.map_replicate]; rfl))
  rw [List.length_replicate] at hrun'
  have hcore : Sys2Proof.core.step ((s.withStrobes m k).withCommand (encode (.move m n))) = .next u := hstep
  rw [run_succ Sys2Proof.core hcore, hrun'] at hrun
  cases hrun
  rw [State.dirOut, ht, (afterTicks_direction ..).2, hu]
  rfl

/-- Settles O55: the second MOVE finds the parameters of the first, and its count has the other sign. -/
theorem oppositeMovesOppositePins : Obligations.OppositeMovesOppositePins := by
  intro s t1 t2 m n k1 k2 hidle hpos hrun1 hidle1 hrun2
  have hneg : (-n).toInt < 0 := by
    rw [BitVec.toInt_neg_of_ne_intMin (by rintro rfl; exact absurd hpos (by decide))]
    exact Int.neg_neg_of_pos hpos
  have hn : n ≠ 0 := mt (operandS32_eq_zero_iff n).2 hpos.ne'
  have hn' : -n ≠ 0 := mt (operandS32_eq_zero_iff (-n)).2 hneg.ne
  have hcfg : t1.cfg = s.cfg := (run_keeps_cfg _ hrun1).trans rfl
  rw [run_move_dirOut hidle hn hrun1, run_move_dirOut hidle1 hn' hrun2, hcfg, decide_eq_false (not_lt_of_gt hpos),
    decide_eq_true hneg, Bool.false_xor, Bool.true_xor]
  exact ⟨rfl, rfl⟩

end Sys2Proof.Machine
end

section
/-! The host interface (R201 to R210): every input is taken to its end, a command word is the event of its command, and
what NOP, RDREG, TICK and a strobe do. -/

namespace Sys2Proof.Machine

open Sys2Proof

/-! ### Every input is taken to its end (R201, R210) -/

/-- A command word, legal or not, is answered, and leaves the later inputs (R86, R201). -/
theorem runCmd_completes (s : State) (w : Word) : ∃ t, s.runCmd w = .next t ∧ t.inputs = s.inputs := by
  rcases runCmd_cases s w with ⟨i, u, -, hexec, hrun⟩ | ⟨why, -, hrun⟩
  · obtain ⟨-, hinputs, -⟩ := exec_keepsSurroundings hexec
    exact ⟨_, hrun, by rw [postEvent_inputs, hinputs, beginEvent_inputs]⟩
  · exact ⟨_, hrun, by simp⟩

/-- A step with a command word at its head is the event of that word (R201). -/
theorem step_command {s : State} {w : Word} {rest : List Input} (h : s.inputs = .cmd w :: rest) :
    step s = ({ s with inputs := rest } : State).runCmd w := step_cons s h

/-- A step takes the input at its head, whatever it is. -/
theorem step_takes_input {s : State} {x : Input} {rest : List Input} (h : s.inputs = x :: rest) :
    ∃ t, step s = .next t ∧ t.inputs = rest := by
  cases x with
  | cmd w => rw [step_command h]; exact runCmd_completes _ w
  | cmdByte b =>
    rcases Nat.lt_or_ge s.rx.length 7 with hwaits | hcompletes
    · exact ⟨_, step_byte_waits h hwaits, rfl⟩
    · rw [step_byte_completes h hcompletes, step_command rfl]
      exact runCmd_completes _ _
  | strobe k =>
    obtain ⟨t, hstep, hinputs, -⟩ := step_strobe h
    exact ⟨t, hstep, hinputs⟩
  | reset => exact ⟨_, step_reset h, rfl⟩

/-- Settles O11. -/
theorem stepRunsDecodedCommand : Obligations.StepRunsDecodedCommand := fun _ _ _ _ h hd =>
  (step_command h).trans (runCmd_instr _ hd)

/-- Settles O12: the block waits or takes the input at its head. -/
theorem everyStepCompletes : Obligations.EveryStepCompletes := by
  intro s
  cases h : s.inputs with
  | nil => exact ⟨s, step_nil s h, h, fun _ => rfl⟩
  | cons x rest =>
    obtain ⟨t, hstep, hinputs⟩ := step_takes_input h
    exact ⟨t, hstep, hinputs, nofun⟩

/-! ### NOP and RDREG (R204, R205) -/

/-- Settles O33: NOP's word is 0, and with the invariants post_event has no pending mode to apply (R36). -/
theorem nopOnlyAnswers : Obligations.NopOnlyAnswers := by
  refine ⟨wordMeans_op .nop, fun _ => rfl, fun s rest hs h => ?_⟩
  have hword : encode .nop = 0 := by decide
  have hpost : ({ s with inputs := rest } : State).beginEvent.postEvent = { s with inputs := rest, out := .none } :=
    postEvent_of_pendBusy hs.pendBusy
  rw [step_encode (i := .nop) (hword.symm ▸ h) rfl, postEvent_respond, hpost]
  rfl

/-- A phase other than Stopped has a code below 4 (R28). -/
theorem phaseCode_lt {ph : Phase} (h : ph ≠ .stopped) : ph.code.toNat < 4 := by
  cases ph with
  | stopped => exact absurd rfl h
  | idle | accelerating | cruising | decelerating => decide

/-- MSTAT of a channel that keeps its invariants never shows Stopped (R28, R133). -/
theorem mstat_phase_lt {f : Nat} {invert : Bool} {c : Channel} (hc : ChannelInv f invert c) :
    (c.mstat.extractLsb' 0 3).toNat < 4 := by
  obtain ⟨hphase, -⟩ := mstat_fields c
  rw [hphase]
  exact phaseCode_lt hc.notStopped

/-- Settles O44: the numbers with a register are R30's, and 0x10 and 0x20 are those of MSTAT. -/
theorem rdregReadsARegister : Obligations.RdregReadsARegister := by
  refine ⟨wordMeans_op .rdreg, fun r s => ?_, fun s v hs hv => ?_⟩
  · rcases execRdreg_cases s r with ⟨hdef, v, hread, hexec⟩ | ⟨hundef, -, hexec⟩
    · exact ⟨fun _ => ⟨v, hread, hexec⟩, absurd hdef⟩
    · exact ⟨(absurd · hundef), fun _ => hexec⟩
  · have hread (m : Chan) (hm : some (s.ch m).mstat = some v) : (v.extractLsb' 0 3).toNat < 4 := by
      cases hm
      exact mstat_phase_lt (hs.channel m)
    rcases hv with hv | hv
    · exact hread .m0 ((regRead_chan s .m0 .mstat).symm.trans hv)
    · exact hread .m1 ((regRead_chan s .m1 .mstat).symm.trans hv)

/-! ### TICK (R206, R208) -/

/-- The fields of the TICK data word (R208). -/
theorem tickData_fields (b0 b1 : TickBits) :
    (tickData b0 b1).getLsbD 0 = b0.pulse ∧ (tickData b0 b1).getLsbD 1 = b1.pulse ∧
      (tickData b0 b1).getLsbD 2 = b0.done ∧ (tickData b0 b1).getLsbD 3 = b1.done ∧
      (tickData b0 b1).getLsbD 4 = b0.defect ∧ (tickData b0 b1).getLsbD 5 = b1.defect ∧
      (tickData b0 b1).extractLsb' 6 26 = 0 := by
  unfold tickData
  refine ⟨?p0, ?p1, ?d0, ?d1, ?f0, ?f1, ?rsv⟩
  case p0 | p1 | d0 | d1 | f0 | f1 => simp only [BitVec.getLsbD_append]; simp
  case rsv =>
    repeat rw [BitVec.extractLsb'_append_eq_of_le (by decide)]
    exact BitVec.extractLsb'_zero

/-- The bits of channel m under a mask are those of its tick, each gated by the mask (R206, R208). -/
theorem bitsIf_fields (s : State) (k : BitVec 2) (m : Chan) :
    (s.bitsIf k m).pulse = (maskSelects k m && (genTick s.cfg.fTick (s.ch m)).2.pulse) ∧
      (s.bitsIf k m).done = (maskSelects k m && (genTick s.cfg.fTick (s.ch m)).2.done) ∧
      (s.bitsIf k m).defect = (maskSelects k m && (genTick s.cfg.fTick (s.ch m)).2.defect) := by
  rw [State.bitsIf, State.tickBits]
  cases maskSelects k m
  · exact ⟨rfl, rfl, rfl⟩
  · exact ⟨rfl, rfl, rfl⟩

/-- Settles O45: the data word holds the bits of each channel on its own, whichever is ticked first. -/
theorem tickAdvancesSelectedChannels : Obligations.TickAdvancesSelectedChannels := by
  refine ⟨wordMeans_op .tick, fun k s => ⟨(s.tickMask k).respond .ok (s.tickWord k), s.tickWord k, rfl, rfl, ?_⟩⟩
  obtain ⟨hp0, hp1, hd0, hd1, hf0, hf1, hrsv⟩ := tickData_fields (s.bitsIf k .m0) (s.bitsIf k .m1)
  obtain ⟨hpulse0, hdone0, hdefect0⟩ := bitsIf_fields s k .m0
  obtain ⟨hpulse1, hdone1, hdefect1⟩ := bitsIf_fields s k .m1
  rw [← tickWord_eq] at hp0 hp1 hd0 hd1 hf0 hf1 hrsv
  refine ⟨fun m => ?ch, fun m => ?stepOut, hp0.trans hpulse0, hp1.trans hpulse1, hd0.trans hdone0, hd1.trans hdone1,
    hf0.trans hdefect0, hf1.trans hdefect1, hrsv, ?frame⟩
  case ch => rw [respond_ch, tickMask_ch]
  case stepOut => rw [respond_stepOut, tickMask_stepOut]
  case frame => exact ⟨tickMask_drv s k, tickMask_cfg s k, tickMask_inputs s k, tickMask_rx s k⟩

/-! ### Strobes (R207, R210) -/

/-- A strobe is the ticks of its mask and then post_event (R207). -/
theorem step_strobe_ticks {s : State} {k : BitVec 2} {rest : List Input} (h : s.inputs = .strobe k :: rest) :
    step s = .next (({ s with inputs := rest } : State).beginEvent.tickMask k).postEvent := step_cons s h

/-- Taking the response away from an answer leaves the state that had none. -/
theorem respond_withoutResponse {s : State} (h : s.out.rsp = none) (e : Status) (d : Data) :
    ({ s.respond e d with out := { (s.respond e d).out with rsp := none } } : State) = s :=
  congrArg (fun r => ({ s with out := { s.out with rsp := r } } : State)) h.symm

/-- Settles O15: the TICK word and the strobe tick the same state, and post_event does the same after both. -/
theorem strobeIsTickWithoutResponse : Obligations.StrobeIsTickWithoutResponse := by
  intro s t1 t2 k rest htick hstrobe
  cases (step_encode (i := .tick k) rfl rfl).symm.trans htick
  cases (step_strobe_ticks rfl).symm.trans hstrobe
  rw [postEvent_respond, respond_withoutResponse]
  simp [EventOut.none]

/-- A tick of an Idle channel changes nothing in the machine, and does not pulse (R136). -/
theorem tickIf_of_idle {s : State} {m : Chan} (h : (s.ch m).phase = .idle) (k : BitVec 2) : s.tickIf k m = s := by
  rw [State.tickIf, tickChan_eq, genTick_idle h]
  split
  · exact setCh_self s m
  · rfl

/-- With both channels Idle no mask ticks anything (R136). -/
theorem tickMask_of_bothIdle {s : State} (h : s.bothIdle = true) (k : BitVec 2) : s.tickMask k = s := by
  have hidle := (bothIdle_iff s).1 h
  rw [State.tickMask, tickIf_of_idle (hidle .m0), tickIf_of_idle (hidle .m1)]

theorem quiescent_iff (s : State) : s.quiescent = true ↔ s.bothIdle = true ∧ s.drv.modePend = false := by
  rw [State.quiescent, Bool.and_eq_true, Bool.not_eq_true']

/-- In a quiescent block the ticks find both channels Idle, and post_event no mode pending (R210). -/
theorem tickMask_postEvent_of_quiescent {s : State} (h : s.quiescent = true) (k : BitVec 2) :
    (s.tickMask k).postEvent = s := by
  obtain ⟨hidle, hpend⟩ := (quiescent_iff s).1 h
  rw [tickMask_of_bothIdle hidle, postEvent_of_not_pending hpend]

/-- Settles O22: the block is as quiescent when the strobe is taken as it was before. -/
theorem noTickChangesAQuiescentBlock : Obligations.NoTickChangesAQuiescentBlock := by
  intro s k rest hquiescent h
  have htaken : ({ s with inputs := rest } : State).beginEvent.quiescent = true := hquiescent
  rw [step_strobe_ticks h, tickMask_postEvent_of_quiescent htaken]
  rfl

end Sys2Proof.Machine
end

section
/-! The errors (R220 to R226): each command has at most one check of its own, the check decides the status, and a refused
command has written nothing. -/

namespace Sys2Proof.Machine

open Sys2Proof

/-! ### The one check of a command (R226) -/

/-- The error that a command's own check finds, none where the command is executed: the busy test of MOVE, DIRFWD and
DIRBWD, the operand test of SETMODE and SETSPR, and the register-number test of RDREG (R226). -/
def commandError (i : Instr) (s : State) : Option Status :=
  match i with
  | .move m _ | .dirfwd m | .dirbwd m => if s.busy m then some .motionAlreadyInProgress else none
  | .setmode k => if 4 < k.toNat then some .invalidConfiguration else none
  | .setspr n => if n = 0 then some .invalidConfiguration else none
  | .rdreg r => if regOfNumber r = none then some .illegalCommand else none
  | .nop | .setacc _ _ | .setspd _ _ | .stop _ | .busy _ | .enable _ | .tick _ => none

section Check

variable (i : Instr) (s : State)

/-- A command whose check finds an error only answers it, with DATA 0, and one whose check finds none answers OK. -/
theorem exec_answer_cases :
    (∃ e, commandError i s = some e ∧ exec i s = .next (s.respond e 0)) ∨
      (commandError i s = none ∧ ∃ t d, exec i s = .next t ∧ t.out.rsp = some ⟨.ok, d⟩) := by
  cases i with
  | nop | setacc | setspd | busy | enable | tick => exact .inr ⟨rfl, _, _, rfl, rfl⟩
  | stop m =>
    rcases execStop_cases s m with ⟨-, h⟩ | ⟨-, h⟩ <;> exact .inr ⟨rfl, _, _, h, rfl⟩
  | move m n =>
    rcases execMove_cases s m n with ⟨hbusy, h⟩ | ⟨hidle, -, h⟩ | ⟨hidle, -, h⟩
    · exact .inl ⟨_, if_pos hbusy, h⟩
    · exact .inr ⟨if_neg (Bool.eq_false_iff.1 hidle), _, _, h, rfl⟩
    · exact .inr ⟨if_neg (Bool.eq_false_iff.1 hidle), _, _, h, rfl⟩
  | dirfwd m | dirbwd m =>
    by_cases hidle : (s.ch m).phase = .idle
    · have hcheck : s.busy m ≠ true := Bool.eq_false_iff.1 ((channel_not_busy_iff _).2 hidle)
      exact .inr ⟨if_neg hcheck, _, _, congrArg Host.Outcome.next (steer_idle hidle _), rfl⟩
    · have hcheck : s.busy m = true := (channel_busy_iff _).2 hidle
      exact .inl ⟨_, if_pos hcheck, congrArg Host.Outcome.next (steer_busy hidle _)⟩
  | setmode k =>
    rcases execSetmode_cases s k with ⟨hk, h⟩ | ⟨hk, md, -, h⟩
    · exact .inl ⟨_, if_pos hk, h⟩
    · exact .inr ⟨if_neg (Nat.not_lt.2 hk), _, _, h, rfl⟩
  | setspr n =>
    rcases execSetspr_cases s n with ⟨hn, h⟩ | ⟨hn, h⟩
    · exact .inl ⟨_, if_pos hn, h⟩
    · exact .inr ⟨if_neg hn, _, _, h, rfl⟩
  | rdreg r =>
    rcases execRdreg_cases s r with ⟨hdef, v, -, h⟩ | ⟨hundef, -, h⟩
    · exact .inr ⟨if_neg fun hnone => (regOfNumber_none_iff r).1 hnone hdef, _, _, h, rfl⟩
    · exact .inl ⟨_, if_pos ((regOfNumber_none_iff r).2 hundef), h⟩

/-- No check answers OK. -/
theorem commandError_ne_ok : commandError i s ≠ some .ok := by
  cases i <;> simp [commandError]

/-- R221's cause among the legal words. -/
theorem commandError_illegalCommand_iff :
    commandError i s = some .illegalCommand ↔ ∃ r, i = .rdreg r ∧ ¬ definedNumber r := by
  cases i with
  | rdreg r => simp [commandError, regOfNumber_none_iff]
  | nop | setacc | setspd | move | stop | dirfwd | dirbwd | busy | enable | setmode | setspr | tick =>
    simp [commandError]

/-- R222's causes. -/
theorem commandError_invalidConfiguration_iff :
    commandError i s = some .invalidConfiguration ↔ (∃ k, i = .setmode k ∧ 4 < k.toNat) ∨ i = .setspr 0 := by
  cases i with
  | setmode | setspr => simp [commandError]
  | nop | setacc | setspd | move | stop | dirfwd | dirbwd | busy | enable | rdreg | tick => simp [commandError]

/-- R223's causes. -/
theorem commandError_motionAlreadyInProgress_iff :
    commandError i s = some .motionAlreadyInProgress ↔
      ∃ m, s.busy m = true ∧ ((∃ n, i = .move m n) ∨ i = .dirfwd m ∨ i = .dirbwd m) := by
  cases i with
  | move | dirfwd | dirbwd => simp [commandError]
  | nop | setacc | setspd | stop | busy | enable | setmode | setspr | rdreg | tick => simp [commandError]

/-- A command that its busy test refuses has a hazard that is not of the accepted kind (R223, R224). -/
theorem refused_hazard_of_motionAlreadyInProgress (h : commandError i s = some .motionAlreadyInProgress) :
    ∃ z ∈ hazards i s, z.refused = true := by
  obtain ⟨m, hbusy, ⟨n, rfl⟩ | rfl | rfl⟩ := (commandError_motionAlreadyInProgress_iff i s).1 h
  · exact ⟨.moveWhileBusy, by simp [hazards, moveHazards, hbusy], rfl⟩
  · exact ⟨.steerWhileBusy, by simp [hazards, hazardIf, hbusy], rfl⟩
  · exact ⟨.steerWhileBusy, by simp [hazards, hazardIf, hbusy], rfl⟩

/-- The check looks at nothing but the operands and the busy channels. -/
theorem commandError_congr {t : State} (h : ∀ m, t.busy m = s.busy m) : commandError i t = commandError i s := by
  cases i with
  | move m | dirfwd m | dirbwd m => simp [commandError, h m]
  | nop | setacc | setspd | stop | busy | enable | setmode | setspr | rdreg | tick => rfl

end Check

/-! ### The error of a command word -/

/-- The error of a command word: decoding comes first, then the command's own check (R226). -/
def wordError (w : Word) (s : State) : Option Status :=
  match decode w with
  | .instr i => commandError i s
  | .illegal _ => some .illegalCommand

section Word

variable {w : Word} {s : State}

theorem wordError_instr {i : Instr} (h : decode w = .instr i) : wordError w s = commandError i s := by
  simp [wordError, h]

theorem wordError_illegal {why : Illegal} (h : decode w = .illegal why) : wordError w s = some .illegalCommand := by
  simp [wordError, h]

/-- What a step with a command word does: the word's error is the answer and post_event follows, or the answer is OK. -/
theorem step_answer_cases {t : State} {rest : List Input} (h : s.inputs = .cmd w :: rest) (ht : step s = .next t) :
    (∃ e, wordError w s = some e ∧ t = (({ s with inputs := rest, out := .none } : State).respond e 0).postEvent) ∨
      (wordError w s = none ∧ ∃ d, t.out.rsp = some ⟨.ok, d⟩) := by
  rw [step_command h] at ht
  rcases runCmd_cases { s with inputs := rest } w with ⟨i, u, hd, hexec, hrun⟩ | ⟨why, hd, hrun⟩
  · cases hrun.symm.trans ht
    have hbusy (m : Chan) : ({ s with inputs := rest } : State).beginEvent.busy m = s.busy m := by
      rw [beginEvent_busy, withInputs_busy]
    rw [wordError_instr hd, ← commandError_congr i s hbusy]
    rcases exec_answer_cases i ({ s with inputs := rest } : State).beginEvent with
      ⟨e, herror, hanswer⟩ | ⟨hnone, v, d, hanswer, hok⟩
    · cases hanswer.symm.trans hexec
      exact .inl ⟨e, herror, rfl⟩
    · cases hanswer.symm.trans hexec
      exact .inr ⟨hnone, d, by rw [postEvent_out, hok]⟩
  · cases hrun.symm.trans ht
    exact .inl ⟨_, wordError_illegal hd, rfl⟩

/-- An error status is answered exactly where it is the word's error. -/
theorem answers_error_iff {t : State} {rest : List Input} (h : s.inputs = .cmd w :: rest) (ht : step s = .next t)
    {e : Status} (he : e ≠ .ok) : (∃ d, t.out.rsp = some ⟨e, d⟩) ↔ wordError w s = some e := by
  rcases step_answer_cases h ht with ⟨e', herror, rfl⟩ | ⟨hnone, d', hok⟩
  · rw [herror, postEvent_out, respond_rsp]
    simp
  · rw [hnone, hok]
    simp [he.symm]

end Word

/-! ### The obligations -/

/-- Settles O23: an illegal word, or the register-number test of RDREG. -/
theorem illegalCommandExactly : Obligations.IllegalCommandExactly := by
  intro s t w rest h ht
  rw [answers_error_iff h ht (by decide)]
  cases hd : decode w with
  | instr i => simp [wordError_instr hd, commandError_illegalCommand_iff]
  | illegal why => simp [wordError_illegal hd]

/-- Settles O24: the operand tests of SETMODE and SETSPR. -/
theorem invalidConfigurationExactly : Obligations.InvalidConfigurationExactly := by
  intro s t w rest h ht
  rw [answers_error_iff h ht (by decide)]
  cases hd : decode w with
  | instr i => simp [wordError_instr hd, commandError_invalidConfiguration_iff]
  | illegal why => simp [wordError_illegal hd]

/-- Settles O25: the busy tests of MOVE, DIRFWD and DIRBWD. -/
theorem motionInProgressExactly : Obligations.MotionInProgressExactly := by
  intro s t w rest h ht
  rw [answers_error_iff h ht (by decide)]
  cases hd : decode w with
  | instr i => simp [wordError_instr hd, commandError_motionAlreadyInProgress_iff]
  | illegal why => simp [wordError_illegal hd]

/-- Settles O26: a refused command only answers, and post_event finds no mode that it could apply (R36). -/
theorem errorsWriteNothing : Obligations.ErrorsWriteNothing := by
  intro s t w rest hpend h ht
  refine ⟨fun e d hrsp he => ?_, fun k hd => ?_⟩
  · rcases step_answer_cases h ht with ⟨e', -, rfl⟩ | ⟨-, d', hok⟩
    · rw [postEvent_out, respond_rsp] at hrsp
      cases hrsp
      exact postEvent_of_pendBusy hpend
    · cases hok.symm.trans hrsp
      exact absurd rfl he
  · have hnone : wordError w s = none := wordError_instr hd
    rcases step_answer_cases h ht with ⟨e, herror, -⟩ | ⟨-, hok⟩
    · cases hnone.symm.trans herror
    · exact hok

/-- Settles O27: each error of the command's check contradicts one of the hypotheses. -/
theorem acceptedHazardsRaiseNoError : Obligations.AcceptedHazardsRaiseNoError := by
  intro i s haccepted hsetmode hsetspr hrdreg
  rcases exec_answer_cases i s with ⟨e, herror, -⟩ | ⟨-, hok⟩
  · exfalso
    cases e with
    | ok => exact commandError_ne_ok i s herror
    | invalidConfiguration =>
      rcases (commandError_invalidConfiguration_iff i s).1 herror with ⟨k, rfl, hk⟩ | rfl
      · exact Nat.not_lt.2 (hsetmode k rfl) hk
      · exact hsetspr rfl
    | motionAlreadyInProgress =>
      obtain ⟨z, hz, hrefused⟩ := refused_hazard_of_motionAlreadyInProgress i s herror
      cases (haccepted z hz).symm.trans hrefused
    | illegalCommand =>
      obtain ⟨r, rfl, hundef⟩ := (commandError_illegalCommand_iff i s).1 herror
      exact hundef (hrdreg r rfl)
  · exact hok

end Sys2Proof.Machine
end

section
/-! Reset (R39, R250, R251): what the reset state shows at its outputs and in DRVCFG. -/

namespace Sys2Proof.Machine

open Sys2Proof

/-! ### The outputs of the reset state (R251) -/

section Outputs

variable (c : Params) (pending : List Input) (m : Chan)

@[simp] theorem resetWith_rsp : (State.resetWith c pending).out.rsp = none := rfl

@[simp] theorem resetWith_stepOut : (State.resetWith c pending).stepOut m = false := by cases m <;> rfl

@[simp] theorem resetWith_dirOut : (State.resetWith c pending).dirOut m = c.invert m := by
  rw [State.dirOut, resetWith_ch, Channel.reset]

/-- EN is 0 after reset, so the enable line has the level that disables the driver (R34). -/
@[simp] theorem resetWith_enOut : (State.resetWith c pending).enOut = c.enActiveLow := Bool.false_xor _

@[simp] theorem resetWith_msOut : (State.resetWith c pending).msOut = c.pinMap.levels .full := rfl

@[simp] theorem resetWith_busyOut : (State.resetWith c pending).busyOut m = false := by cases m <;> rfl

/-- DRVCFG reads back the code of full step as MODE and as MODE_NEXT (R24). -/
theorem resetWith_drvcfg_modes :
    (State.resetWith c pending).drvcfg.extractLsb' 1 3 = 0 ∧ (State.resetWith c pending).drvcfg.extractLsb' 5 3 = 0 := by
  obtain ⟨-, hmode, -, hnext, -⟩ := drvcfg_fields (State.resetWith c pending)
  exact ⟨hmode, hnext⟩

end Outputs

/-! ### The statement -/

/-- Settles O16: the step leaves the reset state of the block's own parameters, whose fields are those of R39. -/
theorem resetEventGivesResetState : Obligations.ResetEventGivesResetState := by
  intro s rest h
  refine ⟨State.resetWith s.cfg rest, step_reset h, fun m => ?channel, rfl, rfl, rfl, rfl, rfl, resetWith_rsp _ _,
    resetWith_stepOut _ _, resetWith_dirOut _ _, resetWith_enOut _ _, resetWith_msOut _ _, resetWith_busyOut _ _,
    ⟨_, regRead_regNumber _ .drvcfg, resetWith_drvcfg_modes _ _⟩, resetWith_rx _ _, resetWith_cfg _ _,
    resetWith_inputs _ _⟩
  case channel => simp [Channel.reset]

end Sys2Proof.Machine
end
